-- ==== Sys2Proof/Word.lean ====
section
/-! DEFINITION. The word types of the model (00_scope.md R9): register values, counters and timing
parameters are 32-bit unsigned values, a data byte is 8 bits. -/

namespace Sys2Proof

/-- A 32-bit unsigned value: a register value, a counter, a timing parameter, a descriptor word (R9, R100). -/
abbrev Word := BitVec 32

/-- A data byte (R9). -/
abbrev Byte := BitVec 8

end Sys2Proof
end

