-- ==== Sys2Proof/Config.lean ====
section
/-! DEFINITION. The names of the register port (20_memory.md R81), the constants the source fixes
(00_scope.md R10), the parameters of an instance (R8), and the free values. A free value is an `opaque`
constant: it has no body, so a claim about it holds for every value. -/

namespace Sys2Proof.Machine

/-- The 14 interrupt bits, in the order of R110. -/
inductive IntrBit
  | rxUnder | rxOver | rxFull | txOver | txEmpty | rdReq | txAbrt | rxDone | activity
  | stopDet | startDet | genCall | restartDet | mstOnHold
  deriving DecidableEq, Repr

/-- The registers of the port, by name (R81). -/
inductive Reg
  | con | tar | sar | txTl | rxTl | ssHcnt | ssLcnt | fsHcnt | fsLcnt | hsHcnt | hsLcnt | sdaHold
  | rawIntrStat | intrStat | intrMask | enable | enableStatus | txflr | rxflr | dataCmd | txAbrtSource
  /-- The dedicated clear register of an interrupt bit, reached only through `Ack` (R84). -/
  | clr (b : IntrBit)
  /-- The generic aggregate clear, never accessed (R84). -/
  | clrIntr
  deriving DecidableEq, Repr

/-- The error kinds a transfer abort can have (R302). -/
inductive AbortKind
  | bus | arbitrationLoss | nackAddress | nackData | nackUnknown
  deriving DecidableEq, Repr, Inhabited

/-- Bit positions of the enable-status bits other than ACTIVITY, which is bit 0 (R114). -/
structure EnableStatusLayout where
  tfe : Fin 32
  rfne : Fin 32
  mstActivity : Fin 32
  slvActivity : Fin 32
  deriving DecidableEq, Repr

/-- The parameter RX_OUTSTANDING_UPDATE (R38). -/
inductive RxOutstandingUpdate
  | unchanged | incOnPartial
  deriving DecidableEq, Repr

/-- The parameter ABORT_ERROR (R302), as plain data: the spec's default mapping, or another one, which is
an uninterpreted function (`Config.abortErrorOther`). -/
inductive AbortErrorChoice
  | specDefault
  | other (k : Nat)
  deriving DecidableEq, Repr

/-- The parameters of one instance (R8); no step writes them. -/
structure Params where
  /-- TX_FIFO_DEPTH, a natural number of at least 1 (R36). -/
  txFifoDepth : Nat
  /-- RX_FIFO_DEPTH, a natural number of at least 1 (R36). -/
  rxFifoDepth : Nat
  stdFreqHz : Word
  highFreqHz : Word
  enableStatusLayout : EnableStatusLayout
  abrtSourceMask : Word
  abortError : AbortErrorChoice
  rxOutstandingUpdate : RxOutstandingUpdate
  deriving DecidableEq, Repr

end Sys2Proof.Machine

namespace Sys2Proof.Config

open Sys2Proof.Machine

/-! ## Constants of the source (R10, R183) -/

/-- The poll interval in microseconds. -/
def pollInterval : Nat := 10
/-- The delay count at which a poll's budget of 100 microseconds is certainly exhausted (R183). -/
def pollExhausted : Nat := 11
/-- The disable retry count. -/
def disableTries : Nat := 100
/-- The disable retry sleep in microseconds. -/
def disableSleep : Nat := 25
/-- The block-transfer maximum length. -/
def blockMax : Nat := 32

/-! ## Free values -/

/-- The raw value the controller answers to a read that State's answer list does not give: a draw (R82,
log entry 3). The argument counts the draws, so every draw is fresh. -/
opaque freeRead : Nat → Word

/-- The time source's answer to `Expired(k)`, k at most 10, that State's answer list does not give: a
draw (R183, log entry 4). -/
opaque freeExpired : Nat → Bool

/-- An initial byte of a read buffer that the host has not supplied (R117, log entry 6). -/
opaque freeByte : Nat → Byte

/-- The transmit threshold written where half the transmit depth does not fit 32 bits: the spec states
no value (log entry 12). -/
opaque wideThreshold : Nat → Word

/-- An ABORT_ERROR function other than the default (R302, log entry 13). -/
opaque abortErrorOther : Nat → Word → AbortKind

/-- The transmit FIFO depth of the instance, less 1: OPEN, a natural number of at least 1 (R8, log entry 5). -/
opaque txFifoDepthLessOne : Nat

/-- The receive FIFO depth of the instance, less 1: OPEN, a natural number of at least 1 (R8, log entry 5). -/
opaque rxFifoDepthLessOne : Nat

/-- REG_OFFSET (R90): OPEN, and no rule depends on it (log entry 21). -/
opaque regOffset : Reg → Word

/-! ## The parameters an instance is created with (R8) -/

/-- The default ENABLE_STATUS_LAYOUT (R114). -/
def enableStatusLayout : EnableStatusLayout := { tfe := 2, rfne := 3, mstActivity := 5, slvActivity := 6 }

/-- The parameters at instance creation: the depths are the open ones, the others the values and defaults
of R8 (log entry 5). -/
def params : Params :=
  { txFifoDepth := txFifoDepthLessOne + 1
    rxFifoDepth := rxFifoDepthLessOne + 1
    stdFreqHz := 100000
    highFreqHz := 3400000
    enableStatusLayout := enableStatusLayout
    abrtSourceMask := 0x0000FFFF
    abortError := .specDefault
    rxOutstandingUpdate := .incOnPartial }

end Sys2Proof.Config
end

