-- ==== Sys2Proof/Syntax.lean ====
section
/-! DEFINITION. The instructions: one constructor of `Instr` for each row of the opcode table.
Host commands and transaction operations are the descriptor rows (30_encoding.md R100), the `dc…`
constructors are the words of the controller's command stream (30_encoding.md R115, 43_fifo_commands.md). -/

namespace Sys2Proof

/-- The timing field that SET_TIMING writes, named as in R102 and R44. -/
inductive TimingSel
  | busFreqHz | ssHcnt | ssLcnt | fsHcnt | fsLcnt | hsHcnt | hsLcnt | sdaHold
  deriving DecidableEq, Repr

/-- One operation of a transaction, as the host lists it (R108, R109, R117): a write with its bytes,
or a read with its buffer length. -/
inductive Op
  | write (buf : List Byte)
  | read (len : BitVec 16)
  deriving DecidableEq, Repr

/-- The instructions of the block. -/
inductive Instr
  /-- SET_TIMING (R102, R140). -/
  | setTiming (sel : TimingSel) (val : BitVec 24)
  /-- SET_MSG_FLAGS (R103, R141): the flags F[0] to F[3] in that order. -/
  | setMsgFlags (txRecvLen txStop rxRecvLen rxStop : Bool)
  /-- CONFIGURE_MASTER (R142). -/
  | configureMaster
  /-- CONFIGURE_FIFO_MASTER (R144). -/
  | configureFifoMaster
  /-- INIT_MASTER (R145). -/
  | initMaster
  /-- DISABLE (R180). -/
  | disable
  /-- TRANSFER7 with its operation list (R106, R108, R227). -/
  | transfer7 (addr : BitVec 7) (ops : List Op)
  /-- TRANSFER10 with its operation list (R107, R108, R229). -/
  | transfer10 (addr : BitVec 10) (ops : List Op)
  /-- OP_WRITE with its bytes (R109, R230). -/
  | opWrite (buf : List Byte)
  /-- OP_READ with its buffer length (R117, R231). -/
  | opRead (len : BitVec 16)
  /-- DC_WR, word 0x000 | b (R270). -/
  | dcWr (b : Byte)
  /-- DC_WR_STOP, word 0x200 | b (R271). -/
  | dcWrStop (b : Byte)
  /-- DC_WR_RESTART, word 0x400 | b (R272). -/
  | dcWrRestart (b : Byte)
  /-- DC_WR_RESTART_STOP, word 0x600 | b (R273). -/
  | dcWrRestartStop (b : Byte)
  /-- DC_RD, word 0x100 (R274). -/
  | dcRd
  /-- DC_RD_RESTART, word 0x500 (R275). -/
  | dcRdRestart
  /-- DC_RD_STOP, word 0x300 (R276). -/
  | dcRdStop
  /-- DC_RD_RESTART_STOP, word 0x700 (R276). -/
  | dcRdRestartStop
  deriving DecidableEq, Repr

/-- The instruction that performs one operation of a transaction (R228). -/
def Op.toInstr : Op → Instr
  | .write buf => .opWrite buf
  | .read len => .opRead len

end Sys2Proof
end

