-- ==== Sys2Proof/WellFormed.lean ====
section
/-! DEFINITION. Which instructions have an encoding: an operation list of at most 4095 operations
(30_encoding.md R108) and a write buffer of at most 65535 bytes (R109). Every other operand is a bit
field of its exact width and cannot be out of range (R106, R107, R117). -/

namespace Sys2Proof

/-- The most operations of one transaction: NOPS is 12 bits (R108). -/
def maxOps : Nat := 4095

/-- The most bytes of one write buffer: LEN is 16 bits (R109). -/
def maxLen : Nat := 65535

/-- An operation that has a descriptor (R109, R117). -/
def Op.wf : Op → Bool
  | .write buf => decide (buf.length ≤ maxLen)
  | .read _ => true

/-- An operation list that a TRANSFER word can carry (R108). -/
def opsWf (ops : List Op) : Bool := decide (ops.length ≤ maxOps) && ops.all Op.wf

/-- An instruction that has an encoding. -/
def Instr.wf : Instr → Bool
  | .setTiming _ _ => true
  | .setMsgFlags _ _ _ _ => true
  | .configureMaster => true
  | .configureFifoMaster => true
  | .initMaster => true
  | .disable => true
  | .transfer7 _ ops => opsWf ops
  | .transfer10 _ ops => opsWf ops
  | .opWrite buf => decide (buf.length ≤ maxLen)
  | .opRead _ => true
  | .dcWr _ => true
  | .dcWrStop _ => true
  | .dcWrRestart _ => true
  | .dcWrRestartStop _ => true
  | .dcRd => true
  | .dcRdRestart => true
  | .dcRdStop => true
  | .dcRdRestartStop => true

end Sys2Proof
end

