-- ==== Sys2Proof/Decode.lean ====
section
/-! DEFINITION. Decoding and encoding (30_encoding.md). Two channels: descriptor words on the command
port (`decode`, R100 to R109, R117, R119, R122) and data-command words of the transmit command stream
(`decodeDataCmd`, R115, R270 to R276). Both are total and reject by name. -/

namespace Sys2Proof

/-- Why a word sequence is no instruction (R119). -/
inductive Reject
  /-- OPC 0x0 or 0xB to 0xF. -/
  | reservedOpcode
  /-- SET_TIMING with SEL 8 to 15. -/
  | reservedTimingField
  /-- A must-be-zero field is not zero. -/
  | nonzeroField
  /-- A byte of the last data word beyond LEN is not zero (R109). -/
  | nonzeroPadding
  /-- A command opcode among the NOPS operation descriptors (R108). -/
  | nonOperationInside
  /-- The stream ends before the NOPS descriptors or a write's data words are complete. -/
  | streamIncomplete
  /-- A word of the transmit command stream that is none of the eight forms (43_fifo_commands.md). -/
  | notADataCommand
  deriving DecidableEq, Repr

/-! ## Fields (R100, R125) -/

/-- OPC, bits [31:28]. -/
def opc (w : Word) : BitVec 4 := w.extractLsb' 28 4
/-- NOPS, bits [27:16]. -/
def fieldNops (w : Word) : BitVec 12 := w.extractLsb' 16 12
/-- LEN, bits [15:0]. -/
def fieldLen (w : Word) : BitVec 16 := w.extractLsb' 0 16
/-- Bits [27:0], which a command without operands holds zero (R105). -/
def fieldOperand (w : Word) : BitVec 28 := w.extractLsb' 0 28

/-- SEL of SET_TIMING (R102). -/
def timingSelOf (sel : BitVec 4) : Option TimingSel :=
  match sel.toNat with
  | 0 => some .busFreqHz
  | 1 => some .ssHcnt
  | 2 => some .ssLcnt
  | 3 => some .fsHcnt
  | 4 => some .fsLcnt
  | 5 => some .hsHcnt
  | 6 => some .hsLcnt
  | 7 => some .sdaHold
  | _ => none

/-- The SEL value of a timing field (R102). -/
def TimingSel.code : TimingSel → BitVec 4
  | .busFreqHz => 0
  | .ssHcnt => 1
  | .ssLcnt => 2
  | .fsHcnt => 3
  | .fsLcnt => 4
  | .hsHcnt => 5
  | .hsLcnt => 6
  | .sdaHold => 7

/-! ## Data words of OP_WRITE (R109) -/

/-- The four bytes of a data word, byte 0 from bits [7:0] (little-endian packing). -/
def wordBytes (w : Word) : List Byte :=
  [w.extractLsb' 0 8, w.extractLsb' 8 8, w.extractLsb' 16 8, w.extractLsb' 24 8]

/-- A data word of four bytes, the first in bits [7:0]. -/
def packWord (b0 b1 b2 b3 : Byte) : Word := b3 ++ b2 ++ b1 ++ b0

/-- The data words of a write buffer, the last one padded with zero bytes. -/
def packBytes : List Byte → List Word
  | [] => []
  | [a] => [packWord a 0 0 0]
  | [a, b] => [packWord a b 0 0]
  | [a, b, c] => [packWord a b c 0]
  | a :: b :: c :: d :: rest => packWord a b c d :: packBytes rest

/-- The number of data words of a write of `len` bytes: ceil(LEN/4). -/
def dataWords (len : Nat) : Nat := (len + 3) / 4

/-- The write buffer of a complete OP_WRITE, with the words that follow it. -/
def decodeWrite (len : Nat) (ws : List Word) : Except Reject (List Byte × List Word) :=
  let n := dataWords len
  if ws.length < n then .error .streamIncomplete
  else
    let bytes := (ws.take n).flatMap wordBytes
    if (bytes.drop len).all (fun b => b == 0) then .ok (bytes.take len, ws.drop n)
    else .error .nonzeroPadding

/-! ## The descriptor decoder -/

/-- One operation descriptor, with the words that follow it (R108, R109, R117). -/
def decodeOp : List Word → Except Reject (Op × List Word)
  | [] => .error .streamIncomplete
  | w :: ws =>
    match (opc w).toNat with
    | 9 =>
      if fieldNops w = 0 then
        match decodeWrite (fieldLen w).toNat ws with
        | .ok (buf, rest) => .ok (.write buf, rest)
        | .error r => .error r
      else .error .nonzeroField
    | 10 => if fieldNops w = 0 then .ok (.read (fieldLen w), ws) else .error .nonzeroField
    | 1 => .error .nonOperationInside
    | 2 => .error .nonOperationInside
    | 3 => .error .nonOperationInside
    | 4 => .error .nonOperationInside
    | 5 => .error .nonOperationInside
    | 6 => .error .nonOperationInside
    | 7 => .error .nonOperationInside
    | 8 => .error .nonOperationInside
    | _ => .error .reservedOpcode

/-- Exactly `n` operation descriptors, with the words that follow them (R108). -/
def decodeOps : Nat → List Word → Except Reject (List Op × List Word)
  | 0, ws => .ok ([], ws)
  | n + 1, ws =>
    match decodeOp ws with
    | .error r => .error r
    | .ok (op, rest) =>
      match decodeOps n rest with
      | .error r => .error r
      | .ok (ops, rest') => .ok (op :: ops, rest')

/-- A command that has no operand: bits [27:0] must be 0 (R105). -/
def decodePlain (i : Instr) (w : Word) (ws : List Word) : Except Reject (Instr × List Word) :=
  if fieldOperand w = 0 then .ok (i, ws) else .error .nonzeroField

/-- One descriptor of the command port with everything that belongs to it, and the words that follow.
An operation descriptor decodes to its operation; that none may stand outside a transaction (R108) is
the operation's own check, where the step position is known. -/
def decode : List Word → Except Reject (Instr × List Word)
  | [] => .error .streamIncomplete
  | w :: ws =>
    match (opc w).toNat with
    | 1 =>
      match timingSelOf (w.extractLsb' 24 4) with
      | some sel => .ok (.setTiming sel (w.extractLsb' 0 24), ws)
      | none => .error .reservedTimingField
    | 2 =>
      if w.extractLsb' 4 24 = 0 then
        .ok (.setMsgFlags (w.getLsbD 0) (w.getLsbD 1) (w.getLsbD 2) (w.getLsbD 3), ws)
      else .error .nonzeroField
    | 3 => decodePlain .configureMaster w ws
    | 4 => decodePlain .configureFifoMaster w ws
    | 5 => decodePlain .initMaster w ws
    | 6 => decodePlain .disable w ws
    | 7 =>
      if w.extractLsb' 7 9 = 0 then
        match decodeOps (fieldNops w).toNat ws with
        | .ok (ops, rest) => .ok (.transfer7 (w.extractLsb' 0 7) ops, rest)
        | .error r => .error r
      else .error .nonzeroField
    | 8 =>
      if w.extractLsb' 10 6 = 0 then
        match decodeOps (fieldNops w).toNat ws with
        | .ok (ops, rest) => .ok (.transfer10 (w.extractLsb' 0 10) ops, rest)
        | .error r => .error r
      else .error .nonzeroField
    | 9 =>
      match decodeOp (w :: ws) with
      | .ok (op, rest) => .ok (op.toInstr, rest)
      | .error r => .error r
    | 10 =>
      match decodeOp (w :: ws) with
      | .ok (op, rest) => .ok (op.toInstr, rest)
      | .error r => .error r
    | _ => .error .reservedOpcode

/-! ## The data-command decoder (R115, R270 to R276) -/

/-- The form of a word of the transmit command stream. Bits [10:8] are RESTART, STOP, CMD_READ; every
form has FIRST_DATA_BYTE (bit 11) and the bits above it zero, and a read form has DAT zero. -/
def decodeDataCmd (w : Word) : Except Reject Instr :=
  if w.extractLsb' 11 21 = 0 then
    let dat : Byte := w.extractLsb' 0 8
    match (w.extractLsb' 8 3 : BitVec 3).toNat with
    | 0 => .ok (.dcWr dat)
    | 2 => .ok (.dcWrStop dat)
    | 4 => .ok (.dcWrRestart dat)
    | 6 => .ok (.dcWrRestartStop dat)
    | 1 => if dat = 0 then .ok .dcRd else .error .notADataCommand
    | 5 => if dat = 0 then .ok .dcRdRestart else .error .notADataCommand
    | 3 => if dat = 0 then .ok .dcRdStop else .error .notADataCommand
    | _ => if dat = 0 then .ok .dcRdRestartStop else .error .notADataCommand
  else .error .notADataCommand

/-! ## The encoder -/

/-- The words of an operation (R109, R117). -/
def encodeOp : Op → List Word
  | .write buf => ((0x9 : BitVec 4) ++ (0 : BitVec 12) ++ BitVec.ofNat 16 buf.length) :: packBytes buf
  | .read len => [(0xA : BitVec 4) ++ (0 : BitVec 12) ++ len]

/-- The words of an operation list (R108). -/
def encodeOps (ops : List Op) : List Word := ops.flatMap encodeOp

/-- A data-command word: RESTART, STOP, CMD_READ and DAT (R115). -/
def dataCmdWord (restart stop read : Bool) (dat : Byte) : Word :=
  (0 : BitVec 21) ++ BitVec.ofBool restart ++ BitVec.ofBool stop ++ BitVec.ofBool read ++ dat

/-- The words of an instruction, in stream order (R100 to R109, R117; R115 for the `dc` forms). -/
def encode : Instr → List Word
  | .setTiming sel val => [(0x1 : BitVec 4) ++ sel.code ++ val]
  | .setMsgFlags f0 f1 f2 f3 =>
    [(0x2 : BitVec 4) ++ (0 : BitVec 24) ++ BitVec.ofBool f3 ++ BitVec.ofBool f2 ++ BitVec.ofBool f1 ++ BitVec.ofBool f0]
  | .configureMaster => [(0x3 : BitVec 4) ++ (0 : BitVec 28)]
  | .configureFifoMaster => [(0x4 : BitVec 4) ++ (0 : BitVec 28)]
  | .initMaster => [(0x5 : BitVec 4) ++ (0 : BitVec 28)]
  | .disable => [(0x6 : BitVec 4) ++ (0 : BitVec 28)]
  | .transfer7 a ops =>
    ((0x7 : BitVec 4) ++ BitVec.ofNat 12 ops.length ++ (0 : BitVec 9) ++ a) :: encodeOps ops
  | .transfer10 a ops =>
    ((0x8 : BitVec 4) ++ BitVec.ofNat 12 ops.length ++ (0 : BitVec 6) ++ a) :: encodeOps ops
  | .opWrite buf => encodeOp (.write buf)
  | .opRead len => encodeOp (.read len)
  | .dcWr b => [dataCmdWord false false false b]
  | .dcWrStop b => [dataCmdWord false true false b]
  | .dcWrRestart b => [dataCmdWord true false false b]
  | .dcWrRestartStop b => [dataCmdWord true true false b]
  | .dcRd => [dataCmdWord false false true 0]
  | .dcRdRestart => [dataCmdWord true false true 0]
  | .dcRdStop => [dataCmdWord false true true 0]
  | .dcRdRestartStop => [dataCmdWord true true true 0]

/-- Whether an instruction is a word of the transmit command stream (format DATA_CMD of the opcode
table), not a descriptor of the command port. -/
def Instr.isDataCmd : Instr → Bool
  | .setTiming _ _ => false
  | .setMsgFlags _ _ _ _ => false
  | .configureMaster => false
  | .configureFifoMaster => false
  | .initMaster => false
  | .disable => false
  | .transfer7 _ _ => false
  | .transfer10 _ _ => false
  | .opWrite _ => false
  | .opRead _ => false
  | .dcWr _ => true
  | .dcWrStop _ => true
  | .dcWrRestart _ => true
  | .dcWrRestartStop _ => true
  | .dcRd => true
  | .dcRdRestart => true
  | .dcRdStop => true
  | .dcRdRestartStop => true

/-! ## Table words -/

/-- The further words an instruction needs beyond its table row, all zero: the data words of an
OP_WRITE, or one word where a TRANSFER word announces operations. -/
def operandZeros (w : Word) : List Word :=
  match (opc w).toNat with
  | 7 => if fieldNops w = 0 then [] else [0]
  | 8 => if fieldNops w = 0 then [] else [0]
  | 9 => List.replicate (dataWords (fieldLen w).toNat) 0
  | _ => []

/-- The words of an instruction whose bits are `w`, `nbits` of them given, the first word in the low
32 bits, with zero words above. -/
def tableWords (nbits w : Nat) : List Word :=
  let first : Word := BitVec.ofNat 32 (w % 2 ^ nbits)
  let given := (List.range ((nbits + 31) / 32)).map (fun k => (BitVec.ofNat 32 ((w % 2 ^ nbits) >>> (32 * k)) : Word))
  (if given = [] then [first] else given) ++ (operandZeros first).drop (given.length - 1)

/-- The instruction the decoder reads from an opcode-table word: a word whose OPC is the reserved 0x0
is read as a data-command word, every other word as a descriptor. -/
def decodeTableWord (nbits w : Nat) : Option Instr :=
  match tableWords nbits w with
  | [] => none
  | first :: rest =>
    if opc first = 0 then
      match decodeDataCmd first with
      | .ok i => some i
      | .error _ => none
    else
      match decode (first :: rest) with
      | .ok (i, _) => some i
      | .error _ => none

end Sys2Proof
end

