-- ==== Sys2Proof/Machine/State.lean ====
section
/-! DEFINITION. The state of the sequencer (10_state.md), the port's events and outputs (20_memory.md),
the reasons a step stops, and the state after reset (R53). -/

namespace Sys2Proof.Machine

/-! ## Parts of the state -/

/-- The software status, a 3-bit set (R31). -/
structure Status where
  /-- ACTIVE, bit 0 (R32). -/
  active : Bool
  /-- WRITE_IN_PROGRESS, bit 1 (R33). -/
  wip : Bool
  /-- READ_IN_PROGRESS, bit 2 (R34). -/
  rip : Bool
  deriving DecidableEq, Repr

/-- A set of message flags (R41). -/
structure MsgFlags where
  /-- RECV_LEN, bit 0. -/
  recvLen : Bool
  /-- STOP, bit 1; read by no rule. -/
  stop : Bool
  deriving DecidableEq, Repr

/-- The advertised features (R43). -/
structure Functionality where
  /-- I2C_DEFAULT, bit 0. -/
  i2cDefault : Bool
  /-- TEN_BIT_ADDR, bit 1. -/
  tenBitAddr : Bool
  deriving DecidableEq, Repr

/-- The timing parameters (R44). -/
structure Timing where
  busFreqHz : Word
  ssHcnt : Word
  ssLcnt : Word
  fsHcnt : Word
  fsLcnt : Word
  hsHcnt : Word
  hsLcnt : Word
  sdaHold : Word
  deriving DecidableEq, Repr

/-- The operation mode (R45). -/
inductive Mode
  | master | slave
  deriving DecidableEq, Repr

/-- The outcome of a disable sequence (R178). -/
inductive DisableOutcome
  | disabled | abortTimeout | disableTimeout
  deriving DecidableEq, Repr

/-- The host command in progress (R47): none, or a transaction, with its target-address value and its
operation list as it stood when issued (R94). Every other command runs to its end in the step that
takes it. -/
inductive Cmd
  | idle
  | transfer (tar : Word) (ops : List Op)
  deriving DecidableEq, Repr

/-- A port event (R14, R80). A read's value is the masked one (R20). -/
inductive PortEvent
  | regRead (r : Reg) (v : Word)
  | regWrite (r : Reg) (v : Word)
  | ack (b : IntrBit)
  | delay (us : Nat)
  | expired (k : Nat) (answer : Bool)
  deriving DecidableEq, Repr

/-- What a word of the transmit command stream asks of the controller (43_fifo_commands.md). -/
inductive BusRequest
  /-- A restart condition before the byte (R272). -/
  | restart
  /-- Transmit a byte (R270). -/
  | transmit (b : Byte)
  /-- Read one byte from the target (R274). -/
  | readByte
  /-- A stop condition after the byte (R271). -/
  | stop
  deriving DecidableEq, Repr

/-- The error kinds of a transaction (R300). -/
inductive XferError
  | abort (k : AbortKind)
  | overrun
  | other
  deriving DecidableEq, Repr

/-- The result a command ends with (R118, R300). -/
inductive Result
  | ok
  | error (e : XferError)
  | abortTimeout
  | disableTimeout
  deriving DecidableEq, Repr

/-! ## The state -/

/-- The state of the machine: the record S of 10_state.md, then the instance's parameters, then what
stands at its ports. -/
structure State where
  /-- R31 to R35. -/
  status : Status
  /-- R37. -/
  txOutstanding : Word
  /-- R38. -/
  rxOutstanding : Word
  /-- R39. -/
  txBufLen : Word
  /-- R40. -/
  rxBufLen : Word
  /-- R41. -/
  txFlag : MsgFlags
  /-- R41. -/
  rxFlag : MsgFlags
  /-- R42. -/
  masterCfg : Word
  /-- R43. -/
  functionality : Functionality
  /-- R44. -/
  timing : Timing
  /-- R45. -/
  mode : Mode
  /-- R46. -/
  msgErr : Bool
  /-- R48. -/
  initialized : Bool
  /-- R49; `none` is the code NONE. -/
  lastDisable : Option DisableOutcome
  /-- R47. -/
  cmd : Cmd
  /-- R47: the index of the operation being performed, kept after the walk ends. -/
  opIdx : Nat
  /-- R47: the write operations at or after `opIdx` not yet started. -/
  writesLeft : Nat
  /-- The instance's parameters, written by no step (R8). -/
  params : Params
  /-- The command port: descriptor words the host has issued and the block has not taken (R100). -/
  port : List Word
  /-- Initial contents of the read buffers of the commands to come, one list an OP_READ, in order (R117). -/
  rbufSupply : List (List Byte)
  /-- The read buffers of the last admitted transaction, one list an OP_READ, in order (R86). -/
  rbufs : List (List Byte)
  /-- The result words returned, oldest first (R118). -/
  results : List Word
  /-- The port events of the run, oldest first (R80). -/
  trace : List PortEvent
  /-- The transmit command stream: words pushed to DATA_CMD and not taken up yet, oldest first (R85). -/
  dataCmds : List Word
  /-- What the words taken up ask of the controller, oldest first (43_fifo_commands.md). -/
  asked : List BusRequest
  /-- INPUT: the raw answers of the controller to the next reads (R82); free values follow. -/
  readAnswers : List Word
  /-- INPUT: the answers of the time source to the next `Expired(k)`, k at most 10 (R183); free values follow. -/
  expiredAnswers : List Bool
  /-- The MODEL's own: the number of free values taken so far. -/
  draws : Nat
  deriving DecidableEq, Repr

/-! ## Why a step stops -/

/-- The model faults (R306). Each carries the state at the fault, in which the trace ends with the last
port event before it: the fault is kept, and no later command clears it. -/
inductive Fault
  /-- Raised by the write path: TXFLR read above TX_FIFO_DEPTH (R214). Safe: the model stops where the
  spec gives no meaning. -/
  | txLevelAboveDepth (stopped : State)
  /-- Raised by the write path (R37, R216) and the read path (R38, R225): an outstanding count incremented
  past 0xFFFFFFFF. Safe: the model stops where the spec gives no meaning. -/
  | counterOverflow (stopped : State)
  deriving DecidableEq, Repr

/-- The refusals (R307): the command has no step. -/
inductive Refusal
  /-- Raised by exec's arms for an instruction that has no meaning yet; none is left. Safe. -/
  | notModelled (mnemonic : String)
  /-- Raised by step: the words are no instruction (R119). Safe: the host is assumed not to issue them. -/
  | encoding (why : Reject)
  /-- Raised by OP_WRITE and OP_READ outside a transaction (R108, R119). Safe. -/
  | opOutsideTransaction
  /-- Raised by every command while a transaction is in progress (R108, R119, R318). Safe. -/
  | commandInsideTransaction
  /-- Raised by TRANSFER7 and TRANSFER10 before INIT_MASTER has completed (R227, R229). Safe. -/
  | notInitialised
  deriving DecidableEq, Repr

/-! ## Reset -/

/-- The state after reset (instance creation): the values of R53; the parameters of R8; nothing issued,
nothing answered, nothing done (log entries 5 and 11). -/
def State.reset : State :=
  { status := { active := false, wip := false, rip := false }
    txOutstanding := 0
    rxOutstanding := 0
    txBufLen := 0
    rxBufLen := 0
    txFlag := { recvLen := false, stop := false }
    rxFlag := { recvLen := false, stop := false }
    masterCfg := 0
    functionality := { i2cDefault := false, tenBitAddr := false }
    timing :=
      { busFreqHz := 0, ssHcnt := 0, ssLcnt := 0, fsHcnt := 0, fsLcnt := 0, hsHcnt := 0, hsLcnt := 0, sdaHold := 0 }
    mode := .master
    msgErr := false
    initialized := false
    lastDisable := none
    cmd := .idle
    opIdx := 0
    writesLeft := 0
    params := Config.params
    port := []
    rbufSupply := []
    rbufs := []
    results := []
    trace := []
    dataCmds := []
    asked := []
    readAnswers := []
    expiredAnswers := []
    draws := 0 }

end Sys2Proof.Machine
end

