-- ==== Sys2Proof/Machine/Operands.lean ====
section
/-! DEFINITION. The register layouts (30_encoding.md sections 3 to 5), the timing fields, and the values
the sequencer assembles from operands. -/

namespace Sys2Proof.Machine

/-! ## Interrupt bits (R110, R111) -/

/-- The position of an interrupt bit (R110). -/
def IntrBit.index : IntrBit → Nat
  | .rxUnder => 0
  | .rxOver => 1
  | .rxFull => 2
  | .txOver => 3
  | .txEmpty => 4
  | .rdReq => 5
  | .txAbrt => 6
  | .rxDone => 7
  | .activity => 8
  | .stopDet => 9
  | .startDet => 10
  | .genCall => 11
  | .restartDet => 12
  | .mstOnHold => 13

/-- The interrupt bits in ascending order, the order the helper visits them in (R170). -/
def intrBits : List IntrBit :=
  [.rxUnder, .rxOver, .rxFull, .txOver, .txEmpty, .rdReq, .txAbrt, .rxDone, .activity, .stopDet,
    .startDet, .genCall, .restartDet, .mstOnHold]

/-- Whether a status value has an interrupt bit set. -/
def IntrBit.isSet (b : IntrBit) (st : Word) : Bool := st.getLsbD b.index

/-- INTR_NONE (R111). -/
def intrNone : Word := 0x0000
/-- INTR_DEFAULT_MASK = RX_FULL | TX_ABRT | STOP_DET (R111). -/
def intrDefaultMask : Word := 0x0244
/-- INTR_MASTER_MASK = INTR_DEFAULT_MASK | TX_EMPTY (R111). -/
def intrMasterMask : Word := 0x0254

/-! ## Control, target-address, enable and enable-status registers (R104, R112, R113, R114) -/

/-- CON_MASTER (R104). -/
def conMaster : Word := 0x01
/-- CON_SPEED_STD (R104). -/
def conSpeedStd : Word := 0x02
/-- CON_SPEED_FAST (R104). -/
def conSpeedFast : Word := 0x04
/-- CON_SPEED_HIGH (R104). -/
def conSpeedHigh : Word := 0x06
/-- CON_10BIT_MASTER (R104). -/
def con10BitMaster : Word := 0x10
/-- CON_RESTART_EN (R104). -/
def conRestartEn : Word := 0x20
/-- CON_SLAVE_DISABLE (R104). -/
def conSlaveDisable : Word := 0x40

/-- RESTART_EN of a control-register image (R104). -/
def restartEn (cfg : Word) : Bool := cfg.getLsbD 5

/-- `SpeedBits` (R143): the speed class whose frequency equals the configured one, else fast. -/
def speedBits (p : Params) (f : Word) : Word :=
  if f = p.stdFreqHz then conSpeedStd else if f = p.highFreqHz then conSpeedHigh else conSpeedFast

/-- The control-register image CONFIGURE_MASTER computes (R142). -/
def masterConfig (p : Params) (f : Word) : Word :=
  conMaster ||| conSlaveDisable ||| conRestartEn ||| speedBits p f

/-- TAR_10BIT (R112). -/
def tar10Bit : Word := 0x1000
/-- The target-address value of a 7-bit address (R112). -/
def tarOf7 (a : BitVec 7) : Word := a.setWidth 32
/-- The target-address value of a 10-bit address (R112). -/
def tarOf10 (a : BitVec 10) : Word := a.setWidth 32 ||| tar10Bit

/-- The control-register value transfer setup writes: only TEN_BIT_MASTER changes (R211). -/
def conForTar (tar con : Word) : Word :=
  if tar.getLsbD 12 then con ||| con10BitMaster else con &&& ~~~con10BitMaster

/-- EN_ENABLE (R113). -/
def enEnable : Word := 0x1
/-- EN_ABORT (R113). -/
def enAbort : Word := 0x2
/-- The abort-request bit of an ENABLE value (R113). -/
def abortBit (en : Word) : Bool := en.getLsbD 1
/-- The ACTIVITY bit of an ENABLE_STATUS value (R114). -/
def activityBit (es : Word) : Bool := es.getLsbD 0

/-- The valid mask of ENABLE_STATUS: ACTIVITY at bit 0 and the four placed bits (R101, R114). -/
def enableStatusMask (l : EnableStatusLayout) : Word :=
  (1 : Word) ||| ((1 : Word) <<< l.tfe.val) ||| ((1 : Word) <<< l.rfne.val) ||| ((1 : Word) <<< l.mstActivity.val)
    ||| ((1 : Word) <<< l.slvActivity.val)

/-! ## Valid masks (R101, R126) -/

/-- `VALID(R)` (R101). The clear registers are never read or written as words (R84). -/
def Reg.valid (p : Params) : Reg → Word
  | .con => 0x0000007F
  | .tar => 0x000013FF
  | .enable => 0x00000003
  | .enableStatus => enableStatusMask p.enableStatusLayout
  | .rawIntrStat => 0x00003FFF
  | .intrStat => 0x00003FFF
  | .intrMask => 0x00003FFF
  | .dataCmd => 0x00000FFF
  | .txAbrtSource => p.abrtSourceMask
  | .sar => 0xFFFFFFFF
  | .txTl => 0xFFFFFFFF
  | .rxTl => 0xFFFFFFFF
  | .ssHcnt => 0xFFFFFFFF
  | .ssLcnt => 0xFFFFFFFF
  | .fsHcnt => 0xFFFFFFFF
  | .fsLcnt => 0xFFFFFFFF
  | .hsHcnt => 0xFFFFFFFF
  | .hsLcnt => 0xFFFFFFFF
  | .sdaHold => 0xFFFFFFFF
  | .txflr => 0xFFFFFFFF
  | .rxflr => 0xFFFFFFFF
  | .clr _ => 0xFFFFFFFF
  | .clrIntr => 0xFFFFFFFF

/-! ## Data-command words (R115) -/

/-- DC_READ (R115). -/
def dcRead : Word := 0x100
/-- DC_STOP (R115). -/
def dcStop : Word := 0x200
/-- DC_RESTART (R115). -/
def dcRestart : Word := 0x400

/-- The data byte of a popped word, bits [7:0] (R277). -/
def popByte (w : Word) : Byte := w.extractLsb' 0 8

/-! ## Timing fields (R44, R102) and the transmit threshold (R144) -/

/-- The value of a timing field. -/
def Timing.get (t : Timing) : TimingSel → Word
  | .busFreqHz => t.busFreqHz
  | .ssHcnt => t.ssHcnt
  | .ssLcnt => t.ssLcnt
  | .fsHcnt => t.fsHcnt
  | .fsLcnt => t.fsLcnt
  | .hsHcnt => t.hsHcnt
  | .hsLcnt => t.hsLcnt
  | .sdaHold => t.sdaHold

/-- The timing parameters with one field replaced (R140). -/
def Timing.put (t : Timing) (sel : TimingSel) (v : Word) : Timing :=
  match sel with
  | .busFreqHz => { t with busFreqHz := v }
  | .ssHcnt => { t with ssHcnt := v }
  | .ssLcnt => { t with ssLcnt := v }
  | .fsHcnt => { t with fsHcnt := v }
  | .fsLcnt => { t with fsLcnt := v }
  | .hsHcnt => { t with hsHcnt := v }
  | .hsLcnt => { t with hsLcnt := v }
  | .sdaHold => { t with sdaHold := v }

/-- The transmit threshold, floor(TX_FIFO_DEPTH / 2) (R144). Where that does not fit 32 bits the spec
states no value and it is free (DESIGN CHOICE, log entry 12). -/
def txThreshold (depth : Nat) : Word :=
  if depth / 2 < 2 ^ 32 then BitVec.ofNat 32 (depth / 2) else Config.wideThreshold depth

/-! ## Operations of a transaction (R228) -/

/-- The number of write operations of a list (R228). -/
def countWrites : List Op → Nat
  | [] => 0
  | .write _ :: ops => countWrites ops + 1
  | .read _ :: ops => countWrites ops

/-- The number of read operations of a list: the index of the next read's buffer. -/
def countReads : List Op → Nat
  | [] => 0
  | .write _ :: ops => countReads ops
  | .read _ :: ops => countReads ops + 1

end Sys2Proof.Machine
end

