-- ==== Sys2Proof/Machine/Flags.lean ====
section
/-! DEFINITION. The status and message flags as sets, the restart and stop decisions, the interrupt-mask
decision, the length-prefix substitution, result codes and the abort mapping. -/

namespace Sys2Proof.Machine

/-! ## Flag sets as numbers (R31, R41, R43) -/

/-- The 3-bit status (R31). -/
def Status.bits (f : Status) : BitVec 3 :=
  BitVec.ofBool f.rip ++ BitVec.ofBool f.wip ++ BitVec.ofBool f.active

/-- The 2-bit message flags (R41). -/
def MsgFlags.bits (f : MsgFlags) : BitVec 2 := BitVec.ofBool f.stop ++ BitVec.ofBool f.recvLen

/-- The 2-bit functionality (R43). -/
def Functionality.bits (f : Functionality) : BitVec 2 :=
  BitVec.ofBool f.tenBitAddr ++ BitVec.ofBool f.i2cDefault

/-! ## The write path's decisions -/

/-- `need_restart` (R213). -/
def needRestart (s : State) : Bool := !s.status.wip && restartEn s.masterCfg

/-- The stop condition of byte `i` of `n` pushed out of `len` (R215). -/
def stopOn (isLast recvLen : Bool) (len n i : Nat) : Bool :=
  isLast && (i + 1 == n) && (i + 1 == len) && !recvLen

/-- The word pushed for byte `i` (R215). -/
def writeCmd (restart isLast recvLen : Bool) (len n i : Nat) (b : Byte) : Word :=
  b.setWidth 32 ||| (if i = 0 ∧ restart = true then dcRestart else 0)
    ||| (if stopOn isLast recvLen len n i = true then dcStop else 0)

/-- The words pushed for the first `n` bytes of a buffer, in index order (R87, R215). -/
def writeCmds (restart isLast recvLen : Bool) (n : Nat) (buf : List Byte) : List Word :=
  (buf.take n).zipIdx.map (fun p => writeCmd restart isLast recvLen buf.length n p.2 p.1)

/-- The interrupt mask a write operation leaves (R217). -/
def writeMask (msgErr isLast : Bool) : Word :=
  if msgErr then intrNone else if isLast then intrDefaultMask else intrMasterMask

/-! ## The read path's decisions -/

/-- The read command (R221). -/
def readCmd (cfg : Word) : Word := dcRead ||| (if restartEn cfg = true then dcRestart else 0)

/-- The byte stored for a popped word: the length-prefix substitution (R224). -/
def storedByte (recvLen : Bool) (w : Word) : Byte :=
  let b := popByte w
  if recvLen = true ∧ (b = 0 ∨ Config.blockMax < b.toNat) then 1 else b

/-! ## Results (R49, R118, R300) and the abort mapping (R302) -/

/-- The code of an abort's error kind (R300). -/
def AbortKind.code : AbortKind → BitVec 4
  | .bus => 1
  | .arbitrationLoss => 2
  | .nackAddress => 3
  | .nackData => 4
  | .nackUnknown => 5

/-- The code of an error kind (R300). -/
def XferError.code : XferError → BitVec 4
  | .abort k => k.code
  | .overrun => 6
  | .other => 7

/-- The result code (R118). -/
def Result.code : Result → BitVec 4
  | .ok => 0
  | .error e => e.code
  | .abortTimeout => 8
  | .disableTimeout => 9

/-- The result word: the code in bits [3:0], the rest 0 (R118). -/
def Result.word (r : Result) : Word := r.code.setWidth 32

/-- The result DISABLE returns for an outcome (R180). -/
def DisableOutcome.result : DisableOutcome → Result
  | .disabled => .ok
  | .abortTimeout => .abortTimeout
  | .disableTimeout => .disableTimeout

/-- The code of `last_disable` (R49). -/
def lastDisableCode : Option DisableOutcome → BitVec 4
  | none => 15
  | some .disabled => 0
  | some .abortTimeout => 8
  | some .disableTimeout => 9

/-- The default ABORT_ERROR: first match wins (R302). -/
def defaultAbortError (src : Word) : AbortKind :=
  if src.getLsbD 12 || src.getLsbD 14 then .arbitrationLoss
  else if src.getLsbD 0 || src.getLsbD 1 || src.getLsbD 2 then .nackAddress
  else if src.getLsbD 3 then .nackData
  else if src.getLsbD 4 then .nackUnknown
  else .bus

/-- ABORT_ERROR of the instance (R302). -/
def abortErrorOf (p : Params) (src : Word) : AbortKind :=
  match p.abortError with
  | .specDefault => defaultAbortError src
  | .other k => Config.abortErrorOther k src

end Sys2Proof.Machine
end

