-- ==== Sys2Proof/Machine/Ops.lean ====
section
/-! DEFINITION. The named operations: the port primitives (00_scope.md R14), the sub-sequences other
commands call (41_recovery.md), ending a command with its result, and the walk's position. -/

namespace Sys2Proof.Machine

/-! ## Port primitives (R14, R80 to R85, R183) -/

/-- The state with one more port event. -/
def State.emit (e : PortEvent) (s : State) : State := { s with trace := s.trace ++ [e] }

/-- The raw value of the next read: the controller's next answer, else a free value (R82, log entry 3). -/
def State.nextRaw (s : State) : Word :=
  match s.readAnswers with
  | v :: _ => v
  | [] => Config.freeRead s.draws

/-- The state with one answer of the controller used up. -/
def State.dropRead (s : State) : State :=
  match s.readAnswers with
  | _ :: vs => { s with readAnswers := vs }
  | [] => { s with draws := s.draws + 1 }

/-- The value a read of `r` has now, masked with `VALID(r)` (R20, R82). -/
def State.readValue (r : Reg) (s : State) : Word := s.nextRaw &&& r.valid s.params

/-- `RegRead(r)` (R14), whose value is `readValue r`: the state after the event. -/
def State.afterRead (r : Reg) (s : State) : State := s.dropRead.emit (.regRead r (s.readValue r))

/-- `RegWrite(r, v)` (R83). A write to DATA_CMD pushes one command into the transmit command stream (R85). -/
def State.regWrite (r : Reg) (v : Word) (s : State) : State :=
  { s with
    trace := s.trace ++ [.regWrite r v]
    dataCmds := if r = .dataCmd then s.dataCmds ++ [v] else s.dataCmds }

/-- `RegWrite` of each of a list of (register, value) pairs, in order. -/
def State.regWrites : List (Reg × Word) → State → State
  | [], s => s
  | w :: ws, s => State.regWrites ws (s.regWrite w.1 w.2)

/-- `Ack(b)` (R84). -/
def State.ack (b : IntrBit) (s : State) : State := s.emit (.ack b)

/-- `Delay(us)` (R316): an event and no other effect. -/
def State.delay (us : Nat) (s : State) : State := s.emit (.delay us)

/-- The time source's next answer, else a free value (R183, log entry 4). -/
def State.nextExpired (s : State) : Bool :=
  match s.expiredAnswers with
  | e :: _ => e
  | [] => Config.freeExpired s.draws

/-- The state with one answer of the time source used up. -/
def State.dropExpired (s : State) : State :=
  match s.expiredAnswers with
  | _ :: es => { s with expiredAnswers := es }
  | [] => { s with draws := s.draws + 1 }

/-- The answer of `Expired(k)` (R183): a draw for k at most 10, true from 11 on. -/
def State.isExpired (k : Nat) (s : State) : Bool :=
  if Config.pollExhausted ≤ k then true else s.nextExpired

/-- `Expired(k)` (R14, R183), whose answer is `isExpired k`: the state after the event. -/
def State.afterExpired (k : Nat) (s : State) : State :=
  State.emit (.expired k (s.isExpired k)) (if Config.pollExhausted ≤ k then s else s.dropExpired)

/-! ## Interrupt read-and-clear (R170) -/

/-- Acknowledges the bits of a list that `st` has set, reading TX_ABRT_SOURCE right before `Ack(TX_ABRT)`;
answers the abort source captured, `src` where none was. -/
def ackAll : List IntrBit → Word → Word → State → Word × State
  | [], _, src, s => (src, s)
  | b :: bs, st, src, s =>
    if b.isSet st then
      if b = .txAbrt then
        ackAll bs st (s.readValue .txAbrtSource) ((s.afterRead .txAbrtSource).ack b)
      else ackAll bs st src (s.ack b)
    else ackAll bs st src s

/-- What `ReadClearIntr` answers. -/
structure IntrAnswer where
  /-- The masked status read. -/
  st : Word
  /-- The abort source captured, 0 where TX_ABRT was not set. -/
  src : Word
  /-- The state after its port events. -/
  after : State
  deriving DecidableEq, Repr

/-- `ReadClearIntr()` (R170). -/
def readClearIntr (s : State) : IntrAnswer :=
  let st := s.readValue .intrStat
  let a := ackAll intrBits st 0 (s.afterRead .intrStat)
  { st := st, src := a.1, after := a.2 }

/-! ## Bounded poll and disable sequence (R171 to R179) -/

/-- The abort poll, `Poll(RegRead(ENABLE), v[1] == 0)` after `k` delays with `left` more possible (R171,
R173): true where the abort bit was seen clear, false on timeout. With `left + k = 11` the last
`Expired` answers true (R183), so the poll never ends for want of `left`. -/
def abortPoll : (left k : Nat) → State → Bool × State
  | 0, k, s =>
    let t := s.afterRead .enable
    if abortBit (s.readValue .enable) = false then (true, t) else (false, t.afterExpired k)
  | left + 1, k, s =>
    let t := s.afterRead .enable
    if abortBit (s.readValue .enable) = false then (true, t)
    else if t.isExpired k = true then (false, t.afterExpired k)
    else abortPoll left (k + 1) ((t.afterExpired k).delay Config.pollInterval)

/-- The disable loop with `n` attempts left (R175, R176). -/
def disableLoop : Nat → State → DisableOutcome × State
  | 0, s => (.disableTimeout, s)
  | n + 1, s =>
    let w := s.regWrite .enable 0
    let t := w.afterRead .enableStatus
    if activityBit (w.readValue .enableStatus) = false then (.disabled, t)
    else if n = 0 then (.disableTimeout, t)
    else disableLoop n (t.delay Config.disableSleep)

/-- Disable step 1 where an abort is requested, then step 2 unless it timed out (R173, R174). -/
def abortThenDisable (en : Word) (s : State) : DisableOutcome × State :=
  let p := abortPoll Config.pollExhausted 0 (s.regWrite .enable (en ||| enAbort))
  if p.1 = true then disableLoop Config.disableTries p.2 else (.abortTimeout, p.2)

/-- The two reads of disable step 1 and what follows them (R172, R182). -/
def disableBody (s : State) : DisableOutcome × State :=
  let t := s.afterRead .rawIntrStat
  let en := t.readValue .enable
  if IntrBit.mstOnHold.isSet (s.readValue .rawIntrStat) = true ∧ abortBit en = false then
    abortThenDisable en (t.afterRead .enable)
  else disableLoop Config.disableTries (t.afterRead .enable)

/-- `Disable()` (R178): the outcome, recorded in `last_disable`. -/
def disableSeq (s : State) : DisableOutcome × State :=
  let d := disableBody s
  (d.1, { d.2 with lastDisable := some d.1 })

/-! ## Ending a command (R47, R118, R300, R308) -/

/-- A command ends with its one result: back to Idle, the result word on the command port. -/
def State.endCommand (r : Result) (s : State) : State :=
  { s with cmd := .idle, results := s.results ++ [r.word] }

/-- `raise Err(e)`: an error ends the running command; `op_idx` stays, nothing is rolled back (R303, R308).
The block has no trap, and no return from one (R308, R309). -/
def State.raise (e : XferError) (s : State) : State := s.endCommand (.error e)

/-! ## Commands and the walk (R47, R228) -/

/-- A host command other than a transaction: it is taken only when no command runs (R47, R108), and ends
with the result given. -/
def runCommand (f : State → State) (r : State → Result) (s : State) : Host.Outcome State Fault Refusal :=
  match s.cmd with
  | .idle => .next ((f s).endCommand (r s))
  | .transfer _ _ => .refused .commandInsideTransaction

/-- One read buffer of `len` bytes: the host's bytes, the first `len` of them, and free bytes, numbered
from `d`, where it supplied fewer (R86, R117, log entry 6). -/
def hostBuffer (len : Nat) (given : List Byte) (d : Nat) : List Byte :=
  given.take len ++ (List.range (len - given.length)).map (fun i => Config.freeByte (d + i))

/-- The read buffers of an operation list, what is left of the host's supply, and the free values used. -/
def takeBuffers : List Op → List (List Byte) → Nat → List (List Byte) × List (List Byte) × Nat
  | [], sup, d => ([], sup, d)
  | .write _ :: ops, sup, d => takeBuffers ops sup d
  | .read len :: ops, sup, d =>
    let given := sup.headD []
    let rest := takeBuffers ops sup.tail (d + (len.toNat - given.length))
    (hostBuffer len.toNat given d :: rest.1, rest.2.1, rest.2.2)

/-- A transaction becomes the command in progress, at the start of its walk, with the read buffers the
host supplied (R228, R86). -/
def State.startWalk (tar : Word) (ops : List Op) (s : State) : State :=
  let b := takeBuffers ops s.rbufSupply s.draws
  { s with
    cmd := .transfer tar ops
    opIdx := 0
    writesLeft := countWrites ops
    rbufs := b.1
    rbufSupply := b.2.1
    draws := b.2.2 }

/-- The walk's loop condition: while `op_idx < len(ops)` the transaction goes on, else it returns Ok (R228). -/
def State.continueWalk (ops : List Op) (s : State) : State :=
  if s.opIdx < ops.length then s else s.endCommand .ok

/-- An operation returned Ok: `op_idx` advances by 1 (R47, R228). -/
def State.opDone (ops : List Op) (s : State) : State :=
  State.continueWalk ops { s with opIdx := s.opIdx + 1 }

/-- The index of the read buffer of the operation at `idx`: the read operations before it. -/
def rbufIndex (ops : List Op) (idx : Nat) : Nat := countReads (ops.take idx)

/-- The state with what a word of the command stream asks recorded (43_fifo_commands.md). -/
def State.ask (rs : List BusRequest) (s : State) : State := { s with asked := s.asked ++ rs }

end Sys2Proof.Machine
end

