-- ==== Sys2Proof/Machine/Configuration.lean ====
section
/-! DEFINITION. The configuration commands (40_configuration.md). -/

namespace Sys2Proof.Machine

/-- One timing field is stored (R140). -/
def setTiming (sel : TimingSel) (v : Word) (s : State) : State := { s with timing := s.timing.put sel v }

/-- The message flags are stored (R141). -/
def setMsgFlags (txRecvLen txStop rxRecvLen rxStop : Bool) (s : State) : State :=
  { s with
    txFlag := { recvLen := txRecvLen, stop := txStop }
    rxFlag := { recvLen := rxRecvLen, stop := rxStop } }

/-- The master configuration is computed (R142). -/
def configureMaster (s : State) : State :=
  { s with
    functionality := { i2cDefault := true, tenBitAddr := true }
    masterCfg := masterConfig s.params s.timing.busFreqHz }

/-- The writes of CONFIGURE_FIFO_MASTER (R144). -/
def fifoMasterWrites (s : State) : List (Reg × Word) :=
  [(.txTl, txThreshold s.params.txFifoDepth), (.rxTl, 0), (.con, s.masterCfg)]

/-- The thresholds and the control register are programmed (R144). -/
def configureFifoMaster (s : State) : State := s.regWrites (fifoMasterWrites s)

/-- The count writes of INIT_MASTER: standard and fast always, high-speed only if both counts are
non-zero, SDA hold only if non-zero (R145 to R148). -/
def countWritesOf (t : Timing) : List (Reg × Word) :=
  [(.ssHcnt, t.ssHcnt), (.ssLcnt, t.ssLcnt), (.fsHcnt, t.fsHcnt), (.fsLcnt, t.fsLcnt)]
    ++ (if t.hsHcnt ≠ 0 ∧ t.hsLcnt ≠ 0 then [(.hsHcnt, t.hsHcnt), (.hsLcnt, t.hsLcnt)] else [])
    ++ (if t.sdaHold ≠ 0 then [(.sdaHold, t.sdaHold)] else [])

/-- Master-mode initialisation (R145); the disable outcome is absorbed (R149). -/
def initMaster (s : State) : State :=
  let d := (disableSeq s).2
  let c := configureFifoMaster (configureMaster (d.regWrites (countWritesOf d.timing)))
  { c with initialized := true }

/-- SET_TIMING (R140). -/
def execSetTiming (sel : TimingSel) (val : BitVec 24) (s : State) : Host.Outcome State Fault Refusal :=
  runCommand (setTiming sel (val.setWidth 32)) (fun _ => .ok) s

/-- SET_MSG_FLAGS (R141). -/
def execSetMsgFlags (txRecvLen txStop rxRecvLen rxStop : Bool) (s : State) : Host.Outcome State Fault Refusal :=
  runCommand (setMsgFlags txRecvLen txStop rxRecvLen rxStop) (fun _ => .ok) s

/-- CONFIGURE_MASTER (R142). -/
def execConfigureMaster (s : State) : Host.Outcome State Fault Refusal :=
  runCommand configureMaster (fun _ => .ok) s

/-- CONFIGURE_FIFO_MASTER (R144). -/
def execConfigureFifoMaster (s : State) : Host.Outcome State Fault Refusal :=
  runCommand configureFifoMaster (fun _ => .ok) s

/-- INIT_MASTER (R145): OK whatever the disable outcome (R149). -/
def execInitMaster (s : State) : Host.Outcome State Fault Refusal :=
  runCommand initMaster (fun _ => .ok) s

end Sys2Proof.Machine
end

