-- ==== Sys2Proof/Machine/DataCommand.lean ====
section
/-! DEFINITION. The words of the transmit command stream (43_fifo_commands.md): what each form asks of
the controller, in the order it asks it. What the controller then does on the wire is its own (R7). -/

namespace Sys2Proof.Machine

/-- DC_WR (R270): transmit the byte. -/
def execDcWr (b : Byte) (s : State) : Host.Outcome State Fault Refusal :=
  .next (s.ask [.transmit b])

/-- DC_WR_STOP (R271): transmit the byte, then a stop. -/
def execDcWrStop (b : Byte) (s : State) : Host.Outcome State Fault Refusal :=
  .next (s.ask [.transmit b, .stop])

/-- DC_WR_RESTART (R272): a restart, then transmit the byte. -/
def execDcWrRestart (b : Byte) (s : State) : Host.Outcome State Fault Refusal :=
  .next (s.ask [.restart, .transmit b])

/-- DC_WR_RESTART_STOP (R273): a restart, transmit the byte, a stop. -/
def execDcWrRestartStop (b : Byte) (s : State) : Host.Outcome State Fault Refusal :=
  .next (s.ask [.restart, .transmit b, .stop])

/-- DC_RD (R274): read one byte. -/
def execDcRd (s : State) : Host.Outcome State Fault Refusal :=
  .next (s.ask [.readByte])

/-- DC_RD_RESTART (R275): a restart, then read one byte. -/
def execDcRdRestart (s : State) : Host.Outcome State Fault Refusal :=
  .next (s.ask [.restart, .readByte])

/-- DC_RD_STOP (R276): read one byte, then a stop. -/
def execDcRdStop (s : State) : Host.Outcome State Fault Refusal :=
  .next (s.ask [.readByte, .stop])

/-- DC_RD_RESTART_STOP (R276): a restart, read one byte, a stop. -/
def execDcRdRestartStop (s : State) : Host.Outcome State Fault Refusal :=
  .next (s.ask [.restart, .readByte, .stop])

end Sys2Proof.Machine
end

