-- ==== Sys2Proof/Machine/Recovery.lean ====
section
/-! DEFINITION. The DISABLE command (41_recovery.md section 5). -/

namespace Sys2Proof.Machine

/-- DISABLE (R180): runs the recovery sequence and returns its outcome. -/
def execDisable (s : State) : Host.Outcome State Fault Refusal :=
  runCommand (fun s => (disableSeq s).2) (fun s => (disableSeq s).1.result) s

end Sys2Proof.Machine
end

