-- ==== Sys2Proof/Machine/Transfer.lean ====
section
/-! DEFINITION. Transfer setup, the write path, the read path and the transaction commands
(42_transfer.md). -/

namespace Sys2Proof.Machine

/-! ## Transfer setup (R210 to R212) -/

/-- The writes of transfer setup between the control register's write and the dummy read (R210, R345). -/
def setupWrites (tar : Word) : List (Reg × Word) :=
  [(.tar, tar), (.intrMask, intrNone), (.enable, enEnable)]

/-- `XferInit(tar)` (R210). -/
def xferInit (tar : Word) (s : State) : State :=
  let d := (disableSeq { s with msgErr := false }).2
  let w := ((d.afterRead .con).regWrite .con (conForTar tar (d.readValue .con))).regWrites (setupWrites tar)
  (readClearIntr (w.afterRead .enableStatus)).after.regWrite .intrMask intrMasterMask

/-! ## Write path (R213 to R217) -/

/-- `WriteMsg` steps 4 and 5 after the pushes: `n` of `len` bytes were pushed (R216, R217). -/
def writeEnd (isLast : Bool) (len n : Nat) (s : State) : Except Fault State :=
  if n < len ∨ s.txFlag.recvLen = true then
    let w := { s with status := { s.status with wip := true } }
    if w.txOutstanding = 0xFFFFFFFF then .error (.counterOverflow w)
    else
      .ok (State.regWrite .intrMask (writeMask w.msgErr isLast)
        { w with txOutstanding := w.txOutstanding + 1, txBufLen := BitVec.ofNat 32 (len - n) })
  else
    .ok (State.regWrite .intrMask (writeMask s.msgErr isLast)
      { s with status := { s.status with wip := false } })

/-- `WriteMsg(buf, is_last)` (R213 to R217). -/
def writeMsg (buf : List Byte) (isLast : Bool) (s : State) : Except Fault State :=
  let lvl := (s.readValue .txflr).toNat
  let t := s.afterRead .txflr
  if s.params.txFifoDepth < lvl then .error (.txLevelAboveDepth t)
  else
    let n := min buf.length (s.params.txFifoDepth - lvl)
    let cmds := writeCmds (needRestart s) isLast s.txFlag.recvLen n buf
    writeEnd isLast buf.length n (t.regWrites (cmds.map (fun w => (.dataCmd, w))))

/-! ## Read path (R220 to R225) -/

/-- How the read path's poll ends (R222). -/
inductive PollEnd
  | full
  | abort (src : Word)
  | timeout
  deriving DecidableEq, Repr

/-- The read path's poll after `k` delays with `left` more possible (R222). As in `abortPoll`, with
`left + k = 11` the last `Expired` answers true (R183). -/
def readPoll : (left k : Nat) → State → PollEnd × State
  | 0, k, s =>
    let i := readClearIntr s
    if IntrBit.txAbrt.isSet i.st = true then (.abort i.src, i.after)
    else if IntrBit.rxFull.isSet i.st = true then (.full, i.after)
    else (.timeout, i.after.afterExpired k)
  | left + 1, k, s =>
    let i := readClearIntr s
    if IntrBit.txAbrt.isSet i.st = true then (.abort i.src, i.after)
    else if IntrBit.rxFull.isSet i.st = true then (.full, i.after)
    else if i.after.isExpired k = true then (.timeout, i.after.afterExpired k)
    else readPoll left (k + 1) ((i.after.afterExpired k).delay Config.pollInterval)

/-- `n` pops of DATA_CMD: the bytes stored, in pop order, with the length-prefix substitution (R224). -/
def popBytes : Nat → State → List Byte × State
  | 0, s => ([], s)
  | n + 1, s =>
    let r := popBytes n (s.afterRead .dataCmd)
    (storedByte s.rxFlag.recvLen (s.readValue .dataCmd) :: r.1, r.2)

/-- The state with the first bytes of read buffer `j` replaced (R86, R224). -/
def State.storeRead (j : Nat) (bytes : List Byte) (s : State) : State :=
  { s with rbufs := s.rbufs.modify j (fun buf => bytes ++ buf.drop bytes.length) }

/-- `ReadMsg` step 6: `n` of `occ` bytes were drained (R225). -/
def readEnd (occ n : Nat) (s : State) : Except Fault State :=
  if n < occ then
    let r := { s with status := { s.status with rip := true }, rxBufLen := BitVec.ofNat 32 (occ - n) }
    match r.params.rxOutstandingUpdate with
    | .unchanged => .ok r
    | .incOnPartial =>
      if r.rxOutstanding = 0xFFFFFFFF then .error (.counterOverflow r)
      else .ok { r with rxOutstanding := r.rxOutstanding + 1 }
  else .ok { s with status := { s.status with rip := false } }

/-- `ReadMsg` steps 4 to 6, after RX_FULL was seen (R223 to R225). -/
def drain (len j : Nat) (s : State) : Except Fault State :=
  let occ := (s.readValue .rxflr).toNat
  let n := min len occ
  let p := popBytes n (s.afterRead .rxflr)
  readEnd occ n (p.2.storeRead j p.1)

/-- What an operation returns: Ok or an error kind, with the state. -/
inductive OpEnd
  | ok (s : State)
  | err (e : XferError) (s : State)
  deriving DecidableEq, Repr

/-- `ReadMsg` for a buffer of `len` bytes, read buffer number `j` (R220 to R225). -/
def readMsg (len j : Nat) (s : State) : Except Fault OpEnd :=
  if s.params.rxFifoDepth ≤ s.rxOutstanding.toNat then .ok (.err .overrun s)
  else
    let p := readPoll Config.pollExhausted 0 (s.regWrite .dataCmd (readCmd s.masterCfg))
    match p.1 with
    | .abort src => .ok (.err (.abort (abortErrorOf s.params src)) { p.2 with msgErr := true })
    | .timeout => .ok (.err .other p.2)
    | .full =>
      match drain len j p.2 with
      | .error f => .error f
      | .ok t => .ok (.ok t)

/-! ## Transaction commands (R227 to R231) -/

/-- `Transfer(tar, ops)` up to its first operation: refused before INIT_MASTER (R227), else setup and the
start of the walk; each operation is a step of its own (R47, R228). -/
def transfer (tar : Word) (ops : List Op) (s : State) : Host.Outcome State Fault Refusal :=
  match s.cmd with
  | .transfer _ _ => .refused .commandInsideTransaction
  | .idle =>
    if s.initialized = true then .next (State.continueWalk ops (State.startWalk tar ops (xferInit tar s)))
    else .refused .notInitialised

/-- TRANSFER7 (R227). -/
def execTransfer7 (a : BitVec 7) (ops : List Op) (s : State) : Host.Outcome State Fault Refusal :=
  transfer (tarOf7 a) ops s

/-- TRANSFER10 (R229). -/
def execTransfer10 (a : BitVec 10) (ops : List Op) (s : State) : Host.Outcome State Fault Refusal :=
  transfer (tarOf10 a) ops s

/-- OP_WRITE (R228, R230): the remaining-write count goes down and the write path runs, as the last write
exactly when the count reaches zero. -/
def execOpWrite (buf : List Byte) (s : State) : Host.Outcome State Fault Refusal :=
  match s.cmd with
  | .idle => .refused .opOutsideTransaction
  | .transfer _ ops =>
    let left := s.writesLeft - 1
    match writeMsg buf (left == 0) { s with writesLeft := left } with
    | .error f => .fault f
    | .ok t => .next (t.opDone ops)

/-- OP_READ (R228, R231). -/
def execOpRead (len : BitVec 16) (s : State) : Host.Outcome State Fault Refusal :=
  match s.cmd with
  | .idle => .refused .opOutsideTransaction
  | .transfer _ ops =>
    match readMsg len.toNat (rbufIndex ops s.opIdx) s with
    | .error f => .fault f
    | .ok (.err e t) => .next (t.raise e)
    | .ok (.ok t) => .next (t.opDone ops)

end Sys2Proof.Machine
end

