-- ==== Sys2Proof/Machine/Dispatch.lean ====
section
/-! DEFINITION. One arm per constructor of Instr: the meaning of each instruction. -/

namespace Sys2Proof.Machine

def exec (i : Instr) (s : State) : Host.Outcome State Fault Refusal :=
  match i with
  | .setTiming sel val => Sys2Proof.Machine.execSetTiming sel val s
  | .setMsgFlags a b c d => Sys2Proof.Machine.execSetMsgFlags a b c d s
  | .configureMaster => Sys2Proof.Machine.execConfigureMaster s
  | .configureFifoMaster => Sys2Proof.Machine.execConfigureFifoMaster s
  | .initMaster => Sys2Proof.Machine.execInitMaster s
  | .disable => Sys2Proof.Machine.execDisable s
  | .transfer7 a ops => Sys2Proof.Machine.execTransfer7 a ops s
  | .transfer10 a ops => Sys2Proof.Machine.execTransfer10 a ops s
  | .opWrite buf => Sys2Proof.Machine.execOpWrite buf s
  | .opRead len => Sys2Proof.Machine.execOpRead len s
  | .dcWr b => Sys2Proof.Machine.execDcWr b s
  | .dcWrStop b => Sys2Proof.Machine.execDcWrStop b s
  | .dcWrRestart b => Sys2Proof.Machine.execDcWrRestart b s
  | .dcWrRestartStop b => Sys2Proof.Machine.execDcWrRestartStop b s
  | .dcRd => Sys2Proof.Machine.execDcRd s
  | .dcRdRestart => Sys2Proof.Machine.execDcRdRestart s
  | .dcRdStop => Sys2Proof.Machine.execDcRdStop s
  | .dcRdRestartStop => Sys2Proof.Machine.execDcRdRestartStop s

end Sys2Proof.Machine
end

