-- ==== Sys2Proof/Machine/Fetch.lean ====
section
/-! DEFINITION. What the machine does next: the transmit command stream is taken up word by word, then the
transaction in progress goes on, then the next host command is taken (10_state.md R47, 60_exceptions.md
R318, log entries 1, 2 and 9). -/

namespace Sys2Proof.Machine

/-- What a step finds to do. -/
inductive Fetched
  /-- An instruction, and the state it runs in: its words are taken. -/
  | run (i : Instr) (s : State)
  /-- Words that are no instruction (R119). -/
  | reject (why : Reject)
  /-- No instruction: the state given is the next one. -/
  | goOn (s : State)
  deriving DecidableEq, Repr

/-- The next word of the transmit command stream, else the operation at `op_idx` of the transaction in
progress, else the next host command. With nothing issued the sequencer waits, unchanged (R343). -/
def fetch (s : State) : Fetched :=
  match s.dataCmds with
  | w :: ws =>
    match decodeDataCmd w with
    | .ok i => .run i { s with dataCmds := ws }
    | .error r => .reject r
  | [] =>
    match s.cmd with
    | .transfer _ ops =>
      match ops[s.opIdx]? with
      | some op => .run op.toInstr s
      | none => .goOn (s.endCommand .ok)
    | .idle =>
      match s.port with
      | [] => .goOn s
      | w :: ws =>
        match decode (w :: ws) with
        | .ok (i, rest) => .run i { s with port := rest }
        | .error r => .reject r

/-- The state with the words of one instruction placed where the next step fetches: a data-command word at
the head of the transmit command stream, an operation as the one operation of a transaction in
progress, everything else on the command port of an idle machine (log entry 1). -/
def placeWords (ws : List Word) (s : State) : State :=
  match ws with
  | [] => s
  | w :: _ =>
    match (opc w).toNat with
    | 0 => { s with dataCmds := [w] }
    | 9 =>
      match decodeOp ws with
      | .ok (op, _) => { State.startWalk 0 [op] s with dataCmds := [] }
      | .error _ => { s with dataCmds := [], cmd := .idle, port := ws }
    | 10 =>
      match decodeOp ws with
      | .ok (op, _) => { State.startWalk 0 [op] s with dataCmds := [] }
      | .error _ => { s with dataCmds := [], cmd := .idle, port := ws }
    | _ => { s with dataCmds := [], cmd := .idle, port := ws }

end Sys2Proof.Machine
end

