-- ==== Sys2Proof/Safety.lean ====
section
/-! DEFINITION. The terms claims are stated in: what port activity a piece of a run shows, the shapes the
spec gives to it, which events are lawful, and the invariants of the machine. -/

namespace Sys2Proof.Machine

/-! ## Port activity -/

/-- The words a list of events pushes to DATA_CMD (R85). -/
def pushed : List PortEvent → List Word
  | [] => []
  | .regWrite .dataCmd v :: es => v :: pushed es
  | _ :: es => pushed es

/-- From `s` to `t` only the port was active: the events `evs` were added to the trace and their pushes to
the transmit command stream; inputs were used up; no other field changed. -/
def PortRun (s : State) (evs : List PortEvent) (t : State) : Prop :=
  t = { s with
        trace := s.trace ++ evs
        dataCmds := s.dataCmds ++ pushed evs
        readAnswers := t.readAnswers
        expiredAnswers := t.expiredAnswers
        draws := t.draws }

/-- The events of a list of register writes. -/
def writeEvents (ws : List (Reg × Word)) : List PortEvent := ws.map (fun w => .regWrite w.1 w.2)

/-- How many events of a list satisfy a test. -/
def countEvents (p : PortEvent → Bool) (evs : List PortEvent) : Nat := (evs.filter p).length

/-- A read of the register. -/
def isReadOf (r : Reg) : PortEvent → Bool
  | .regRead r' _ => r' == r
  | .regWrite _ _ => false
  | .ack _ => false
  | .delay _ => false
  | .expired _ _ => false

/-- A write of the register. -/
def isWriteOf (r : Reg) : PortEvent → Bool
  | .regRead _ _ => false
  | .regWrite r' _ => r' == r
  | .ack _ => false
  | .delay _ => false
  | .expired _ _ => false

/-- An abort request: a write of ENABLE with EN_ABORT set (R113). -/
def isAbortRequest : PortEvent → Bool
  | .regRead _ _ => false
  | .regWrite r v => (r == .enable) && abortBit v
  | .ack _ => false
  | .delay _ => false
  | .expired _ _ => false

/-- A delay. -/
def isDelay : PortEvent → Bool
  | .regRead _ _ => false
  | .regWrite _ _ => false
  | .ack _ => false
  | .delay _ => true
  | .expired _ _ => false

/-! ## Shapes of port activity (41_recovery.md, 42_transfer.md R222) -/

/-- The acknowledges of the asserted bits of `st` among `bs`, the abort source `src` read right before its
acknowledge (R170). -/
def ackEvents (st src : Word) (bs : List IntrBit) : List PortEvent :=
  (bs.filter (fun b => b.isSet st)).flatMap
    (fun b => if b = .txAbrt then [.regRead .txAbrtSource src, .ack b] else [.ack b])

/-- The events of `ReadClearIntr()` that answers the status `st` and the abort source `src` (R170). -/
def clearEvents (st src : Word) : List PortEvent := .regRead .intrStat st :: ackEvents st src intrBits

/-- A value a read of `r` can have: no bit outside the valid mask (R20, R82). -/
def Masked (p : Params) (r : Reg) (v : Word) : Prop := v &&& r.valid p = v

/-- The events of the abort poll after `k` delays, and whether it saw the abort bit clear (R171, R173, R183). -/
inductive AbortPollShape (p : Params) : Nat → List PortEvent → Bool → Prop
  | done (k : Nat) (v : Word) (m : Masked p .enable v) (h : abortBit v = false) :
      AbortPollShape p k [.regRead .enable v] true
  | timeout (k : Nat) (v : Word) (m : Masked p .enable v) (h : abortBit v = true) :
      AbortPollShape p k [.regRead .enable v, .expired k true] false
  | again (k : Nat) (v : Word) (evs : List PortEvent) (r : Bool) (m : Masked p .enable v) (h : abortBit v = true)
      (hk : k ≤ 10) (rest : AbortPollShape p (k + 1) evs r) :
      AbortPollShape p k (.regRead .enable v :: .expired k false :: .delay 10 :: evs) r

/-- The events of the disable loop with `n` attempts left, and its outcome (R175, R176). -/
inductive DisableLoopShape (p : Params) : Nat → List PortEvent → DisableOutcome → Prop
  | done (n : Nat) (es : Word) (m : Masked p .enableStatus es) (h : activityBit es = false) :
      DisableLoopShape p (n + 1) [.regWrite .enable 0, .regRead .enableStatus es] .disabled
  | last (es : Word) (m : Masked p .enableStatus es) (h : activityBit es = true) :
      DisableLoopShape p 1 [.regWrite .enable 0, .regRead .enableStatus es] .disableTimeout
  | again (n : Nat) (es : Word) (evs : List PortEvent) (o : DisableOutcome) (m : Masked p .enableStatus es)
      (h : activityBit es = true) (rest : DisableLoopShape p (n + 1) evs o) :
      DisableLoopShape p (n + 2) (.regWrite .enable 0 :: .regRead .enableStatus es :: .delay 25 :: evs) o

/-- The events of a disable sequence and its outcome: the state machine of R177. -/
inductive DisableShape (p : Params) : List PortEvent → DisableOutcome → Prop
  /-- Enabled to Disabling: no hold, or an abort already requested (R172, R182). -/
  | direct (raw en : Word) (evs : List PortEvent) (o : DisableOutcome)
      (mr : Masked p .rawIntrStat raw) (me : Masked p .enable en)
      (h : ¬ (IntrBit.mstOnHold.isSet raw = true ∧ abortBit en = false)) (loop : DisableLoopShape p 100 evs o) :
      DisableShape p (.regRead .rawIntrStat raw :: .regRead .enable en :: evs) o
  /-- Enabled to AbortRequested to Disabling (R173). -/
  | aborted (raw en : Word) (poll evs : List PortEvent) (o : DisableOutcome)
      (mr : Masked p .rawIntrStat raw) (me : Masked p .enable en)
      (h : IntrBit.mstOnHold.isSet raw = true ∧ abortBit en = false)
      (seen : AbortPollShape p 0 poll true) (loop : DisableLoopShape p 100 evs o) :
      DisableShape p
        (.regRead .rawIntrStat raw :: .regRead .enable en :: .regWrite .enable (en ||| enAbort) :: (poll ++ evs)) o
  /-- Enabled to AbortRequested to AbortFailed (R174). -/
  | abortFailed (raw en : Word) (poll : List PortEvent)
      (mr : Masked p .rawIntrStat raw) (me : Masked p .enable en)
      (h : IntrBit.mstOnHold.isSet raw = true ∧ abortBit en = false)
      (expired : AbortPollShape p 0 poll false) :
      DisableShape p
        (.regRead .rawIntrStat raw :: .regRead .enable en :: .regWrite .enable (en ||| enAbort) :: poll) .abortTimeout

/-- The events of the read path's poll after `k` delays, and how it ends (R222, R304). -/
inductive ReadPollShape (p : Params) : Nat → List PortEvent → PollEnd → Prop
  | abort (k : Nat) (st src : Word) (m : Masked p .intrStat st) (ms : Masked p .txAbrtSource src)
      (h : IntrBit.txAbrt.isSet st = true) :
      ReadPollShape p k (clearEvents st src) (.abort src)
  | full (k : Nat) (st : Word) (m : Masked p .intrStat st) (h : IntrBit.txAbrt.isSet st = false)
      (hf : IntrBit.rxFull.isSet st = true) :
      ReadPollShape p k (clearEvents st 0) .full
  | timeout (k : Nat) (st : Word) (m : Masked p .intrStat st) (h : IntrBit.txAbrt.isSet st = false)
      (hf : IntrBit.rxFull.isSet st = false) :
      ReadPollShape p k (clearEvents st 0 ++ [.expired k true]) .timeout
  | again (k : Nat) (st : Word) (evs : List PortEvent) (e : PollEnd) (m : Masked p .intrStat st)
      (h : IntrBit.txAbrt.isSet st = false) (hf : IntrBit.rxFull.isSet st = false) (hk : k ≤ 10)
      (rest : ReadPollShape p (k + 1) evs e) :
      ReadPollShape p k (clearEvents st 0 ++ (.expired k false :: .delay 10 :: evs)) e

/-- Disable step 1 from `s` requests an abort, and the poll for its end exhausts its budget (R172 to R174). -/
def AbortPollTimesOut (s : State) : Prop :=
  let t := s.afterRead .rawIntrStat
  let en := t.readValue .enable
  (s.readValue .rawIntrStat).getLsbD 13 = true ∧ en.getLsbD 1 = false ∧
    (abortPoll 11 0 ((t.afterRead .enable).regWrite .enable (en ||| 0x2))).1 = false

/-- The events of abort-poll rounds that find the abort bit set and the budget left; `held` are the raw
answers (R171). -/
def heldRounds (held : List Word) : List PortEvent :=
  held.zipIdx.flatMap (fun h => [.regRead .enable (h.1 &&& 0x3), .expired h.2 false, .delay 10])

/-- The events of read-poll rounds that find neither TX_ABRT nor RX_FULL and the budget left; `idle` are the
raw statuses (R222). -/
def idleRounds (idle : List Word) : List PortEvent :=
  idle.zipIdx.flatMap (fun h => clearEvents (h.1 &&& 0x3FFF) 0 ++ [.expired h.2 false, .delay 10])

/-! ## Lawful port activity -/

/-- The forms of the command stream that the sequencer emits: every form but the two reads with a stop
(R270 to R276). -/
def Instr.emitted : Instr → Bool
  | .setTiming _ _ => false
  | .setMsgFlags _ _ _ _ => false
  | .configureMaster => false
  | .configureFifoMaster => false
  | .initMaster => false
  | .disable => false
  | .transfer7 _ _ => false
  | .transfer10 _ _ => false
  | .opWrite _ => false
  | .opRead _ => false
  | .dcWr _ => true
  | .dcWrStop _ => true
  | .dcWrRestart _ => true
  | .dcWrRestartStop _ => true
  | .dcRd => true
  | .dcRdRestart => true
  | .dcRdStop => false
  | .dcRdRestartStop => false

/-- A word the sequencer may push (R276, R277). -/
def lawfulPush (w : Word) : Bool :=
  match decodeDataCmd w with
  | .ok i => Instr.emitted i
  | .error _ => false

/-- The registers the sequencer reads (R81). -/
def Reg.readable : Reg → Bool
  | .con | .rawIntrStat | .intrStat | .enable | .enableStatus | .txflr | .rxflr | .dataCmd | .txAbrtSource => true
  | .tar | .sar | .txTl | .rxTl | .ssHcnt | .ssLcnt | .fsHcnt | .fsLcnt | .hsHcnt | .hsLcnt | .sdaHold | .intrMask
  | .clr _ | .clrIntr => false

/-- The registers the sequencer writes (R81). -/
def Reg.writable : Reg → Bool
  | .con | .tar | .txTl | .rxTl | .ssHcnt | .ssLcnt | .fsHcnt | .fsLcnt | .hsHcnt | .hsLcnt | .sdaHold | .intrMask
  | .enable | .dataCmd => true
  | .sar | .rawIntrStat | .intrStat | .enableStatus | .txflr | .rxflr | .txAbrtSource | .clr _ | .clrIntr => false

/-- An event the spec allows the sequencer: it reads only what R81 says it reads, a read's value is
masked; it writes only what R81 says it writes, with no bit outside the valid mask (R83, R120), and to
DATA_CMD only the forms it emits; delays are 10 or 25 microseconds (R316); `Expired(k)` has k at most 11
and is true at 11 (R183). -/
def lawfulEvent (p : Params) : PortEvent → Bool
  | .regRead r v => r.readable && (v &&& r.valid p == v)
  | .regWrite r v => r.writable && (v &&& r.valid p == v) && (r != .dataCmd || lawfulPush v)
  | .ack _ => true
  | .delay us => us == 10 || us == 25
  | .expired k e => decide (k ≤ 11) && (decide (k < 11) || e)

/-! ## Invariants -/

/-- The bookkeeping of the instance: ACTIVE stays 0 (R32), the mode stays Master (R45), the depths are at
least 1 (R8), and the master configuration is either not computed yet or one of CONFIGURE_MASTER's three
values; it is computed once the instance is initialised, so RESTART_EN is set in every transaction (R219). -/
def BookInv (s : State) : Prop :=
  s.status.active = false ∧ s.mode = .master ∧ 1 ≤ s.params.txFifoDepth ∧ 1 ≤ s.params.rxFifoDepth ∧
  (s.masterCfg = 0 ∨ s.masterCfg = 0x63 ∨ s.masterCfg = 0x65 ∨ s.masterCfg = 0x67) ∧
  (s.initialized = true → s.masterCfg ≠ 0 ∧ s.functionality = { i2cDefault := true, tenBitAddr := true })

/-- The walk: in a transaction no message error is recorded (R219), the position is inside the operation
list, `writes_left` counts the writes not yet started (R47), the operations have an encoding (R108), and
each read operation has its buffer of LEN bytes (R86). -/
def WalkInv (s : State) : Prop :=
  match s.cmd with
  | .idle => True
  | .transfer _ ops =>
    s.initialized = true ∧ s.msgErr = false ∧ s.opIdx < ops.length ∧ s.writesLeft = countWrites (ops.drop s.opIdx) ∧
    opsWf ops = true ∧ s.rbufs.length = countReads ops ∧
    ∀ i len, ops[i]? = some (.read len) →
      ∃ buf, s.rbufs[rbufIndex ops i]? = some buf ∧ buf.length = len.toNat

/-- The port: every event of the run is lawful, the words not yet taken up are forms the sequencer emits,
every result word is one of the codes 0 to 9 (R118), and the control-register image lies in its mask. -/
def PortInv (s : State) : Prop :=
  (∀ e ∈ s.trace, lawfulEvent s.params e = true) ∧ (∀ w ∈ s.dataCmds, lawfulPush w = true) ∧
  (∀ r ∈ s.results, r.toNat ≤ 9) ∧ s.masterCfg &&& 0x7F = s.masterCfg

/-! ## Terms of single claims -/

/-- What admitting a transaction leaves (R227 to R229): setup ran for the target value, the walk stands at
its start or, with no operation, has ended with OK, and each read operation has its buffer of LEN bytes,
which holds the bytes the host supplied (R86, R117). -/
def Admitted (tar : Word) (ops : List Op) (s t : State) : Prop :=
  t = { xferInit tar s with
        cmd := if ops = [] then .idle else .transfer tar ops
        results := if ops = [] then s.results ++ [0] else s.results
        opIdx := 0
        writesLeft := countWrites ops
        rbufs := t.rbufs
        rbufSupply := s.rbufSupply.drop (countReads ops)
        draws := t.draws } ∧
  t.rbufs.length = countReads ops ∧
  ∀ i len, ops[i]? = some (.read len) →
    ∃ buf, t.rbufs[rbufIndex ops i]? = some buf ∧ buf.length = len.toNat ∧
      ∀ n b, n < len.toNat → (s.rbufSupply.getD (rbufIndex ops i) [])[n]? = some b → buf[n]? = some b

/-- The bytes an OP_WRITE pushes: as many as fit the headroom (R214). -/
def sendable (buf : List Byte) (s : State) : Nat :=
  min buf.length (s.params.txFifoDepth - (s.readValue .txflr).toNat)

/-- The words an OP_WRITE pushes (R213 to R215). -/
def sentWords (buf : List Byte) (s : State) : List Word :=
  writeCmds (!s.status.wip && s.masterCfg.getLsbD 5) (decide (s.writesLeft - 1 = 0)) s.txFlag.recvLen
    (sendable buf s) buf

/-- Whether an OP_WRITE leaves a write in progress (R216). -/
def leavesWip (buf : List Byte) (s : State) : Prop := sendable buf s < buf.length ∨ s.txFlag.recvLen = true

/-- The read command an OP_READ pushes (R221). -/
def readWord (s : State) : Word := if s.masterCfg.getLsbD 5 = true then 0x500 else 0x100

/-- The read path's poll of an OP_READ, after its read command (R222). -/
def pollOf (s : State) : PollEnd × State := readPoll 11 0 (s.regWrite .dataCmd (readWord s))

/-- The receive FIFO occupancy an OP_READ finds after its poll (R223). -/
def occupancy (s : State) : Nat := ((pollOf s).2.readValue .rxflr).toNat

/-- The step position after an operation that returned Ok (R47, R228). -/
def cmdAfter (ops : List Op) (s : State) : Cmd := if s.opIdx + 1 < ops.length then s.cmd else .idle

/-- The results after an operation that returned Ok: the last operation ends the command with OK (R228). -/
def resultsAfter (ops : List Op) (s : State) : List Word :=
  if s.opIdx + 1 < ops.length then s.results else s.results ++ [0]

/-- The state with every field that no rule reads taken from another state: ACTIVE, READ_IN_PROGRESS,
both buffer lengths, both STOP flags, functionality, mode, last_disable, tx_flag and rx_flag's STOP, and
what the ports have shown so far (R32, R34, R39 to R41, R43, R45, R49). -/
def State.blindTo (u s : State) : State :=
  { s with
    status := { s.status with active := u.status.active, rip := u.status.rip }
    txBufLen := u.txBufLen
    rxBufLen := u.rxBufLen
    txFlag := { s.txFlag with stop := u.txFlag.stop }
    rxFlag := { s.rxFlag with stop := u.rxFlag.stop }
    functionality := u.functionality
    mode := u.mode
    lastDisable := u.lastDisable
    results := u.results
    trace := u.trace
    asked := u.asked }

/-- A field behaves alike in two runs, from `s` to `t` and from `s'` to `t'`: both keep it, or both leave the
same value in it. -/
def Alike {α : Type} (f : State → α) (s t s' t' : State) : Prop := (f t = f s ∧ f t' = f s') ∨ f t = f t'

/-- The observation of two runs is the same (R80): they append the same port events, result words and
requests to the controller. -/
def SameOutputs (s t s' t' : State) : Prop :=
  ∃ (es : List PortEvent) (rs : List Word) (qs : List BusRequest),
    (t.trace = s.trace ++ es ∧ t.results = s.results ++ rs ∧ t.asked = s.asked ++ qs) ∧
    (t'.trace = s'.trace ++ es ∧ t'.results = s'.results ++ rs ∧ t'.asked = s'.asked ++ qs)

/-- Two runs are alike but for the fields that no rule reads: every other field ends the same, the outputs
are the same, and each of those fields is kept by both or written alike. -/
def RunsAlike (s t s' t' : State) : Prop :=
  t' = State.blindTo t' t ∧ SameOutputs s t s' t' ∧
  Alike (fun x => x.status.active) s t s' t' ∧ Alike (fun x => x.status.rip) s t s' t' ∧
  Alike State.txBufLen s t s' t' ∧ Alike State.rxBufLen s t s' t' ∧
  Alike (fun x => x.txFlag.stop) s t s' t' ∧ Alike (fun x => x.rxFlag.stop) s t s' t' ∧
  Alike State.functionality s t s' t' ∧ Alike State.mode s t s' t' ∧ Alike State.lastDisable s t s' t'

/-- Two outcomes, from `s` and from `s'`, are alike: the same kind of outcome, with runs alike up to it. -/
def OutcomesAlike (s s' : State) : Host.Outcome State Fault Refusal → Host.Outcome State Fault Refusal → Prop
  | .next t, .next t' => RunsAlike s t s' t'
  | .fault (.txLevelAboveDepth v), .fault (.txLevelAboveDepth v') => RunsAlike s v s' v'
  | .fault (.counterOverflow v), .fault (.counterOverflow v') => RunsAlike s v s' v'
  | .refused r, .refused r' => r = r'
  | _, _ => False

end Sys2Proof.Machine
end

