-- ==== Sys2Proof/Certificates/Slice0/Obligations.lean ====
section
/-! DEFINITION. The statements about the model, each from the spec's numbered rules. -/

open Sys2Proof Sys2Proof.Machine

/-! ## Reset and registers -/

/-- Reset (R53): every field of S at the value R53 gives it; the step position Idle. -/
def Obligations.ResetValues : Prop :=
  State.reset.status.bits = 0 ∧ State.reset.txOutstanding = 0 ∧ State.reset.rxOutstanding = 0 ∧
  State.reset.txBufLen = 0 ∧ State.reset.rxBufLen = 0 ∧ State.reset.txFlag.bits = 0 ∧ State.reset.rxFlag.bits = 0 ∧
  State.reset.masterCfg = 0 ∧ State.reset.functionality.bits = 0 ∧ (∀ f, State.reset.timing.get f = 0) ∧
  State.reset.mode = .master ∧ State.reset.msgErr = false ∧ State.reset.initialized = false ∧
  lastDisableCode State.reset.lastDisable = 15 ∧ State.reset.cmd = .idle ∧ State.reset.opIdx = 0 ∧
  State.reset.writesLeft = 0

/-- A register read (R20): the value used is the raw value masked with the register's valid mask, the event
records it, and one raw value is used up. Where the raw value comes from is the model's choice (log entry 3):
the controller's next answer where the input list has one, else a fresh free value. -/
def Obligations.ReadIsTheMaskedAnswer : Prop :=
  (∀ (r : Reg) (v : Word) (vs : List Word) (s : State), s.readAnswers = v :: vs →
    s.readValue r = v &&& r.valid s.params ∧
    s.afterRead r = { s with trace := s.trace ++ [.regRead r (v &&& r.valid s.params)], readAnswers := vs }) ∧
  (∀ (r : Reg) (s : State), s.readAnswers = [] →
    s.readValue r = Config.freeRead s.draws &&& r.valid s.params ∧
    s.afterRead r =
      { s with
        trace := s.trace ++ [.regRead r (Config.freeRead s.draws &&& r.valid s.params)]
        draws := s.draws + 1 })

/-- Valid masks (R101): an all-ones raw value gives exactly the register's VALID mask; for the parameters an
instance is created with, ENABLE_STATUS gives 0x6D and TX_ABRT_SOURCE 0xFFFF. -/
def Obligations.AllOnesGivesTheValidMask : Prop :=
  ∀ s : State, s.readAnswers.head? = some 0xFFFFFFFF →
    s.readValue .con = 0x7F ∧ s.readValue .tar = 0x13FF ∧ s.readValue .enable = 0x3 ∧
    s.readValue .rawIntrStat = 0x3FFF ∧ s.readValue .intrStat = 0x3FFF ∧ s.readValue .intrMask = 0x3FFF ∧
    s.readValue .dataCmd = 0xFFF ∧ s.readValue .txflr = 0xFFFFFFFF ∧ s.readValue .rxflr = 0xFFFFFFFF ∧
    s.readValue .txTl = 0xFFFFFFFF ∧ s.readValue .rxTl = 0xFFFFFFFF ∧ s.readValue .sdaHold = 0xFFFFFFFF ∧
    s.readValue .sar = 0xFFFFFFFF ∧ s.readValue .ssHcnt = 0xFFFFFFFF ∧ s.readValue .ssLcnt = 0xFFFFFFFF ∧
    s.readValue .fsHcnt = 0xFFFFFFFF ∧ s.readValue .fsLcnt = 0xFFFFFFFF ∧ s.readValue .hsHcnt = 0xFFFFFFFF ∧
    s.readValue .hsLcnt = 0xFFFFFFFF ∧ s.readValue .txAbrtSource = s.params.abrtSourceMask ∧
    s.readValue .enableStatus = enableStatusMask s.params.enableStatusLayout ∧
    (s.params = Config.params → s.readValue .enableStatus = 0x6D ∧ s.readValue .txAbrtSource = 0xFFFF)

/-! ## Configuration commands -/

/-- SET_TIMING (R140): one timing field is VAL, the others are kept; no port event; result OK; nothing else
changes. -/
def Obligations.SetTimingStoresOneField : Prop :=
  ∀ (sel : TimingSel) (val : BitVec 24) (s : State), s.cmd = .idle →
    ∃ t, exec (.setTiming sel val) s = .next t ∧
      (∀ f, t.timing.get f = if f = sel then val.setWidth 32 else s.timing.get f) ∧
      t = { s with timing := t.timing, results := s.results ++ [0] }

/-- SET_MSG_FLAGS (R141): the four flags; no port event; result OK; nothing else changes. -/
def Obligations.SetMsgFlagsStoresTheFlags : Prop :=
  ∀ (f0 f1 f2 f3 : Bool) (s : State), s.cmd = .idle →
    exec (.setMsgFlags f0 f1 f2 f3) s =
      .next { s with
              txFlag := { recvLen := f0, stop := f1 }
              rxFlag := { recvLen := f2, stop := f3 }
              results := s.results ++ [0] }

/-- CONFIGURE_MASTER (R142, R143): functionality 0b11 and the control-register image with the speed class of
the configured frequency, matched by equality; no port event; result OK; nothing else changes. -/
def Obligations.ConfigureMasterComputesTheImage : Prop :=
  ∀ s : State, s.cmd = .idle →
    ∃ t, exec .configureMaster s = .next t ∧ t.functionality.bits = 0b11 ∧
      t.masterCfg = 0x01 ||| 0x40 ||| 0x20 |||
        (if s.timing.busFreqHz = s.params.stdFreqHz then 0x02
         else if s.timing.busFreqHz = s.params.highFreqHz then 0x06 else 0x04) ∧
      t = { s with functionality := t.functionality, masterCfg := t.masterCfg, results := s.results ++ [0] }

/-- CONFIGURE_FIFO_MASTER (R144): exactly three writes, the transmit threshold being half the depth rounded
down; result OK; no state written. Where half the depth does not fit 32 bits the value written is the
model's free value (log entry 12). -/
def Obligations.ConfigureFifoMasterWritesThree : Prop :=
  ∀ s : State, s.cmd = .idle →
    ∃ (t : State) (th : Word), exec .configureFifoMaster s = .next t ∧
      (s.params.txFifoDepth / 2 < 2 ^ 32 → th.toNat = s.params.txFifoDepth / 2) ∧
      t = { s with
            trace := s.trace ++ [.regWrite .txTl th, .regWrite .rxTl 0, .regWrite .con s.masterCfg]
            results := s.results ++ [0] }

/-- INIT_MASTER (R145 to R149): the disable sequence, whatever its outcome; the counts (high-speed only if
both are non-zero, SDA hold only if non-zero); the configuration; `initialized`; result OK; nothing else
changes. -/
def Obligations.InitMasterProgramsTheController : Prop :=
  ∀ s : State, s.cmd = .idle →
    ∃ (t : State) (th : Word) (dis : List PortEvent) (o : DisableOutcome),
      exec .initMaster s = .next t ∧ DisableShape s.params dis o ∧
      (s.params.txFifoDepth / 2 < 2 ^ 32 → th.toNat = s.params.txFifoDepth / 2) ∧
      t.functionality.bits = 0b11 ∧
      t.masterCfg = 0x01 ||| 0x40 ||| 0x20 |||
        (if s.timing.busFreqHz = s.params.stdFreqHz then 0x02
         else if s.timing.busFreqHz = s.params.highFreqHz then 0x06 else 0x04) ∧
      t = { s with
            trace := s.trace ++ dis ++
              [.regWrite .ssHcnt s.timing.ssHcnt, .regWrite .ssLcnt s.timing.ssLcnt,
               .regWrite .fsHcnt s.timing.fsHcnt, .regWrite .fsLcnt s.timing.fsLcnt] ++
              (if s.timing.hsHcnt ≠ 0 ∧ s.timing.hsLcnt ≠ 0 then
                [.regWrite .hsHcnt s.timing.hsHcnt, .regWrite .hsLcnt s.timing.hsLcnt] else []) ++
              (if s.timing.sdaHold ≠ 0 then [.regWrite .sdaHold s.timing.sdaHold] else []) ++
              [.regWrite .txTl th, .regWrite .rxTl 0, .regWrite .con t.masterCfg]
            lastDisable := some o
            functionality := t.functionality
            masterCfg := t.masterCfg
            initialized := true
            results := s.results ++ [0]
            readAnswers := t.readAnswers
            expiredAnswers := t.expiredAnswers
            draws := t.draws }

/-! ## Recovery -/

/-- DISABLE (R177, R178, R180): the events follow the recovery state machine, the outcome is recorded in
`last_disable` and returned as 0, 8 or 9, and nothing else changes. -/
def Obligations.DisableFollowsTheStateMachine : Prop :=
  ∀ s : State, s.cmd = .idle →
    ∃ (t : State) (dis : List PortEvent) (o : DisableOutcome),
      exec .disable s = .next t ∧ DisableShape s.params dis o ∧
      t = { s with
            trace := s.trace ++ dis
            lastDisable := some o
            results := s.results ++
              [match o with | .disabled => 0 | .abortTimeout => 8 | .disableTimeout => 9]
            readAnswers := t.readAnswers
            expiredAnswers := t.expiredAnswers
            draws := t.draws }

/-- The events of the disable-loop attempts whose ENABLE_STATUS answers are `busy`, each followed by the
retry sleep (R175). -/
def Sys2Proof.Machine.busyAttempts (p : Params) (busy : List Word) : List PortEvent :=
  busy.flatMap (fun b => [.regWrite .enable 0, .regRead .enableStatus (b &&& enableStatusMask p.enableStatusLayout), .delay 25])

/-- Disable step 2 (R175): with no hold, the loop goes on while the controller answers active, sleeps 25
microseconds between attempts, and ends at the first attempt, at most the hundredth, answered inactive: result OK. -/
def Obligations.DisableEndsAtTheFirstInactiveAnswer : Prop :=
  ∀ (s : State) (raw en es : Word) (busy rest : List Word), s.cmd = .idle →
    s.readAnswers = raw :: en :: (busy ++ es :: rest) → raw.getLsbD 13 = false → busy.length < 100 →
    (∀ b ∈ busy, b.getLsbD 0 = true) → es.getLsbD 0 = false →
    exec .disable s =
      .next { s with
              trace := s.trace ++
                [.regRead .rawIntrStat (raw &&& 0x3FFF), .regRead .enable (en &&& 0x3)] ++
                busyAttempts s.params busy ++
                [.regWrite .enable 0, .regRead .enableStatus (es &&& enableStatusMask s.params.enableStatusLayout)]
              lastDisable := some .disabled
              results := s.results ++ [0]
              readAnswers := rest }

/-- Disable step 2 (R175, R176): with no hold and 100 active answers the sequence gives up after 100
attempts and 99 sleeps, writes nothing more, and the result is DISABLE_TIMEOUT. -/
def Obligations.DisableGivesUpAfterHundredAttempts : Prop :=
  ∀ (s : State) (raw en es : Word) (busy rest : List Word), s.cmd = .idle →
    s.readAnswers = raw :: en :: (busy ++ es :: rest) → raw.getLsbD 13 = false → busy.length = 99 →
    (∀ b ∈ busy, b.getLsbD 0 = true) → es.getLsbD 0 = true →
    exec .disable s =
      .next { s with
              trace := s.trace ++
                [.regRead .rawIntrStat (raw &&& 0x3FFF), .regRead .enable (en &&& 0x3)] ++
                busyAttempts s.params busy ++
                [.regWrite .enable 0, .regRead .enableStatus (es &&& enableStatusMask s.params.enableStatusLayout)]
              lastDisable := some .disableTimeout
              results := s.results ++ [9]
              readAnswers := rest }

/-- The abort poll (R171, R173): while the abort bit reads set and the budget is not expired it waits 10
microseconds and reads again. It ends, done, at the first read with the bit clear, at most the twelfth; and it
times out where the bit reads set and the budget is expired, which it is after the eleventh delay (R183). -/
def Obligations.AbortPollEndsAtTheFirstClearRead : Prop :=
  ∀ (s : State) (v : Word) (held rest : List Word) (later : List Bool), held.length ≤ 11 →
    s.readAnswers = held ++ v :: rest → (∀ h ∈ held, h.getLsbD 1 = true) →
    s.expiredAnswers = List.replicate held.length false ++ later →
    (v.getLsbD 1 = false →
      abortPoll 11 0 s =
        (true, { s with
                 trace := s.trace ++ heldRounds held ++ [.regRead .enable (v &&& 0x3)]
                 readAnswers := rest
                 expiredAnswers := later })) ∧
    (v.getLsbD 1 = true → ∀ later', later = (if held.length = 11 then later' else true :: later') →
      abortPoll 11 0 s =
        (false, { s with
                  trace := s.trace ++ heldRounds held ++ [.regRead .enable (v &&& 0x3), .expired held.length true]
                  readAnswers := rest
                  expiredAnswers := later' }))

/-- R179: a disable sequence reads RAW_INTR_STAT once and requests at most one abort, whatever the
controller answers. -/
def Obligations.AtMostOneAbortRequest : Prop :=
  ∀ s : State, ∃ evs, (disableSeq s).2.trace = s.trace ++ evs ∧
    countEvents (isReadOf .rawIntrStat) evs = 1 ∧ countEvents isAbortRequest evs ≤ 1

/-- R174: where the hold is raw-asserted, no abort is requested yet, and the abort poll exhausts its budget,
and only there, the outcome is ABORT_TIMEOUT. It is recorded; the abort request is the only write of ENABLE and
the expiry the last event: step 2 is not run and the adapter is left as it was. -/
def Obligations.AbortTimeoutAbandonsTheSequence : Prop :=
  ∀ s : State, ((disableSeq s).1 = .abortTimeout ↔ AbortPollTimesOut s) ∧
    (AbortPollTimesOut s →
      ∃ evs k, (disableSeq s).2.trace = s.trace ++ evs ++ [.expired k true] ∧ countEvents isAbortRequest evs = 1 ∧
        countEvents (isWriteOf .enable) evs = 1 ∧ (disableSeq s).2.lastDisable = some .abortTimeout)

/-- R183: every poll ends, with 1 to 12 reads and at most 11 delays: the abort poll and the read path's. -/
def Obligations.EveryPollIsBounded : Prop :=
  ∀ s : State,
    (∃ evs, PortRun s evs (abortPoll 11 0 s).2 ∧
      1 ≤ countEvents (isReadOf .enable) evs ∧ countEvents (isReadOf .enable) evs ≤ 12 ∧
      countEvents isDelay evs ≤ 11) ∧
    (∃ evs, PortRun s evs (readPoll 11 0 s).2 ∧
      1 ≤ countEvents (isReadOf .intrStat) evs ∧ countEvents (isReadOf .intrStat) evs ≤ 12 ∧
      countEvents isDelay evs ≤ 11)

/-- R170: the helper reads the masked status once, then for each asserted bit in ascending order
acknowledges it, reading the abort source right before `Ack(TX_ABRT)`; the source is 0 where TX_ABRT is
not set; no state is written. -/
def Obligations.ReadClearAcknowledgesTheAssertedBits : Prop :=
  ∀ s : State, (readClearIntr s).st = s.readValue .intrStat ∧
    PortRun s
      (.regRead .intrStat (readClearIntr s).st ::
        (intrBits.filter (fun b => (readClearIntr s).st.getLsbD b.index)).flatMap
          (fun b => if b = .txAbrt then [.regRead .txAbrtSource (readClearIntr s).src, .ack b] else [.ack b]))
      (readClearIntr s).after ∧
    ((readClearIntr s).st.getLsbD 6 = false → (readClearIntr s).src = 0) ∧
    intrBits.map IntrBit.index = List.range 14

/-! ## Transactions -/

/-- Transfer setup (R210, R211, R212): its events in order, with the control register's TEN_BIT_MASTER bit
alone changed; `msg_err` cleared and the disable outcome recorded; nothing else changes. -/
def Obligations.TransferSetupEvents : Prop :=
  ∀ (tar : Word) (s : State),
    ∃ (dis : List PortEvent) (o : DisableOutcome) (con es st src : Word),
      DisableShape s.params dis o ∧ Masked s.params .con con ∧ Masked s.params .enableStatus es ∧
      Masked s.params .intrStat st ∧ Masked s.params .txAbrtSource src ∧ (st.getLsbD 6 = false → src = 0) ∧
      xferInit tar s =
        { s with
          msgErr := false
          lastDisable := some o
          trace := s.trace ++ dis ++
            [.regRead .con con,
             .regWrite .con (if tar.getLsbD 12 = true then con ||| 0x10 else con &&& ~~~0x10),
             .regWrite .tar tar, .regWrite .intrMask 0, .regWrite .enable 1, .regRead .enableStatus es] ++
            clearEvents st src ++ [.regWrite .intrMask 0x254]
          readAnswers := (xferInit tar s).readAnswers
          expiredAnswers := (xferInit tar s).expiredAnswers
          draws := (xferInit tar s).draws }

/-- TRANSFER7 (R112, R227): with the instance initialised, setup runs with the target value A7 and the walk
starts; with no operation it returns OK. -/
def Obligations.TransferSevenIsAdmitted : Prop :=
  ∀ (a : BitVec 7) (ops : List Op) (s : State), s.cmd = .idle → s.initialized = true →
    ∃ t, exec (.transfer7 a ops) s = .next t ∧ Admitted (a.setWidth 32) ops s t

/-- TRANSFER10 (R112, R229): as TRANSFER7 with the target value A10 | 0x1000, whose bit 12 is set. -/
def Obligations.TransferTenIsAdmitted : Prop :=
  ∀ (a : BitVec 10) (ops : List Op) (s : State), s.cmd = .idle → s.initialized = true →
    ∃ t, exec (.transfer10 a ops) s = .next t ∧ Admitted (a.setWidth 32 ||| 0x1000) ops s t ∧
      (a.setWidth 32 ||| 0x1000 : Word).getLsbD 12 = true

/-- R227, R229, R307: a transaction before INIT_MASTER has completed is refused. -/
def Obligations.TransferBeforeInitIsRefused : Prop :=
  ∀ (a : BitVec 7) (b : BitVec 10) (ops : List Op) (s : State), s.cmd = .idle → s.initialized = false →
    exec (.transfer7 a ops) s = .refused .notInitialised ∧ exec (.transfer10 b ops) s = .refused .notInitialised

/-- R108: an operation outside a transaction is refused, and so is a command inside one. -/
def Obligations.FramingIsEnforced : Prop :=
  (∀ (buf : List Byte) (len : BitVec 16) (s : State), s.cmd = .idle →
    exec (.opWrite buf) s = .refused .opOutsideTransaction ∧ exec (.opRead len) s = .refused .opOutsideTransaction) ∧
  (∀ (i : Instr) (tar : Word) (ops : List Op) (s : State), s.cmd = .transfer tar ops → i.isDataCmd = false →
    (∀ buf, i ≠ .opWrite buf) → (∀ len, i ≠ .opRead len) → exec i s = .refused .commandInsideTransaction)

/-- OP_WRITE (R213 to R217, R228, R230): in a transaction, with the level at most the depth and the
outstanding count not at its end where it must grow, the operation completes: one level read, the pushes,
the mask; the in-progress bookkeeping; the position moves on; nothing else changes. With writes_left already 0,
which no run reaches, that the count stays 0 and the write is a last one is the model's choice (log entry 18). -/
def Obligations.OpWriteRunsTheWritePath : Prop :=
  ∀ (buf : List Byte) (tar : Word) (ops : List Op) (s : State), s.cmd = .transfer tar ops →
    (s.readValue .txflr).toNat ≤ s.params.txFifoDepth →
    (leavesWip buf s → s.txOutstanding ≠ 0xFFFFFFFF) →
    ∃ (t : State) (w : Bool), exec (.opWrite buf) s = .next t ∧ (w = true ↔ leavesWip buf s) ∧
      t = { s with
            trace := s.trace ++ [.regRead .txflr (s.readValue .txflr)] ++
              (sentWords buf s).map (.regWrite .dataCmd) ++
              [.regWrite .intrMask (if s.msgErr then 0 else if s.writesLeft - 1 = 0 then 0x244 else 0x254)]
            dataCmds := s.dataCmds ++ sentWords buf s
            status := { s.status with wip := w }
            txOutstanding := if w then s.txOutstanding + 1 else s.txOutstanding
            txBufLen := if w then BitVec.ofNat 32 (buf.length - sendable buf s) else s.txBufLen
            writesLeft := s.writesLeft - 1
            opIdx := s.opIdx + 1
            cmd := cmdAfter ops s
            results := resultsAfter ops s
            readAnswers := t.readAnswers
            draws := t.draws }

/-- R214, R306: a level above the depth is the fault TxLevelAboveDepth, after the level read. -/
def Obligations.LevelAboveDepthFaults : Prop :=
  ∀ (buf : List Byte) (tar : Word) (ops : List Op) (s : State), s.cmd = .transfer tar ops →
    s.params.txFifoDepth < (s.readValue .txflr).toNat →
    ∃ u, exec (.opWrite buf) s = .fault (.txLevelAboveDepth u) ∧
      u.trace = s.trace ++ [.regRead .txflr (s.readValue .txflr)] ∧ u.results = s.results ∧
      u.dataCmds = s.dataCmds

/-- R37, R216, R306: where the outstanding-write count would pass 0xFFFFFFFF the write path faults after its
pushes and before the mask write. -/
def Obligations.WriteCountOverflowFaults : Prop :=
  ∀ (buf : List Byte) (tar : Word) (ops : List Op) (s : State), s.cmd = .transfer tar ops →
    (s.readValue .txflr).toNat ≤ s.params.txFifoDepth → leavesWip buf s → s.txOutstanding = 0xFFFFFFFF →
    ∃ u, exec (.opWrite buf) s = .fault (.counterOverflow u) ∧ u.status.wip = true ∧
      u.trace = s.trace ++ [.regRead .txflr (s.readValue .txflr)] ++ (sentWords buf s).map (.regWrite .dataCmd) ∧
      u.results = s.results

/-- R213, R215: of the words pushed for `n` of a buffer's bytes, word `i` carries byte `i`, the restart bit
exactly on the first where a restart is needed, the stop bit exactly on the last byte of the whole buffer
of the last write while RECV_LEN is 0, and no other bit. -/
def Obligations.WriteWordBits : Prop :=
  ∀ (restart isLast recvLen : Bool) (n : Nat) (buf : List Byte), n ≤ buf.length →
    (writeCmds restart isLast recvLen n buf).length = n ∧
    ∀ (i : Nat) (b : Byte), i < n → buf[i]? = some b →
      ∃ w, (writeCmds restart isLast recvLen n buf)[i]? = some w ∧
        w.extractLsb' 0 8 = b ∧ w.getLsbD 8 = false ∧
        (w.getLsbD 9 = true ↔ isLast = true ∧ i + 1 = buf.length ∧ recvLen = false) ∧
        (w.getLsbD 10 = true ↔ i = 0 ∧ restart = true) ∧ w.extractLsb' 11 21 = 0

/-- R270 to R275: every word the write path pushes is one of the four write forms, as its restart and stop
bits say, and the read command is DC_RD_RESTART where restart is enabled, else DC_RD. -/
def Obligations.PushedWordsAreTheForms : Prop :=
  (∀ (restart isLast recvLen : Bool) (len n i : Nat) (b : Byte),
    decodeDataCmd (writeCmd restart isLast recvLen len n i b) =
      .ok (if i = 0 ∧ restart = true then
             (if stopOn isLast recvLen len n i = true then .dcWrRestartStop b else .dcWrRestart b)
           else (if stopOn isLast recvLen len n i = true then .dcWrStop b else .dcWr b))) ∧
  (∀ cfg : Word, decodeDataCmd (readCmd cfg) = .ok (if cfg.getLsbD 5 = true then .dcRdRestart else .dcRd))

/-- The read path's poll (R222, R304): while the status shows neither TX_ABRT nor RX_FULL and the budget is not
expired it acknowledges, waits 10 microseconds and reads again. It ends at the first other status, at most the
twelfth: with the abort, where TX_ABRT is set, RX_FULL or not, the source being the answer read right before the
acknowledge; full, where RX_FULL alone is set; and it times out where neither is set and the budget is expired,
which it is after the eleventh delay (R183). -/
def Obligations.ReadPollEndsAtTheFirstDecisiveStatus : Prop :=
  ∀ (s : State) (v : Word) (idle rest : List Word) (later : List Bool), idle.length ≤ 11 →
    (∀ h ∈ idle, h.getLsbD 6 = false ∧ h.getLsbD 2 = false) →
    s.expiredAnswers = List.replicate idle.length false ++ later →
    (s.readAnswers = idle ++ v :: rest → v.getLsbD 6 = false → v.getLsbD 2 = true →
      readPoll 11 0 s =
        (.full, { s with
                  trace := s.trace ++ idleRounds idle ++ clearEvents (v &&& 0x3FFF) 0
                  readAnswers := rest
                  expiredAnswers := later })) ∧
    (∀ src, s.readAnswers = idle ++ v :: src :: rest → v.getLsbD 6 = true →
      readPoll 11 0 s =
        (.abort (src &&& s.params.abrtSourceMask),
          { s with
            trace := s.trace ++ idleRounds idle ++ clearEvents (v &&& 0x3FFF) (src &&& s.params.abrtSourceMask)
            readAnswers := rest
            expiredAnswers := later })) ∧
    (s.readAnswers = idle ++ v :: rest → v.getLsbD 6 = false → v.getLsbD 2 = false →
      ∀ later', later = (if idle.length = 11 then later' else true :: later') →
      readPoll 11 0 s =
        (.timeout, { s with
                     trace := s.trace ++ idleRounds idle ++ clearEvents (v &&& 0x3FFF) 0 ++ [.expired idle.length true]
                     readAnswers := rest
                     expiredAnswers := later' }))

/-- R220: with the outstanding-read count at the depth or above, a read operation ends the transaction with
OVERRUN, with no port event and no other state change. -/
def Obligations.ReadOverrunTouchesNothing : Prop :=
  ∀ (len : BitVec 16) (tar : Word) (ops : List Op) (s : State), s.cmd = .transfer tar ops →
    s.params.rxFifoDepth ≤ s.rxOutstanding.toNat →
    exec (.opRead len) s = .next { s with cmd := .idle, results := s.results ++ [6] }

/-- R221, R222, R304: a read whose poll sees TX_ABRT records a message error and ends the transaction with
ABORT_ERROR of the captured source; nothing else changes. -/
def Obligations.ReadAbortEndsTheTransaction : Prop :=
  ∀ (len : BitVec 16) (tar src : Word) (ops : List Op) (s : State), s.cmd = .transfer tar ops →
    s.rxOutstanding.toNat < s.params.rxFifoDepth → (pollOf s).1 = .abort src →
    ∃ (t : State) (evs : List PortEvent), exec (.opRead len) s = .next t ∧ ReadPollShape s.params 0 evs (.abort src) ∧
      t = { s with
            trace := s.trace ++ [.regWrite .dataCmd (readWord s)] ++ evs
            dataCmds := s.dataCmds ++ [readWord s]
            msgErr := true
            cmd := .idle
            results := s.results ++ [(abortErrorOf s.params src).code.setWidth 32]
            readAnswers := t.readAnswers
            expiredAnswers := t.expiredAnswers
            draws := t.draws }

/-- R221, R222: a read whose poll times out ends the transaction with OTHER; nothing else changes. -/
def Obligations.ReadTimeoutEndsTheTransaction : Prop :=
  ∀ (len : BitVec 16) (tar : Word) (ops : List Op) (s : State), s.cmd = .transfer tar ops →
    s.rxOutstanding.toNat < s.params.rxFifoDepth → (pollOf s).1 = .timeout →
    ∃ (t : State) (evs : List PortEvent), exec (.opRead len) s = .next t ∧ ReadPollShape s.params 0 evs .timeout ∧
      t = { s with
            trace := s.trace ++ [.regWrite .dataCmd (readWord s)] ++ evs
            dataCmds := s.dataCmds ++ [readWord s]
            cmd := .idle
            results := s.results ++ [7]
            readAnswers := t.readAnswers
            expiredAnswers := t.expiredAnswers
            draws := t.draws }

/-- R221 to R225, R231: a read whose poll sees RX_FULL drains min(LEN, RXFLR) bytes into its buffer, in pop
order, with the length-prefix substitution, keeps the in-progress bookkeeping, and moves on; nothing else
changes. -/
def Obligations.OpReadRunsTheReadPath : Prop :=
  ∀ (len : BitVec 16) (tar : Word) (ops : List Op) (s : State), s.cmd = .transfer tar ops →
    s.rxOutstanding.toNat < s.params.rxFifoDepth → (pollOf s).1 = .full →
    (len.toNat < occupancy s → s.params.rxOutstandingUpdate = .incOnPartial → s.rxOutstanding ≠ 0xFFFFFFFF) →
    ∃ (t : State) (evs : List PortEvent) (ws : List Word), exec (.opRead len) s = .next t ∧
      ReadPollShape s.params 0 evs .full ∧ ws.length = min len.toNat (occupancy s) ∧
      (∀ w ∈ ws, Masked s.params .dataCmd w) ∧
      t = { s with
            trace := s.trace ++ [.regWrite .dataCmd (readWord s)] ++ evs ++
              [.regRead .rxflr (BitVec.ofNat 32 (occupancy s))] ++ ws.map (.regRead .dataCmd)
            dataCmds := s.dataCmds ++ [readWord s]
            rbufs := s.rbufs.modify (rbufIndex ops s.opIdx)
              (fun buf => ws.map (storedByte s.rxFlag.recvLen) ++ buf.drop ws.length)
            status := { s.status with rip := decide (len.toNat < occupancy s) }
            rxBufLen := if len.toNat < occupancy s then BitVec.ofNat 32 (occupancy s - len.toNat) else s.rxBufLen
            rxOutstanding :=
              if len.toNat < occupancy s ∧ s.params.rxOutstandingUpdate = .incOnPartial then s.rxOutstanding + 1
              else s.rxOutstanding
            opIdx := s.opIdx + 1
            cmd := cmdAfter ops s
            results := resultsAfter ops s
            readAnswers := t.readAnswers
            expiredAnswers := t.expiredAnswers
            draws := t.draws }

/-- R38, R225, R306: where the outstanding-read count would pass 0xFFFFFFFF the read path faults after the
drain: the run stops with the poll, the level read and the LEN pops on the trace, the bytes drained in the
operation's own buffer, READ_IN_PROGRESS set and the remainder recorded; the count, the step position and the
results are as before. That the fault carries the state it stopped in is the model's choice (log entry 7). -/
def Obligations.ReadCountOverflowFaults : Prop :=
  ∀ (len : BitVec 16) (tar : Word) (ops : List Op) (s : State), s.cmd = .transfer tar ops →
    s.rxOutstanding.toNat < s.params.rxFifoDepth → (pollOf s).1 = .full → len.toNat < occupancy s →
    s.params.rxOutstandingUpdate = .incOnPartial → s.rxOutstanding = 0xFFFFFFFF →
    ∃ (u : State) (evs : List PortEvent) (ws : List Word), exec (.opRead len) s = .fault (.counterOverflow u) ∧
      ReadPollShape s.params 0 evs .full ∧ ws.length = len.toNat ∧ (∀ w ∈ ws, Masked s.params .dataCmd w) ∧
      u = { s with
            trace := s.trace ++ [.regWrite .dataCmd (readWord s)] ++ evs ++
              [.regRead .rxflr (BitVec.ofNat 32 (occupancy s))] ++ ws.map (.regRead .dataCmd)
            dataCmds := s.dataCmds ++ [readWord s]
            rbufs := s.rbufs.modify (rbufIndex ops s.opIdx)
              (fun buf => ws.map (storedByte s.rxFlag.recvLen) ++ buf.drop ws.length)
            status := { s.status with rip := true }
            rxBufLen := BitVec.ofNat 32 (occupancy s - len.toNat)
            readAnswers := u.readAnswers
            expiredAnswers := u.expiredAnswers
            draws := u.draws }

/-- R224: the byte stored for a popped word: its bits [7:0], but 1 where RECV_LEN is set and the byte is 0
or above 32. -/
def Obligations.LengthPrefixIsNormalised : Prop :=
  ∀ w : Word, storedByte false w = w.extractLsb' 0 8 ∧
    (storedByte true w).toNat =
      if 1 ≤ (w.extractLsb' 0 8).toNat ∧ (w.extractLsb' 0 8).toNat ≤ 32 then (w.extractLsb' 0 8).toNat else 1

/-- R86: a read operation changes no byte of any read buffer but bytes 0 to n-1 of its own, n being the number
of bytes drained, min(LEN, RXFLR); one that ends in an error stores nothing; no other instruction but the
admission of a transaction changes a read buffer. -/
def Obligations.ReadBufferBytesAreKept : Prop :=
  ∀ (i : Instr) (s t : State), exec i s = .next t →
    (∀ len tar ops, i = .opRead len → s.cmd = .transfer tar ops →
      (s.params.rxFifoDepth ≤ s.rxOutstanding.toNat ∨ (pollOf s).1 ≠ .full → t.rbufs = s.rbufs) ∧
      ∀ j k, j ≠ rbufIndex ops s.opIdx ∨ min len.toNat (occupancy s) ≤ k →
        (t.rbufs[j]?.bind (fun buf => buf[k]?)) = (s.rbufs[j]?.bind (fun buf => buf[k]?))) ∧
    ((∀ len, i ≠ .opRead len) → (∀ a ops, i ≠ .transfer7 a ops) → (∀ a ops, i ≠ .transfer10 a ops) →
      t.rbufs = s.rbufs)

/-! ## Data-command words -/

/-- R270 to R273: what each write form asks of the controller, in order; nothing else changes. -/
def Obligations.WriteFormsAsk : Prop :=
  ∀ (b : Byte) (s : State),
    exec (.dcWr b) s = .next { s with asked := s.asked ++ [.transmit b] } ∧
    exec (.dcWrStop b) s = .next { s with asked := s.asked ++ [.transmit b, .stop] } ∧
    exec (.dcWrRestart b) s = .next { s with asked := s.asked ++ [.restart, .transmit b] } ∧
    exec (.dcWrRestartStop b) s = .next { s with asked := s.asked ++ [.restart, .transmit b, .stop] }

/-- R274 to R276: what each read form asks of the controller, in order; nothing else changes. -/
def Obligations.ReadFormsAsk : Prop :=
  ∀ s : State,
    exec .dcRd s = .next { s with asked := s.asked ++ [.readByte] } ∧
    exec .dcRdRestart s = .next { s with asked := s.asked ++ [.restart, .readByte] } ∧
    exec .dcRdStop s = .next { s with asked := s.asked ++ [.readByte, .stop] } ∧
    exec .dcRdRestartStop s = .next { s with asked := s.asked ++ [.restart, .readByte, .stop] }

/-! ## Results -/

/-- R302: the default ABORT_ERROR, first match wins. -/
def Obligations.DefaultAbortMapping : Prop :=
  ∀ (p : Params) (src : Word), p.abortError = .specDefault →
    (src.getLsbD 12 = true ∨ src.getLsbD 14 = true → abortErrorOf p src = .arbitrationLoss) ∧
    (src.getLsbD 12 = false → src.getLsbD 14 = false →
      (src.extractLsb' 0 3 ≠ 0 → abortErrorOf p src = .nackAddress) ∧
      (src.extractLsb' 0 3 = 0 →
        (src.getLsbD 3 = true → abortErrorOf p src = .nackData) ∧
        (src.getLsbD 3 = false → src.getLsbD 4 = true → abortErrorOf p src = .nackUnknown) ∧
        (src.getLsbD 3 = false → src.getLsbD 4 = false → abortErrorOf p src = .bus)))

/-- R118, R300: the result codes. -/
def Obligations.ResultCodes : Prop :=
  Result.ok.word = 0 ∧ (Result.error (.abort .bus)).word = 1 ∧ (Result.error (.abort .arbitrationLoss)).word = 2 ∧
  (Result.error (.abort .nackAddress)).word = 3 ∧ (Result.error (.abort .nackData)).word = 4 ∧
  (Result.error (.abort .nackUnknown)).word = 5 ∧ (Result.error .overrun).word = 6 ∧
  (Result.error .other).word = 7 ∧ Result.abortTimeout.word = 8 ∧ Result.disableTimeout.word = 9

/-! ## Encoding -/

/-- Decoding the encoding of a well-formed descriptor gives it back, and leaves what follows it: every
operand at every value the encoding admits (R100 to R109, R117, R122, R125). -/
def Obligations.DescriptorsRoundTrip : Prop :=
  ∀ (i : Instr) (rest : List Word), i.wf = true → i.isDataCmd = false →
    decode (encode i ++ rest) = .ok (i, rest)

/-- Every word sequence has at most one meaning: what decodes is the encoding of a well-formed descriptor
followed by the rest (R119, R122). -/
def Obligations.DecodingIsCanonical : Prop :=
  ∀ (ws rest : List Word) (i : Instr), decode ws = .ok (i, rest) →
    ws = encode i ++ rest ∧ i.wf = true ∧ i.isDataCmd = false

/-- The data-command forms round-trip, both ways (R115, R270 to R276). -/
def Obligations.DataCommandsRoundTrip : Prop :=
  (∀ i : Instr, i.isDataCmd = true → ∃ w, encode i = [w] ∧ decodeDataCmd w = .ok i) ∧
  (∀ (w : Word) (i : Instr), decodeDataCmd w = .ok i → encode i = [w] ∧ i.isDataCmd = true)

/-- Words written out from the spec's encodings decode to the instructions they stand for (R100 to R109,
R115, R117): one of every family. -/
def Obligations.SampleWordsDecode : Prop :=
  decode [0x10061A80] = .ok (.setTiming .busFreqHz 400000, []) ∧
  decode [0x20000005] = .ok (.setMsgFlags true false true false, []) ∧
  decode [0x60000000] = .ok (.disable, []) ∧
  decode [0x70020050, 0x90000001, 0x00000010, 0xA0000001] = .ok (.transfer7 0x50 [.write [0x10], .read 1], []) ∧
  decode [0x80010123, 0x90000000] = .ok (.transfer10 0x123 [.write []], []) ∧
  decodeDataCmd 0x6A5 = .ok (.dcWrRestartStop 0xA5) ∧ decodeDataCmd 0x500 = .ok .dcRdRestart

/-- R119: reserved opcodes, a reserved timing field, and a must-be-zero field that is not zero are refused;
inside a transaction, a command opcode, a reserved opcode and an incomplete stream are. R119 says only that they
are refused: which refusal is named, also where two grounds apply, is the model's choice (log entry 19). -/
def Obligations.ReservedEncodingsAreRefused : Prop :=
  (∀ (w : Word) (ws : List Word),
    ((opc w).toNat = 0 ∨ 11 ≤ (opc w).toNat → decode (w :: ws) = .error .reservedOpcode) ∧
    ((opc w).toNat = 1 → w.getLsbD 27 = true → decode (w :: ws) = .error .reservedTimingField) ∧
    ((opc w).toNat = 2 → w.extractLsb' 4 24 ≠ 0 → decode (w :: ws) = .error .nonzeroField) ∧
    (3 ≤ (opc w).toNat → (opc w).toNat ≤ 6 → w.extractLsb' 0 28 ≠ 0 → decode (w :: ws) = .error .nonzeroField) ∧
    ((opc w).toNat = 7 → w.extractLsb' 7 9 ≠ 0 → decode (w :: ws) = .error .nonzeroField) ∧
    ((opc w).toNat = 8 → w.extractLsb' 10 6 ≠ 0 → decode (w :: ws) = .error .nonzeroField) ∧
    ((opc w).toNat = 9 ∨ (opc w).toNat = 10 → w.extractLsb' 16 12 ≠ 0 → decode (w :: ws) = .error .nonzeroField)) ∧
  (∀ (n : Nat) (w : Word) (ws : List Word),
    (1 ≤ (opc w).toNat → (opc w).toNat ≤ 8 → decodeOps (n + 1) (w :: ws) = .error .nonOperationInside) ∧
    ((opc w).toNat = 0 ∨ 11 ≤ (opc w).toNat → decodeOps (n + 1) (w :: ws) = .error .reservedOpcode) ∧
    decodeOps (n + 1) [] = .error .streamIncomplete)

/-! ## Steps -/

/-- A step runs the decoded instruction: the next word of the command stream, with that word taken; else the
operation at `op_idx` of the transaction in progress; else the next command of the port, with its words
taken; words that are no instruction are refused, with no step (R47, R307). -/
def Obligations.StepRunsTheDecodedInstruction : Prop :=
  (∀ (s : State) (w : Word) (ws : List Word) (i : Instr), s.dataCmds = w :: ws → decodeDataCmd w = .ok i →
    step s = exec i { s with dataCmds := ws }) ∧
  (∀ (s : State) (tar : Word) (ops : List Op) (op : Op), s.dataCmds = [] → s.cmd = .transfer tar ops →
    ops[s.opIdx]? = some op → step s = exec op.toInstr s) ∧
  (∀ (s : State) (ws rest : List Word) (i : Instr), s.dataCmds = [] → s.cmd = .idle → s.port = ws →
    decode ws = .ok (i, rest) → step s = exec i { s with port := rest }) ∧
  (∀ (s : State) (w : Word) (ws : List Word) (r : Reject), s.dataCmds = [] → s.cmd = .idle → s.port = w :: ws →
    decode (w :: ws) = .error r → step s = .refused (.encoding r))

/-- With nothing issued and nothing in progress the sequencer waits (R343). -/
def Obligations.IdleWaits : Prop :=
  ∀ s : State, s.dataCmds = [] → s.cmd = .idle → s.port = [] → step s = .next s

/-! ## Invariants -/

/-- Every step keeps the bookkeeping invariant (R32, R45, R219). -/
def Obligations.StepKeepsBookkeeping : Prop :=
  ∀ s t : State, BookInv s → step s = .next t → BookInv t

/-- Reset meets the bookkeeping invariant. -/
def Obligations.ResetMeetsBookkeeping : Prop := BookInv State.reset

/-- Every step keeps the walk invariant (R47, R108, R86, R219). -/
def Obligations.StepKeepsTheWalk : Prop :=
  ∀ s t : State, WalkInv s → step s = .next t → WalkInv t

/-- Reset meets the walk invariant. -/
def Obligations.ResetMeetsTheWalk : Prop := WalkInv State.reset

/-- Every step keeps the port invariant (R81, R83, R84, R118, R120, R276, R277). -/
def Obligations.StepKeepsThePortLawful : Prop :=
  ∀ s t : State, PortInv s → step s = .next t → PortInv t

/-- Reset meets the port invariant. -/
def Obligations.ResetMeetsThePort : Prop := PortInv State.reset

/-! ## Whole-machine rules -/

/-- Nothing is rolled back (R303): a step only adds to the trace, to the results (at most one) and to what
was asked. -/
def Obligations.OutputsOnlyGrow : Prop :=
  ∀ s t : State, step s = .next t →
    ∃ es rs qs, t.trace = s.trace ++ es ∧ t.results = s.results ++ rs ∧ rs.length ≤ 1 ∧ t.asked = s.asked ++ qs

/-- R355: the outstanding counts never fall. -/
def Obligations.OutstandingCountsNeverFall : Prop :=
  ∀ s t : State, step s = .next t →
    s.txOutstanding.toNat ≤ t.txOutstanding.toNat ∧ s.rxOutstanding.toNat ≤ t.rxOutstanding.toNat

/-- R355: once the outstanding-read count has reached the depth, every later read operation of the instance
fails with OVERRUN: the condition is kept by every step. -/
def Obligations.OverrunIsForever : Prop :=
  ∀ s t : State, step s = .next t → s.params.rxFifoDepth ≤ s.rxOutstanding.toNat →
    t.params.rxFifoDepth ≤ t.rxOutstanding.toNat ∧
    ∀ len tar ops, t.cmd = .transfer tar ops →
      exec (.opRead len) t = .next { t with cmd := .idle, results := t.results ++ [6] }

/-- The access table (R54): each field is changed only by the instructions the table names; ACTIVE, the mode
and the parameters by none; a data-command word changes only what is asked. -/
def Obligations.FieldsChangeOnlyByTheirWriters : Prop :=
  ∀ (i : Instr) (s t : State), exec i s = .next t →
    (t.timing ≠ s.timing → ∃ sel val, i = .setTiming sel val) ∧
    (t.txFlag ≠ s.txFlag ∨ t.rxFlag ≠ s.rxFlag → ∃ a b c d, i = .setMsgFlags a b c d) ∧
    (t.masterCfg ≠ s.masterCfg ∨ t.functionality ≠ s.functionality → i = .configureMaster ∨ i = .initMaster) ∧
    (t.initialized ≠ s.initialized → i = .initMaster) ∧
    (t.status.wip ≠ s.status.wip ∨ t.txOutstanding ≠ s.txOutstanding ∨ t.txBufLen ≠ s.txBufLen →
      ∃ buf, i = .opWrite buf) ∧
    (t.status.rip ≠ s.status.rip ∨ t.rxOutstanding ≠ s.rxOutstanding ∨ t.rxBufLen ≠ s.rxBufLen →
      ∃ len, i = .opRead len) ∧
    (t.msgErr ≠ s.msgErr → (∃ a ops, i = .transfer7 a ops) ∨ (∃ a ops, i = .transfer10 a ops) ∨ ∃ len, i = .opRead len) ∧
    (t.lastDisable ≠ s.lastDisable →
      i = .initMaster ∨ i = .disable ∨ (∃ a ops, i = .transfer7 a ops) ∨ ∃ a ops, i = .transfer10 a ops) ∧
    (i.isDataCmd = true → t = { s with asked := t.asked }) ∧
    t.status.active = s.status.active ∧ t.mode = s.mode ∧ t.params = s.params

/-- R35: no step writes both in-progress flags, and each is set and cleared independently of the other: with
the other flag at either value the step completes too and leaves the same in it. R48: `initialized` is never
cleared. -/
def Obligations.InProgressFlagsAreIndependent : Prop :=
  ∀ s t : State, step s = .next t →
    (t.status.wip = s.status.wip ∨ t.status.rip = s.status.rip) ∧
    (∀ b, ∃ t', step { s with status := { s.status with rip := b } } = .next t' ∧ t'.status.wip = t.status.wip) ∧
    (∀ b, ∃ t', step { s with status := { s.status with wip := b } } = .next t' ∧ t'.status.rip = t.status.rip) ∧
    (s.initialized = true → t.initialized = true)

/-- R354: WRITE_IN_PROGRESS is cleared only by a write operation whose whole buffer fits the headroom while
RECV_LEN is 0; until then the first byte of a write carries no restart. -/
def Obligations.RestartCarriesOver : Prop :=
  ∀ (i : Instr) (s t : State), exec i s = .next t → s.status.wip = true →
    (t.status.wip = false → ∃ buf, i = .opWrite buf ∧ sendable buf s = buf.length ∧ s.txFlag.recvLen = false) ∧
    ∀ buf, ∀ w ∈ sentWords buf s, w.getLsbD 10 = false

/-- R219: in a transaction the write path never masks every interrupt: its mask is 0x244 or 0x254. -/
def Obligations.WritePathNeverMasksEverything : Prop :=
  ∀ (buf : List Byte) (tar : Word) (ops : List Op) (s t : State), WalkInv s → s.cmd = .transfer tar ops →
    exec (.opWrite buf) s = .next t →
    ∃ es m, t.trace = s.trace ++ es ++ [.regWrite .intrMask m] ∧ (m = 0x244 ∨ m = 0x254)

/-- R228, R300, R306: every transaction in progress ends: after finitely many steps it has returned exactly
one result, or the run is in a model fault; it is never refused midway. -/
def Obligations.EveryTransactionEnds : Prop :=
  ∀ (s : State) (tar : Word) (ops : List Op), PortInv s → WalkInv s → s.cmd = .transfer tar ops →
    ∃ k, match Sys2Proof.core.run k s with
      | .next t => t.cmd = .idle ∧ t.port = s.port ∧ ∃ r, t.results = s.results ++ [r]
      | .fault _ => True
      | .refused _ => False

/-- R32, R34, R39 to R41, R43, R45, R49: no rule reads these fields: from two states that differ only in them
and in what the ports have shown, every instruction has the same kind of outcome, appends the same port events,
result words and requests (R80), leaves every other field the same, and keeps or writes these fields alike. -/
def Obligations.UnreadFieldsDoNotSteer : Prop :=
  ∀ (i : Instr) (s u : State), OutcomesAlike s (State.blindTo u s) (exec i s) (exec i (State.blindTo u s))
end

