-- ==== Sys2Proof/Laws/State.lean ====
section
/-! SUPPORT. What each named update of the state leaves in each field, one lemma a field, so that no proof
unfolds a record update. -/

namespace Sys2Proof.Machine

variable (s : State)

@[simp] theorem State.emit_status (e : PortEvent) : (s.emit e).status = s.status := rfl
@[simp] theorem State.emit_txOutstanding (e : PortEvent) : (s.emit e).txOutstanding = s.txOutstanding := rfl
@[simp] theorem State.emit_rxOutstanding (e : PortEvent) : (s.emit e).rxOutstanding = s.rxOutstanding := rfl
@[simp] theorem State.emit_txBufLen (e : PortEvent) : (s.emit e).txBufLen = s.txBufLen := rfl
@[simp] theorem State.emit_rxBufLen (e : PortEvent) : (s.emit e).rxBufLen = s.rxBufLen := rfl
@[simp] theorem State.emit_txFlag (e : PortEvent) : (s.emit e).txFlag = s.txFlag := rfl
@[simp] theorem State.emit_rxFlag (e : PortEvent) : (s.emit e).rxFlag = s.rxFlag := rfl
@[simp] theorem State.emit_masterCfg (e : PortEvent) : (s.emit e).masterCfg = s.masterCfg := rfl
@[simp] theorem State.emit_functionality (e : PortEvent) : (s.emit e).functionality = s.functionality := rfl
@[simp] theorem State.emit_timing (e : PortEvent) : (s.emit e).timing = s.timing := rfl
@[simp] theorem State.emit_mode (e : PortEvent) : (s.emit e).mode = s.mode := rfl
@[simp] theorem State.emit_msgErr (e : PortEvent) : (s.emit e).msgErr = s.msgErr := rfl
@[simp] theorem State.emit_initialized (e : PortEvent) : (s.emit e).initialized = s.initialized := rfl
@[simp] theorem State.emit_lastDisable (e : PortEvent) : (s.emit e).lastDisable = s.lastDisable := rfl
@[simp] theorem State.emit_cmd (e : PortEvent) : (s.emit e).cmd = s.cmd := rfl
@[simp] theorem State.emit_opIdx (e : PortEvent) : (s.emit e).opIdx = s.opIdx := rfl
@[simp] theorem State.emit_writesLeft (e : PortEvent) : (s.emit e).writesLeft = s.writesLeft := rfl
@[simp] theorem State.emit_params (e : PortEvent) : (s.emit e).params = s.params := rfl
@[simp] theorem State.emit_port (e : PortEvent) : (s.emit e).port = s.port := rfl
@[simp] theorem State.emit_rbufSupply (e : PortEvent) : (s.emit e).rbufSupply = s.rbufSupply := rfl
@[simp] theorem State.emit_rbufs (e : PortEvent) : (s.emit e).rbufs = s.rbufs := rfl
@[simp] theorem State.emit_results (e : PortEvent) : (s.emit e).results = s.results := rfl
@[simp] theorem State.emit_trace (e : PortEvent) : (s.emit e).trace = s.trace ++ [e] := rfl
@[simp] theorem State.emit_dataCmds (e : PortEvent) : (s.emit e).dataCmds = s.dataCmds := rfl
@[simp] theorem State.emit_asked (e : PortEvent) : (s.emit e).asked = s.asked := rfl
@[simp] theorem State.emit_readAnswers (e : PortEvent) : (s.emit e).readAnswers = s.readAnswers := rfl
@[simp] theorem State.emit_expiredAnswers (e : PortEvent) : (s.emit e).expiredAnswers = s.expiredAnswers := rfl
@[simp] theorem State.emit_draws (e : PortEvent) : (s.emit e).draws = s.draws := rfl

@[simp] theorem State.regWrite_status (r : Reg) (v : Word) : (s.regWrite r v).status = s.status := rfl
@[simp] theorem State.regWrite_txOutstanding (r : Reg) (v : Word) : (s.regWrite r v).txOutstanding = s.txOutstanding := rfl
@[simp] theorem State.regWrite_rxOutstanding (r : Reg) (v : Word) : (s.regWrite r v).rxOutstanding = s.rxOutstanding := rfl
@[simp] theorem State.regWrite_txBufLen (r : Reg) (v : Word) : (s.regWrite r v).txBufLen = s.txBufLen := rfl
@[simp] theorem State.regWrite_rxBufLen (r : Reg) (v : Word) : (s.regWrite r v).rxBufLen = s.rxBufLen := rfl
@[simp] theorem State.regWrite_txFlag (r : Reg) (v : Word) : (s.regWrite r v).txFlag = s.txFlag := rfl
@[simp] theorem State.regWrite_rxFlag (r : Reg) (v : Word) : (s.regWrite r v).rxFlag = s.rxFlag := rfl
@[simp] theorem State.regWrite_masterCfg (r : Reg) (v : Word) : (s.regWrite r v).masterCfg = s.masterCfg := rfl
@[simp] theorem State.regWrite_functionality (r : Reg) (v : Word) : (s.regWrite r v).functionality = s.functionality := rfl
@[simp] theorem State.regWrite_timing (r : Reg) (v : Word) : (s.regWrite r v).timing = s.timing := rfl
@[simp] theorem State.regWrite_mode (r : Reg) (v : Word) : (s.regWrite r v).mode = s.mode := rfl
@[simp] theorem State.regWrite_msgErr (r : Reg) (v : Word) : (s.regWrite r v).msgErr = s.msgErr := rfl
@[simp] theorem State.regWrite_initialized (r : Reg) (v : Word) : (s.regWrite r v).initialized = s.initialized := rfl
@[simp] theorem State.regWrite_lastDisable (r : Reg) (v : Word) : (s.regWrite r v).lastDisable = s.lastDisable := rfl
@[simp] theorem State.regWrite_cmd (r : Reg) (v : Word) : (s.regWrite r v).cmd = s.cmd := rfl
@[simp] theorem State.regWrite_opIdx (r : Reg) (v : Word) : (s.regWrite r v).opIdx = s.opIdx := rfl
@[simp] theorem State.regWrite_writesLeft (r : Reg) (v : Word) : (s.regWrite r v).writesLeft = s.writesLeft := rfl
@[simp] theorem State.regWrite_params (r : Reg) (v : Word) : (s.regWrite r v).params = s.params := rfl
@[simp] theorem State.regWrite_port (r : Reg) (v : Word) : (s.regWrite r v).port = s.port := rfl
@[simp] theorem State.regWrite_rbufSupply (r : Reg) (v : Word) : (s.regWrite r v).rbufSupply = s.rbufSupply := rfl
@[simp] theorem State.regWrite_rbufs (r : Reg) (v : Word) : (s.regWrite r v).rbufs = s.rbufs := rfl
@[simp] theorem State.regWrite_results (r : Reg) (v : Word) : (s.regWrite r v).results = s.results := rfl
@[simp] theorem State.regWrite_trace (r : Reg) (v : Word) : (s.regWrite r v).trace = s.trace ++ [.regWrite r v] := rfl
@[simp] theorem State.regWrite_dataCmds (r : Reg) (v : Word) : (s.regWrite r v).dataCmds = if r = .dataCmd then s.dataCmds ++ [v] else s.dataCmds := rfl
@[simp] theorem State.regWrite_asked (r : Reg) (v : Word) : (s.regWrite r v).asked = s.asked := rfl
@[simp] theorem State.regWrite_readAnswers (r : Reg) (v : Word) : (s.regWrite r v).readAnswers = s.readAnswers := rfl
@[simp] theorem State.regWrite_expiredAnswers (r : Reg) (v : Word) : (s.regWrite r v).expiredAnswers = s.expiredAnswers := rfl
@[simp] theorem State.regWrite_draws (r : Reg) (v : Word) : (s.regWrite r v).draws = s.draws := rfl

@[simp] theorem State.ack_status (b : IntrBit) : (s.ack b).status = s.status := rfl
@[simp] theorem State.ack_txOutstanding (b : IntrBit) : (s.ack b).txOutstanding = s.txOutstanding := rfl
@[simp] theorem State.ack_rxOutstanding (b : IntrBit) : (s.ack b).rxOutstanding = s.rxOutstanding := rfl
@[simp] theorem State.ack_txBufLen (b : IntrBit) : (s.ack b).txBufLen = s.txBufLen := rfl
@[simp] theorem State.ack_rxBufLen (b : IntrBit) : (s.ack b).rxBufLen = s.rxBufLen := rfl
@[simp] theorem State.ack_txFlag (b : IntrBit) : (s.ack b).txFlag = s.txFlag := rfl
@[simp] theorem State.ack_rxFlag (b : IntrBit) : (s.ack b).rxFlag = s.rxFlag := rfl
@[simp] theorem State.ack_masterCfg (b : IntrBit) : (s.ack b).masterCfg = s.masterCfg := rfl
@[simp] theorem State.ack_functionality (b : IntrBit) : (s.ack b).functionality = s.functionality := rfl
@[simp] theorem State.ack_timing (b : IntrBit) : (s.ack b).timing = s.timing := rfl
@[simp] theorem State.ack_mode (b : IntrBit) : (s.ack b).mode = s.mode := rfl
@[simp] theorem State.ack_msgErr (b : IntrBit) : (s.ack b).msgErr = s.msgErr := rfl
@[simp] theorem State.ack_initialized (b : IntrBit) : (s.ack b).initialized = s.initialized := rfl
@[simp] theorem State.ack_lastDisable (b : IntrBit) : (s.ack b).lastDisable = s.lastDisable := rfl
@[simp] theorem State.ack_cmd (b : IntrBit) : (s.ack b).cmd = s.cmd := rfl
@[simp] theorem State.ack_opIdx (b : IntrBit) : (s.ack b).opIdx = s.opIdx := rfl
@[simp] theorem State.ack_writesLeft (b : IntrBit) : (s.ack b).writesLeft = s.writesLeft := rfl
@[simp] theorem State.ack_params (b : IntrBit) : (s.ack b).params = s.params := rfl
@[simp] theorem State.ack_port (b : IntrBit) : (s.ack b).port = s.port := rfl
@[simp] theorem State.ack_rbufSupply (b : IntrBit) : (s.ack b).rbufSupply = s.rbufSupply := rfl
@[simp] theorem State.ack_rbufs (b : IntrBit) : (s.ack b).rbufs = s.rbufs := rfl
@[simp] theorem State.ack_results (b : IntrBit) : (s.ack b).results = s.results := rfl
@[simp] theorem State.ack_trace (b : IntrBit) : (s.ack b).trace = s.trace ++ [.ack b] := rfl
@[simp] theorem State.ack_dataCmds (b : IntrBit) : (s.ack b).dataCmds = s.dataCmds := rfl
@[simp] theorem State.ack_asked (b : IntrBit) : (s.ack b).asked = s.asked := rfl
@[simp] theorem State.ack_readAnswers (b : IntrBit) : (s.ack b).readAnswers = s.readAnswers := rfl
@[simp] theorem State.ack_expiredAnswers (b : IntrBit) : (s.ack b).expiredAnswers = s.expiredAnswers := rfl
@[simp] theorem State.ack_draws (b : IntrBit) : (s.ack b).draws = s.draws := rfl

@[simp] theorem State.delay_status (us : Nat) : (s.delay us).status = s.status := rfl
@[simp] theorem State.delay_txOutstanding (us : Nat) : (s.delay us).txOutstanding = s.txOutstanding := rfl
@[simp] theorem State.delay_rxOutstanding (us : Nat) : (s.delay us).rxOutstanding = s.rxOutstanding := rfl
@[simp] theorem State.delay_txBufLen (us : Nat) : (s.delay us).txBufLen = s.txBufLen := rfl
@[simp] theorem State.delay_rxBufLen (us : Nat) : (s.delay us).rxBufLen = s.rxBufLen := rfl
@[simp] theorem State.delay_txFlag (us : Nat) : (s.delay us).txFlag = s.txFlag := rfl
@[simp] theorem State.delay_rxFlag (us : Nat) : (s.delay us).rxFlag = s.rxFlag := rfl
@[simp] theorem State.delay_masterCfg (us : Nat) : (s.delay us).masterCfg = s.masterCfg := rfl
@[simp] theorem State.delay_functionality (us : Nat) : (s.delay us).functionality = s.functionality := rfl
@[simp] theorem State.delay_timing (us : Nat) : (s.delay us).timing = s.timing := rfl
@[simp] theorem State.delay_mode (us : Nat) : (s.delay us).mode = s.mode := rfl
@[simp] theorem State.delay_msgErr (us : Nat) : (s.delay us).msgErr = s.msgErr := rfl
@[simp] theorem State.delay_initialized (us : Nat) : (s.delay us).initialized = s.initialized := rfl
@[simp] theorem State.delay_lastDisable (us : Nat) : (s.delay us).lastDisable = s.lastDisable := rfl
@[simp] theorem State.delay_cmd (us : Nat) : (s.delay us).cmd = s.cmd := rfl
@[simp] theorem State.delay_opIdx (us : Nat) : (s.delay us).opIdx = s.opIdx := rfl
@[simp] theorem State.delay_writesLeft (us : Nat) : (s.delay us).writesLeft = s.writesLeft := rfl
@[simp] theorem State.delay_params (us : Nat) : (s.delay us).params = s.params := rfl
@[simp] theorem State.delay_port (us : Nat) : (s.delay us).port = s.port := rfl
@[simp] theorem State.delay_rbufSupply (us : Nat) : (s.delay us).rbufSupply = s.rbufSupply := rfl
@[simp] theorem State.delay_rbufs (us : Nat) : (s.delay us).rbufs = s.rbufs := rfl
@[simp] theorem State.delay_results (us : Nat) : (s.delay us).results = s.results := rfl
@[simp] theorem State.delay_trace (us : Nat) : (s.delay us).trace = s.trace ++ [.delay us] := rfl
@[simp] theorem State.delay_dataCmds (us : Nat) : (s.delay us).dataCmds = s.dataCmds := rfl
@[simp] theorem State.delay_asked (us : Nat) : (s.delay us).asked = s.asked := rfl
@[simp] theorem State.delay_readAnswers (us : Nat) : (s.delay us).readAnswers = s.readAnswers := rfl
@[simp] theorem State.delay_expiredAnswers (us : Nat) : (s.delay us).expiredAnswers = s.expiredAnswers := rfl
@[simp] theorem State.delay_draws (us : Nat) : (s.delay us).draws = s.draws := rfl

@[simp] theorem State.endCommand_status (r : Result) : (s.endCommand r).status = s.status := rfl
@[simp] theorem State.endCommand_txOutstanding (r : Result) : (s.endCommand r).txOutstanding = s.txOutstanding := rfl
@[simp] theorem State.endCommand_rxOutstanding (r : Result) : (s.endCommand r).rxOutstanding = s.rxOutstanding := rfl
@[simp] theorem State.endCommand_txBufLen (r : Result) : (s.endCommand r).txBufLen = s.txBufLen := rfl
@[simp] theorem State.endCommand_rxBufLen (r : Result) : (s.endCommand r).rxBufLen = s.rxBufLen := rfl
@[simp] theorem State.endCommand_txFlag (r : Result) : (s.endCommand r).txFlag = s.txFlag := rfl
@[simp] theorem State.endCommand_rxFlag (r : Result) : (s.endCommand r).rxFlag = s.rxFlag := rfl
@[simp] theorem State.endCommand_masterCfg (r : Result) : (s.endCommand r).masterCfg = s.masterCfg := rfl
@[simp] theorem State.endCommand_functionality (r : Result) : (s.endCommand r).functionality = s.functionality := rfl
@[simp] theorem State.endCommand_timing (r : Result) : (s.endCommand r).timing = s.timing := rfl
@[simp] theorem State.endCommand_mode (r : Result) : (s.endCommand r).mode = s.mode := rfl
@[simp] theorem State.endCommand_msgErr (r : Result) : (s.endCommand r).msgErr = s.msgErr := rfl
@[simp] theorem State.endCommand_initialized (r : Result) : (s.endCommand r).initialized = s.initialized := rfl
@[simp] theorem State.endCommand_lastDisable (r : Result) : (s.endCommand r).lastDisable = s.lastDisable := rfl
@[simp] theorem State.endCommand_cmd (r : Result) : (s.endCommand r).cmd = .idle := rfl
@[simp] theorem State.endCommand_opIdx (r : Result) : (s.endCommand r).opIdx = s.opIdx := rfl
@[simp] theorem State.endCommand_writesLeft (r : Result) : (s.endCommand r).writesLeft = s.writesLeft := rfl
@[simp] theorem State.endCommand_params (r : Result) : (s.endCommand r).params = s.params := rfl
@[simp] theorem State.endCommand_port (r : Result) : (s.endCommand r).port = s.port := rfl
@[simp] theorem State.endCommand_rbufSupply (r : Result) : (s.endCommand r).rbufSupply = s.rbufSupply := rfl
@[simp] theorem State.endCommand_rbufs (r : Result) : (s.endCommand r).rbufs = s.rbufs := rfl
@[simp] theorem State.endCommand_results (r : Result) : (s.endCommand r).results = s.results ++ [r.word] := rfl
@[simp] theorem State.endCommand_trace (r : Result) : (s.endCommand r).trace = s.trace := rfl
@[simp] theorem State.endCommand_dataCmds (r : Result) : (s.endCommand r).dataCmds = s.dataCmds := rfl
@[simp] theorem State.endCommand_asked (r : Result) : (s.endCommand r).asked = s.asked := rfl
@[simp] theorem State.endCommand_readAnswers (r : Result) : (s.endCommand r).readAnswers = s.readAnswers := rfl
@[simp] theorem State.endCommand_expiredAnswers (r : Result) : (s.endCommand r).expiredAnswers = s.expiredAnswers := rfl
@[simp] theorem State.endCommand_draws (r : Result) : (s.endCommand r).draws = s.draws := rfl

@[simp] theorem State.raise_status (e : XferError) : (s.raise e).status = s.status := rfl
@[simp] theorem State.raise_txOutstanding (e : XferError) : (s.raise e).txOutstanding = s.txOutstanding := rfl
@[simp] theorem State.raise_rxOutstanding (e : XferError) : (s.raise e).rxOutstanding = s.rxOutstanding := rfl
@[simp] theorem State.raise_txBufLen (e : XferError) : (s.raise e).txBufLen = s.txBufLen := rfl
@[simp] theorem State.raise_rxBufLen (e : XferError) : (s.raise e).rxBufLen = s.rxBufLen := rfl
@[simp] theorem State.raise_txFlag (e : XferError) : (s.raise e).txFlag = s.txFlag := rfl
@[simp] theorem State.raise_rxFlag (e : XferError) : (s.raise e).rxFlag = s.rxFlag := rfl
@[simp] theorem State.raise_masterCfg (e : XferError) : (s.raise e).masterCfg = s.masterCfg := rfl
@[simp] theorem State.raise_functionality (e : XferError) : (s.raise e).functionality = s.functionality := rfl
@[simp] theorem State.raise_timing (e : XferError) : (s.raise e).timing = s.timing := rfl
@[simp] theorem State.raise_mode (e : XferError) : (s.raise e).mode = s.mode := rfl
@[simp] theorem State.raise_msgErr (e : XferError) : (s.raise e).msgErr = s.msgErr := rfl
@[simp] theorem State.raise_initialized (e : XferError) : (s.raise e).initialized = s.initialized := rfl
@[simp] theorem State.raise_lastDisable (e : XferError) : (s.raise e).lastDisable = s.lastDisable := rfl
@[simp] theorem State.raise_cmd (e : XferError) : (s.raise e).cmd = .idle := rfl
@[simp] theorem State.raise_opIdx (e : XferError) : (s.raise e).opIdx = s.opIdx := rfl
@[simp] theorem State.raise_writesLeft (e : XferError) : (s.raise e).writesLeft = s.writesLeft := rfl
@[simp] theorem State.raise_params (e : XferError) : (s.raise e).params = s.params := rfl
@[simp] theorem State.raise_port (e : XferError) : (s.raise e).port = s.port := rfl
@[simp] theorem State.raise_rbufSupply (e : XferError) : (s.raise e).rbufSupply = s.rbufSupply := rfl
@[simp] theorem State.raise_rbufs (e : XferError) : (s.raise e).rbufs = s.rbufs := rfl
@[simp] theorem State.raise_results (e : XferError) : (s.raise e).results = s.results ++ [(Result.error e).word] := rfl
@[simp] theorem State.raise_trace (e : XferError) : (s.raise e).trace = s.trace := rfl
@[simp] theorem State.raise_dataCmds (e : XferError) : (s.raise e).dataCmds = s.dataCmds := rfl
@[simp] theorem State.raise_asked (e : XferError) : (s.raise e).asked = s.asked := rfl
@[simp] theorem State.raise_readAnswers (e : XferError) : (s.raise e).readAnswers = s.readAnswers := rfl
@[simp] theorem State.raise_expiredAnswers (e : XferError) : (s.raise e).expiredAnswers = s.expiredAnswers := rfl
@[simp] theorem State.raise_draws (e : XferError) : (s.raise e).draws = s.draws := rfl

@[simp] theorem State.ask_status (rs : List BusRequest) : (s.ask rs).status = s.status := rfl
@[simp] theorem State.ask_txOutstanding (rs : List BusRequest) : (s.ask rs).txOutstanding = s.txOutstanding := rfl
@[simp] theorem State.ask_rxOutstanding (rs : List BusRequest) : (s.ask rs).rxOutstanding = s.rxOutstanding := rfl
@[simp] theorem State.ask_txBufLen (rs : List BusRequest) : (s.ask rs).txBufLen = s.txBufLen := rfl
@[simp] theorem State.ask_rxBufLen (rs : List BusRequest) : (s.ask rs).rxBufLen = s.rxBufLen := rfl
@[simp] theorem State.ask_txFlag (rs : List BusRequest) : (s.ask rs).txFlag = s.txFlag := rfl
@[simp] theorem State.ask_rxFlag (rs : List BusRequest) : (s.ask rs).rxFlag = s.rxFlag := rfl
@[simp] theorem State.ask_masterCfg (rs : List BusRequest) : (s.ask rs).masterCfg = s.masterCfg := rfl
@[simp] theorem State.ask_functionality (rs : List BusRequest) : (s.ask rs).functionality = s.functionality := rfl
@[simp] theorem State.ask_timing (rs : List BusRequest) : (s.ask rs).timing = s.timing := rfl
@[simp] theorem State.ask_mode (rs : List BusRequest) : (s.ask rs).mode = s.mode := rfl
@[simp] theorem State.ask_msgErr (rs : List BusRequest) : (s.ask rs).msgErr = s.msgErr := rfl
@[simp] theorem State.ask_initialized (rs : List BusRequest) : (s.ask rs).initialized = s.initialized := rfl
@[simp] theorem State.ask_lastDisable (rs : List BusRequest) : (s.ask rs).lastDisable = s.lastDisable := rfl
@[simp] theorem State.ask_cmd (rs : List BusRequest) : (s.ask rs).cmd = s.cmd := rfl
@[simp] theorem State.ask_opIdx (rs : List BusRequest) : (s.ask rs).opIdx = s.opIdx := rfl
@[simp] theorem State.ask_writesLeft (rs : List BusRequest) : (s.ask rs).writesLeft = s.writesLeft := rfl
@[simp] theorem State.ask_params (rs : List BusRequest) : (s.ask rs).params = s.params := rfl
@[simp] theorem State.ask_port (rs : List BusRequest) : (s.ask rs).port = s.port := rfl
@[simp] theorem State.ask_rbufSupply (rs : List BusRequest) : (s.ask rs).rbufSupply = s.rbufSupply := rfl
@[simp] theorem State.ask_rbufs (rs : List BusRequest) : (s.ask rs).rbufs = s.rbufs := rfl
@[simp] theorem State.ask_results (rs : List BusRequest) : (s.ask rs).results = s.results := rfl
@[simp] theorem State.ask_trace (rs : List BusRequest) : (s.ask rs).trace = s.trace := rfl
@[simp] theorem State.ask_dataCmds (rs : List BusRequest) : (s.ask rs).dataCmds = s.dataCmds := rfl
@[simp] theorem State.ask_asked (rs : List BusRequest) : (s.ask rs).asked = s.asked ++ rs := rfl
@[simp] theorem State.ask_readAnswers (rs : List BusRequest) : (s.ask rs).readAnswers = s.readAnswers := rfl
@[simp] theorem State.ask_expiredAnswers (rs : List BusRequest) : (s.ask rs).expiredAnswers = s.expiredAnswers := rfl
@[simp] theorem State.ask_draws (rs : List BusRequest) : (s.ask rs).draws = s.draws := rfl

@[simp] theorem State.storeRead_status (j : Nat) (bytes : List Byte) : (s.storeRead j bytes).status = s.status := rfl
@[simp] theorem State.storeRead_txOutstanding (j : Nat) (bytes : List Byte) : (s.storeRead j bytes).txOutstanding = s.txOutstanding := rfl
@[simp] theorem State.storeRead_rxOutstanding (j : Nat) (bytes : List Byte) : (s.storeRead j bytes).rxOutstanding = s.rxOutstanding := rfl
@[simp] theorem State.storeRead_txBufLen (j : Nat) (bytes : List Byte) : (s.storeRead j bytes).txBufLen = s.txBufLen := rfl
@[simp] theorem State.storeRead_rxBufLen (j : Nat) (bytes : List Byte) : (s.storeRead j bytes).rxBufLen = s.rxBufLen := rfl
@[simp] theorem State.storeRead_txFlag (j : Nat) (bytes : List Byte) : (s.storeRead j bytes).txFlag = s.txFlag := rfl
@[simp] theorem State.storeRead_rxFlag (j : Nat) (bytes : List Byte) : (s.storeRead j bytes).rxFlag = s.rxFlag := rfl
@[simp] theorem State.storeRead_masterCfg (j : Nat) (bytes : List Byte) : (s.storeRead j bytes).masterCfg = s.masterCfg := rfl
@[simp] theorem State.storeRead_functionality (j : Nat) (bytes : List Byte) : (s.storeRead j bytes).functionality = s.functionality := rfl
@[simp] theorem State.storeRead_timing (j : Nat) (bytes : List Byte) : (s.storeRead j bytes).timing = s.timing := rfl
@[simp] theorem State.storeRead_mode (j : Nat) (bytes : List Byte) : (s.storeRead j bytes).mode = s.mode := rfl
@[simp] theorem State.storeRead_msgErr (j : Nat) (bytes : List Byte) : (s.storeRead j bytes).msgErr = s.msgErr := rfl
@[simp] theorem State.storeRead_initialized (j : Nat) (bytes : List Byte) : (s.storeRead j bytes).initialized = s.initialized := rfl
@[simp] theorem State.storeRead_lastDisable (j : Nat) (bytes : List Byte) : (s.storeRead j bytes).lastDisable = s.lastDisable := rfl
@[simp] theorem State.storeRead_cmd (j : Nat) (bytes : List Byte) : (s.storeRead j bytes).cmd = s.cmd := rfl
@[simp] theorem State.storeRead_opIdx (j : Nat) (bytes : List Byte) : (s.storeRead j bytes).opIdx = s.opIdx := rfl
@[simp] theorem State.storeRead_writesLeft (j : Nat) (bytes : List Byte) : (s.storeRead j bytes).writesLeft = s.writesLeft := rfl
@[simp] theorem State.storeRead_params (j : Nat) (bytes : List Byte) : (s.storeRead j bytes).params = s.params := rfl
@[simp] theorem State.storeRead_port (j : Nat) (bytes : List Byte) : (s.storeRead j bytes).port = s.port := rfl
@[simp] theorem State.storeRead_rbufSupply (j : Nat) (bytes : List Byte) : (s.storeRead j bytes).rbufSupply = s.rbufSupply := rfl
@[simp] theorem State.storeRead_rbufs (j : Nat) (bytes : List Byte) : (s.storeRead j bytes).rbufs = s.rbufs.modify j (fun buf => bytes ++ buf.drop bytes.length) := rfl
@[simp] theorem State.storeRead_results (j : Nat) (bytes : List Byte) : (s.storeRead j bytes).results = s.results := rfl
@[simp] theorem State.storeRead_trace (j : Nat) (bytes : List Byte) : (s.storeRead j bytes).trace = s.trace := rfl
@[simp] theorem State.storeRead_dataCmds (j : Nat) (bytes : List Byte) : (s.storeRead j bytes).dataCmds = s.dataCmds := rfl
@[simp] theorem State.storeRead_asked (j : Nat) (bytes : List Byte) : (s.storeRead j bytes).asked = s.asked := rfl
@[simp] theorem State.storeRead_readAnswers (j : Nat) (bytes : List Byte) : (s.storeRead j bytes).readAnswers = s.readAnswers := rfl
@[simp] theorem State.storeRead_expiredAnswers (j : Nat) (bytes : List Byte) : (s.storeRead j bytes).expiredAnswers = s.expiredAnswers := rfl
@[simp] theorem State.storeRead_draws (j : Nat) (bytes : List Byte) : (s.storeRead j bytes).draws = s.draws := rfl

end Sys2Proof.Machine
end

