-- ==== Sys2Proof/Laws/Port.lean ====
section
/-! SUPPORT. What each port operation can do, once: the events it adds, in the shape the spec gives them,
and nothing else. Later proofs cite these and never unfold the operation. -/

namespace Sys2Proof.Machine

/-! ## Pushes and port runs -/

@[simp] theorem pushed_nil : pushed [] = [] := rfl

theorem pushed_append (es fs : List PortEvent) : pushed (es ++ fs) = pushed es ++ pushed fs := by
  induction es with
  | nil => rfl
  | cons e es ih =>
    cases e with
    | regWrite r v => cases r <;> simp [pushed, ih]
    | _ => simp [pushed, ih]

theorem PortRun.trace_eq {s t : State} {evs : List PortEvent} (h : PortRun s evs t) :
    t.trace = s.trace ++ evs := by rw [h]

theorem PortRun.dataCmds_eq {s t : State} {evs : List PortEvent} (h : PortRun s evs t) :
    t.dataCmds = s.dataCmds ++ pushed evs := by rw [h]

theorem PortRun.refl (s : State) : PortRun s [] s := by
  unfold PortRun
  cases s
  simp

theorem PortRun.trans {s t u : State} {es fs : List PortEvent} (h : PortRun s es t) (k : PortRun t fs u) :
    PortRun s (es ++ fs) u := by
  unfold PortRun at *
  rw [k, h]
  simp [pushed_append]

/-! ## Primitives -/

theorem emit_run (e : PortEvent) (s : State) (h : pushed [e] = []) : PortRun s [e] (s.emit e) := by
  unfold PortRun State.emit
  rw [h]
  cases s
  simp

theorem ack_run (b : IntrBit) (s : State) : PortRun s [.ack b] (s.ack b) := emit_run _ s rfl

theorem delay_run (us : Nat) (s : State) : PortRun s [.delay us] (s.delay us) := emit_run _ s rfl

theorem regWrite_run (r : Reg) (v : Word) (s : State) : PortRun s [.regWrite r v] (s.regWrite r v) := by
  unfold PortRun State.regWrite
  cases r <;> simp [pushed]

theorem regWrites_run (ws : List (Reg × Word)) (s : State) : PortRun s (writeEvents ws) (s.regWrites ws) := by
  induction ws generalizing s with
  | nil => exact PortRun.refl s
  | cons w ws ih => exact (regWrite_run w.1 w.2 s).trans (ih _)

theorem dropRead_run (s : State) : PortRun s [] s.dropRead := by
  unfold PortRun State.dropRead
  cases s with
  | mk => rename_i ra _ _; cases ra <;> simp

theorem dropExpired_run (s : State) : PortRun s [] s.dropExpired := by
  unfold PortRun State.dropExpired
  cases s with
  | mk => rename_i ea _; cases ea <;> simp

theorem afterRead_run (r : Reg) (s : State) : PortRun s [.regRead r (s.readValue r)] (s.afterRead r) :=
  (dropRead_run s).trans (emit_run _ _ (by cases r <;> rfl))

/-- A read's value has no bit outside the valid mask (R20, R82). -/
theorem readValue_valid (r : Reg) (s : State) : s.readValue r &&& r.valid s.params = s.readValue r := by
  simp [State.readValue, BitVec.and_assoc]

theorem afterExpired_run (k : Nat) (s : State) : PortRun s [.expired k (s.isExpired k)] (s.afterExpired k) := by
  unfold State.afterExpired
  split
  · exact emit_run _ s rfl
  · exact (dropExpired_run s).trans (emit_run _ _ rfl)

/-- From the eleventh delay on, `Expired` answers true (R183). -/
theorem isExpired_late {k : Nat} (h : 11 ≤ k) (s : State) : s.isExpired k = true := by
  unfold State.isExpired Config.pollExhausted
  rw [if_pos h]

/-- A read that the input list answers (R20, R82). -/
theorem afterRead_cons {s : State} {v : Word} {vs : List Word} (r : Reg) (h : s.readAnswers = v :: vs) :
    s.readValue r = v &&& r.valid s.params ∧
    s.afterRead r = { s with trace := s.trace ++ [.regRead r (v &&& r.valid s.params)], readAnswers := vs } := by
  simp [State.readValue, State.nextRaw, State.afterRead, State.dropRead, State.emit, h]

/-- A question of the time source that the input list answers, k at most 10 (R183). -/
theorem afterExpired_cons {s : State} {e : Bool} {es : List Bool} (k : Nat) (hk : k ≤ 10)
    (h : s.expiredAnswers = e :: es) :
    s.isExpired k = e ∧
    s.afterExpired k = { s with trace := s.trace ++ [.expired k e], expiredAnswers := es } := by
  have hn : ¬ Config.pollExhausted ≤ k := by simp [Config.pollExhausted]; omega
  unfold State.afterExpired State.isExpired
  rw [if_neg hn, if_neg hn]
  simp [State.nextExpired, State.dropExpired, State.emit, h]

/-- From the eleventh delay on, a question of the time source uses up no answer (R183). -/
theorem afterExpired_late {k : Nat} (hk : 11 ≤ k) (s : State) :
    s.afterExpired k = { s with trace := s.trace ++ [.expired k true] } := by
  have hn : Config.pollExhausted ≤ k := hk
  unfold State.afterExpired
  rw [if_pos hn, isExpired_late hk]
  rfl

/-! ## Interrupt read-and-clear -/

/-- Without TX_ABRT among the asserted bits only the acknowledges happen. -/
theorem ackAll_plain (bs : List IntrBit) (st src : Word) (s : State)
    (h : IntrBit.txAbrt ∉ bs.filter (fun b => b.isSet st)) (x : Word) :
    ackAll bs st src s = (src, { s with trace := s.trace ++ ackEvents st x bs }) := by
  induction bs generalizing s with
  | nil => cases s; simp [ackAll, ackEvents]
  | cons b bs ih =>
    unfold ackAll
    by_cases hb : b.isSet st = true
    · have hne : b ≠ .txAbrt := by
        rintro rfl
        exact h (by simp [hb])
      have h' : IntrBit.txAbrt ∉ bs.filter (fun b => b.isSet st) := fun hm => h (by simp [hb] at hm ⊢; exact .inr hm)
      rw [if_pos hb, if_neg hne, ih (s.ack b) h']
      simp [State.ack, State.emit, ackEvents, hb, hne]
    · have h' : IntrBit.txAbrt ∉ bs.filter (fun b => b.isSet st) := fun hm => h (by simpa [hb] using hm)
      rw [if_neg hb, ih s h']
      simp [ackEvents, hb]

theorem ackAll_noAbort (bs : List IntrBit) (st src : Word) (s : State)
    (h : IntrBit.txAbrt ∉ bs.filter (fun b => b.isSet st)) :
    (ackAll bs st src s).1 = src ∧ ∀ x, PortRun s (ackEvents st x bs) (ackAll bs st src s).2 := by
  refine ⟨by rw [ackAll_plain bs st src s h 0], fun x => ?_⟩
  rw [ackAll_plain bs st src s h x]
  unfold PortRun
  have hp : pushed (ackEvents st x bs) = [] := by
    unfold ackEvents
    induction bs.filter (fun b => b.isSet st) with
    | nil => rfl
    | cons b bs ih => rw [List.flatMap_cons, pushed_append, ih]; split <;> rfl
  simp [hp]

/-- With TX_ABRT among them, its source is the input list's next answer. -/
theorem ackAll_abort (bs : List IntrBit) (hn : bs.Nodup) (st src v : Word) (vs : List Word) (s : State)
    (h : IntrBit.txAbrt ∈ bs.filter (fun b => b.isSet st)) (hr : s.readAnswers = v :: vs) :
    ackAll bs st src s = (v &&& s.params.abrtSourceMask,
      { s with
        trace := s.trace ++ ackEvents st (v &&& s.params.abrtSourceMask) bs
        readAnswers := vs }) := by
  induction bs generalizing s with
  | nil => cases h
  | cons b bs ih =>
    have hn' := List.nodup_cons.mp hn
    unfold ackAll
    by_cases hb : b.isSet st = true
    · rw [if_pos hb]
      by_cases ha : b = .txAbrt
      · subst ha
        have hno : IntrBit.txAbrt ∉ bs.filter (fun b => b.isSet st) := fun hm => hn'.1 (List.mem_filter.mp hm).1
        obtain ⟨h1, h2⟩ := afterRead_cons .txAbrtSource hr
        rw [if_pos rfl, h1, h2, ackAll_plain bs st _ _ hno (v &&& s.params.abrtSourceMask)]
        simp [State.ack, State.emit, ackEvents, hb, Reg.valid]
      · have h' : IntrBit.txAbrt ∈ bs.filter (fun b => b.isSet st) := by
          simp [hb] at h ⊢; exact h.resolve_left (fun e => ha e.symm)
        rw [if_neg ha, ih hn'.2 (s.ack b) h' hr]
        simp [State.ack, State.emit, ackEvents, hb, ha]
    · rw [if_neg hb, ih hn'.2 s (by simpa [hb] using h) hr]
      simp [ackEvents, hb]

theorem ackAll_run (bs : List IntrBit) (hn : bs.Nodup) (st src : Word) (s : State) :
    PortRun s (ackEvents st (ackAll bs st src s).1 bs) (ackAll bs st src s).2 := by
  induction bs generalizing s src with
  | nil => exact PortRun.refl s
  | cons b bs ih =>
    have hn' := (List.nodup_cons.mp hn)
    by_cases hb : b.isSet st = true
    · by_cases ha : b = .txAbrt
      · subst ha
        have hno : IntrBit.txAbrt ∉ bs.filter (fun b => b.isSet st) := fun hm => hn'.1 (List.mem_filter.mp hm).1
        obtain ⟨h1, h2⟩ := ackAll_noAbort bs st (s.readValue .txAbrtSource) ((s.afterRead .txAbrtSource).ack .txAbrt) hno
        have hrun := ((afterRead_run .txAbrtSource s).trans (ack_run .txAbrt _)).trans (h2 (s.readValue .txAbrtSource))
        have e : ackAll (.txAbrt :: bs) st src s
            = ackAll bs st (s.readValue .txAbrtSource) ((s.afterRead .txAbrtSource).ack .txAbrt) := by
          simp [ackAll, hb]
        rw [e, h1]
        simpa [ackEvents, hb] using hrun
      · have e : ackAll (b :: bs) st src s = ackAll bs st src (s.ack b) := by
          simp [ackAll, hb, ha]
        rw [e]
        have := (ack_run b s).trans (ih hn'.2 src (s.ack b))
        simpa [ackEvents, hb, ha] using this
    · have e : ackAll (b :: bs) st src s = ackAll bs st src s := by simp [ackAll, hb]
      rw [e]
      simpa [ackEvents, hb] using ih hn'.2 src s

theorem intrBits_nodup : intrBits.Nodup := by decide

/-- `ReadClearIntr()` reads the masked status once, then acknowledges (R170). -/
theorem readClearIntr_run (s : State) :
    PortRun s (clearEvents (readClearIntr s).st (readClearIntr s).src) (readClearIntr s).after :=
  (afterRead_run .intrStat s).trans (ackAll_run intrBits intrBits_nodup _ 0 _)

theorem txAbrt_mem (st : Word) : IntrBit.txAbrt ∈ intrBits.filter (fun b => b.isSet st) ↔ st.getLsbD 6 = true := by
  rw [List.mem_filter]
  exact ⟨fun h => h.2, fun h => ⟨by decide, h⟩⟩

/-- The helper where the input list answers a status without TX_ABRT (R170). -/
theorem readClearIntr_plain {s : State} {v : Word} {vs : List Word} (hr : s.readAnswers = v :: vs)
    (h : (v &&& 0x3FFF).getLsbD 6 = false) :
    readClearIntr s = { st := v &&& 0x3FFF, src := 0, after :=
      { s with trace := s.trace ++ clearEvents (v &&& 0x3FFF) 0, readAnswers := vs } } := by
  obtain ⟨h1, h2⟩ := afterRead_cons .intrStat hr
  change s.readValue .intrStat = v &&& 0x3FFF at h1
  change s.afterRead .intrStat = { s with trace := s.trace ++ [.regRead .intrStat (v &&& 0x3FFF)], readAnswers := vs } at h2
  unfold readClearIntr
  simp only [h1, h2]
  rw [ackAll_plain intrBits _ 0 _ (fun hm => Bool.noConfusion (((txAbrt_mem _).mp hm).symm.trans h)) 0]
  simp [clearEvents]

/-- The helper where the input list answers a status with TX_ABRT and then the source (R170). -/
theorem readClearIntr_abort {s : State} {v src : Word} {vs : List Word} (hr : s.readAnswers = v :: src :: vs)
    (h : (v &&& 0x3FFF).getLsbD 6 = true) :
    readClearIntr s = { st := v &&& 0x3FFF, src := src &&& s.params.abrtSourceMask, after :=
      { s with
        trace := s.trace ++ clearEvents (v &&& 0x3FFF) (src &&& s.params.abrtSourceMask)
        readAnswers := vs } } := by
  obtain ⟨h1, h2⟩ := afterRead_cons .intrStat hr
  change s.readValue .intrStat = v &&& 0x3FFF at h1
  change s.afterRead .intrStat = { s with trace := s.trace ++ [.regRead .intrStat (v &&& 0x3FFF)], readAnswers := src :: vs } at h2
  unfold readClearIntr
  simp only [h1, h2]
  rw [ackAll_abort intrBits intrBits_nodup _ 0 src vs _ ((txAbrt_mem _).mpr h) rfl]
  simp [clearEvents]

/-- Without TX_ABRT in the status the captured source is 0 (R170). -/
theorem readClearIntr_src (s : State) (h : IntrBit.txAbrt.isSet (readClearIntr s).st = false) :
    (readClearIntr s).src = 0 := by
  refine (ackAll_noAbort intrBits _ 0 _ ?_).1
  intro hm
  exact absurd (List.mem_filter.mp hm).2 (by simpa [readClearIntr] using h)

/-- The captured source is masked (R20, R82). -/
theorem readClearIntr_src_masked (s : State) : Masked s.params .txAbrtSource (readClearIntr s).src := by
  have key : ∀ (bs : List IntrBit) (st src : Word) (t : State), Masked t.params .txAbrtSource src →
      Masked t.params .txAbrtSource (ackAll bs st src t).1 := by
    intro bs
    induction bs with
    | nil => intro st src t h; exact h
    | cons b bs ih =>
      intro st src t h
      unfold ackAll
      split
      · split
        · have hp : ((t.afterRead .txAbrtSource).ack b).params = t.params := by
            rw [((afterRead_run .txAbrtSource t).trans (ack_run b _))]
          have := ih st (t.readValue .txAbrtSource) ((t.afterRead .txAbrtSource).ack b)
          rw [hp] at this
          exact this (readValue_valid .txAbrtSource t)
        · exact ih st src (t.ack b) h
      · exact ih st src t h
  have hp : (s.afterRead .intrStat).params = s.params := by rw [afterRead_run .intrStat s]
  have := key intrBits (s.readValue .intrStat) 0 (s.afterRead .intrStat) (BitVec.zero_and)
  rw [hp] at this
  exact this

theorem PortRun.params_eq {s t : State} {evs : List PortEvent} (h : PortRun s evs t) : t.params = s.params := by rw [h]

/-! ## Bounded poll and disable sequence -/

/-- One round of the abort poll, by what it reads (R171, R173). -/
theorem abortPoll_done (left k : Nat) (s : State) (h : abortBit (s.readValue .enable) = false) :
    abortPoll left k s = (true, s.afterRead .enable) := by
  cases left <;> exact if_pos h

theorem abortPoll_expired (left k : Nat) (s : State) (h : abortBit (s.readValue .enable) = true)
    (hx : (s.afterRead .enable).isExpired k = true) :
    abortPoll left k s = (false, (s.afterRead .enable).afterExpired k) := by
  have hn : ¬ abortBit (s.readValue .enable) = false := fun hc => Bool.noConfusion (h.symm.trans hc)
  cases left
  · exact if_neg hn
  · exact (if_neg hn).trans (if_pos hx)

theorem abortPoll_again (left k : Nat) (s : State) (h : abortBit (s.readValue .enable) = true)
    (hx : (s.afterRead .enable).isExpired k = false) :
    abortPoll (left + 1) k s = abortPoll left (k + 1) (((s.afterRead .enable).afterExpired k).delay 10) :=
  (if_neg (fun hc => Bool.noConfusion (h.symm.trans hc))).trans
    (if_neg (fun hc => Bool.noConfusion (hx.symm.trans hc)))

theorem abortPoll_run (left k : Nat) (hk : left + k = 11) (s : State) :
    ∃ evs, PortRun s evs (abortPoll left k s).2 ∧ AbortPollShape s.params k evs (abortPoll left k s).1 := by
  have hr := (afterRead_run .enable s).trans (afterExpired_run k _)
  have m := readValue_valid .enable s
  cases hv : abortBit (s.readValue .enable)
  · rw [abortPoll_done left k s hv]
    exact ⟨_, afterRead_run .enable s, .done k _ m hv⟩
  · cases hx : (s.afterRead .enable).isExpired k <;> rw [hx] at hr
    · cases left with
      | zero => exact absurd (isExpired_late (k := k) (by omega) (s.afterRead .enable)) (by simp [hx])
      | succ left =>
        rw [abortPoll_again left k s hv hx]
        obtain ⟨evs, h1, h2⟩ := abortPoll_run left (k + 1) (by omega) (((s.afterRead .enable).afterExpired k).delay 10)
        rw [(hr.trans (delay_run 10 _)).params_eq] at h2
        exact ⟨_, (hr.trans (delay_run 10 _)).trans h1, .again k _ evs _ m hv (by omega) h2⟩
    · rw [abortPoll_expired left k s hv hx]
      exact ⟨_, hr, .timeout k _ m hv⟩

/-- An attempt that finds the adapter inactive ends the loop (R175). -/
theorem disableLoop_idle (n : Nat) (s : State)
    (h : activityBit ((s.regWrite .enable 0).readValue .enableStatus) = false) :
    disableLoop (n + 1) s = (.disabled, (s.regWrite .enable 0).afterRead .enableStatus) := if_pos h

/-- The last attempt gives up where the adapter is still active (R176). -/
theorem disableLoop_last (s : State)
    (h : activityBit ((s.regWrite .enable 0).readValue .enableStatus) = true) :
    disableLoop 1 s = (.disableTimeout, (s.regWrite .enable 0).afterRead .enableStatus) :=
  (if_neg (fun hc => Bool.noConfusion (h.symm.trans hc))).trans (if_pos rfl)

/-- An earlier attempt that finds the adapter active sleeps and tries again (R175). -/
theorem disableLoop_busy (n : Nat) (s : State)
    (h : activityBit ((s.regWrite .enable 0).readValue .enableStatus) = true) :
    disableLoop (n + 2) s = disableLoop (n + 1) (((s.regWrite .enable 0).afterRead .enableStatus).delay 25) :=
  (if_neg (fun hc => Bool.noConfusion (h.symm.trans hc))).trans (if_neg (by omega))

theorem disableLoop_run (n : Nat) (s : State) :
    ∃ evs, PortRun s evs (disableLoop (n + 1) s).2 ∧ DisableLoopShape s.params (n + 1) evs (disableLoop (n + 1) s).1 := by
  have hr := (regWrite_run .enable 0 s).trans (afterRead_run .enableStatus _)
  have m : Masked s.params .enableStatus _ := readValue_valid .enableStatus (s.regWrite .enable 0)
  induction n generalizing s with
  | zero =>
    cases h : activityBit ((s.regWrite .enable 0).readValue .enableStatus)
    · rw [disableLoop_idle 0 s h]
      exact ⟨_, hr, .done 0 _ m h⟩
    · rw [disableLoop_last s h]
      exact ⟨_, hr, .last _ m h⟩
  | succ n ih =>
    cases h : activityBit ((s.regWrite .enable 0).readValue .enableStatus)
    · rw [disableLoop_idle (n + 1) s h]
      exact ⟨_, hr, .done (n + 1) _ m h⟩
    · rw [disableLoop_busy n s h]
      obtain ⟨evs, h1, h2⟩ := ih (((s.regWrite .enable 0).afterRead .enableStatus).delay 25)
        ((regWrite_run .enable 0 _).trans (afterRead_run .enableStatus _))
        (readValue_valid .enableStatus _)
      rw [(hr.trans (delay_run 25 _)).params_eq] at h2
      exact ⟨_, (hr.trans (delay_run 25 _)).trans h1, .again n _ evs _ m h h2⟩

/-- Where the abort completes, the disable loop follows (R173). -/
theorem abortThenDisable_done (en : Word) (s : State)
    (h : (abortPoll 11 0 (s.regWrite .enable (en ||| enAbort))).1 = true) :
    abortThenDisable en s = disableLoop 100 (abortPoll 11 0 (s.regWrite .enable (en ||| enAbort))).2 := if_pos h

/-- Where the abort poll times out, the sequence is abandoned (R174). -/
theorem abortThenDisable_timeout (en : Word) (s : State)
    (h : (abortPoll 11 0 (s.regWrite .enable (en ||| enAbort))).1 = false) :
    abortThenDisable en s = (.abortTimeout, (abortPoll 11 0 (s.regWrite .enable (en ||| enAbort))).2) :=
  if_neg (fun hc => Bool.noConfusion (h.symm.trans hc))

/-- A hold with no abort requested yet: the abort is requested (R172). -/
theorem disableBody_hold (s : State)
    (h : IntrBit.mstOnHold.isSet (s.readValue .rawIntrStat) = true ∧
      abortBit ((s.afterRead .rawIntrStat).readValue .enable) = false) :
    disableBody s = abortThenDisable ((s.afterRead .rawIntrStat).readValue .enable)
      ((s.afterRead .rawIntrStat).afterRead .enable) := if_pos h

/-- No hold, or an abort already requested: straight to the loop (R172, R182). -/
theorem disableBody_direct (s : State)
    (h : ¬ (IntrBit.mstOnHold.isSet (s.readValue .rawIntrStat) = true ∧
      abortBit ((s.afterRead .rawIntrStat).readValue .enable) = false)) :
    disableBody s = disableLoop 100 ((s.afterRead .rawIntrStat).afterRead .enable) := if_neg h

theorem disableBody_run (s : State) :
    ∃ evs, PortRun s evs (disableBody s).2 ∧ DisableShape s.params evs (disableBody s).1 := by
  have hr := (afterRead_run .rawIntrStat s).trans (afterRead_run .enable _)
  have mr := readValue_valid .rawIntrStat s
  have me := readValue_valid .enable (s.afterRead .rawIntrStat)
  rw [(afterRead_run .rawIntrStat s).params_eq] at me
  by_cases h : IntrBit.mstOnHold.isSet (s.readValue .rawIntrStat) = true ∧
      abortBit ((s.afterRead .rawIntrStat).readValue .enable) = false
  · rw [disableBody_hold s h]
    generalize (s.afterRead .rawIntrStat).readValue .enable = en at *
    have hw := hr.trans (regWrite_run .enable (en ||| enAbort) _)
    obtain ⟨pe, hp, hps⟩ := abortPoll_run 11 0 rfl (((s.afterRead .rawIntrStat).afterRead .enable).regWrite .enable
      (en ||| enAbort))
    cases hb : (abortPoll 11 0 (((s.afterRead .rawIntrStat).afterRead .enable).regWrite .enable (en ||| enAbort))).1
      <;> rw [hb, hw.params_eq] at hps
    · rw [abortThenDisable_timeout _ _ hb]
      exact ⟨_, hw.trans hp, DisableShape.abortFailed _ _ pe mr me h hps⟩
    · rw [abortThenDisable_done _ _ hb]
      obtain ⟨le, hl, hls⟩ := disableLoop_run 99 (abortPoll 11 0
        (((s.afterRead .rawIntrStat).afterRead .enable).regWrite .enable (en ||| enAbort))).2
      rw [(hw.trans hp).params_eq] at hls
      exact ⟨_, by simpa using (hw.trans hp).trans hl, DisableShape.aborted _ _ pe le _ mr me h hps hls⟩
  · rw [disableBody_direct s h]
    obtain ⟨le, hl, hls⟩ := disableLoop_run 99 ((s.afterRead .rawIntrStat).afterRead .enable)
    rw [hr.params_eq] at hls
    exact ⟨_, hr.trans hl, DisableShape.direct _ _ le _ mr me h hls⟩

/-- `Disable()` adds events of R177's shape, records the outcome, and changes nothing else (R178). -/
theorem disableSeq_run (s : State) :
    ∃ evs t, PortRun s evs t ∧ DisableShape s.params evs (disableSeq s).1 ∧
      (disableSeq s).2 = { t with lastDisable := some (disableSeq s).1 } := by
  obtain ⟨evs, h1, h2⟩ := disableBody_run s
  exact ⟨evs, _, h1, h2, rfl⟩

/-! ## The read path's poll and pops -/

/-- One iteration of the read path's poll, by what the status shows (R222, R304). -/
theorem readPoll_abort (left k : Nat) (s : State) (h : IntrBit.txAbrt.isSet (readClearIntr s).st = true) :
    readPoll left k s = (.abort (readClearIntr s).src, (readClearIntr s).after) := by
  cases left <;> exact if_pos h

theorem readPoll_full (left k : Nat) (s : State) (h : IntrBit.txAbrt.isSet (readClearIntr s).st = false)
    (hf : IntrBit.rxFull.isSet (readClearIntr s).st = true) :
    readPoll left k s = (.full, (readClearIntr s).after) := by
  cases left <;> exact (if_neg (fun hc => Bool.noConfusion (h.symm.trans hc))).trans (if_pos hf)

theorem readPoll_expired (left k : Nat) (s : State) (h : IntrBit.txAbrt.isSet (readClearIntr s).st = false)
    (hf : IntrBit.rxFull.isSet (readClearIntr s).st = false) (hx : (readClearIntr s).after.isExpired k = true) :
    readPoll left k s = (.timeout, (readClearIntr s).after.afterExpired k) := by
  cases left
  · exact (if_neg (fun hc => Bool.noConfusion (h.symm.trans hc))).trans
      (if_neg (fun hc => Bool.noConfusion (hf.symm.trans hc)))
  · exact (if_neg (fun hc => Bool.noConfusion (h.symm.trans hc))).trans
      ((if_neg (fun hc => Bool.noConfusion (hf.symm.trans hc))).trans (if_pos hx))

theorem readPoll_again (left k : Nat) (s : State) (h : IntrBit.txAbrt.isSet (readClearIntr s).st = false)
    (hf : IntrBit.rxFull.isSet (readClearIntr s).st = false) (hx : (readClearIntr s).after.isExpired k = false) :
    readPoll (left + 1) k s = readPoll left (k + 1) (((readClearIntr s).after.afterExpired k).delay 10) :=
  (if_neg (fun hc => Bool.noConfusion (h.symm.trans hc))).trans
    ((if_neg (fun hc => Bool.noConfusion (hf.symm.trans hc))).trans
      (if_neg (fun hc => Bool.noConfusion (hx.symm.trans hc))))

theorem readPoll_run (left k : Nat) (hk : left + k = 11) (s : State) :
    ∃ evs, PortRun s evs (readPoll left k s).2 ∧ ReadPollShape s.params k evs (readPoll left k s).1 := by
  have hr := readClearIntr_run s
  have m : Masked s.params .intrStat (readClearIntr s).st := readValue_valid .intrStat s
  have ms := readClearIntr_src_masked s
  have hx := afterExpired_run k (readClearIntr s).after
  cases ha : IntrBit.txAbrt.isSet (readClearIntr s).st
  · rw [readClearIntr_src s ha] at hr
    cases hf : IntrBit.rxFull.isSet (readClearIntr s).st
    · cases he : (readClearIntr s).after.isExpired k <;> rw [he] at hx
      · cases left with
        | zero => exact absurd (isExpired_late (k := k) (by omega) (readClearIntr s).after) (by simp [he])
        | succ left =>
          rw [readPoll_again left k s ha hf he]
          obtain ⟨evs, h1, h2⟩ := readPoll_run left (k + 1) (by omega)
            (((readClearIntr s).after.afterExpired k).delay 10)
          rw [(hr.trans (hx.trans (delay_run 10 _))).params_eq] at h2
          exact ⟨_, by simpa using (hr.trans (hx.trans (delay_run 10 _))).trans h1,
            ReadPollShape.again k _ evs _ m ha hf (by omega) h2⟩
      · rw [readPoll_expired left k s ha hf he]
        exact ⟨_, hr.trans hx, .timeout k _ m ha hf⟩
    · rw [readPoll_full left k s ha hf]
      exact ⟨_, hr, .full k _ m ha hf⟩
  · rw [readPoll_abort left k s ha]
    exact ⟨_, hr, .abort k _ _ m ms ha⟩

/-- `n` pops read DATA_CMD `n` times and store `n` bytes, each the substitution's of its word (R224). -/
theorem popBytes_run (n : Nat) (s : State) :
    ∃ ws : List Word, ws.length = n ∧ PortRun s (ws.map (.regRead .dataCmd)) (popBytes n s).2 ∧
      (popBytes n s).1 = ws.map (storedByte s.rxFlag.recvLen) ∧ ∀ w ∈ ws, w &&& 0xFFF = w := by
  induction n generalizing s with
  | zero => exact ⟨[], rfl, PortRun.refl s, rfl, by simp⟩
  | succ n ih =>
    have hr := afterRead_run .dataCmd s
    have hv := readValue_valid .dataCmd s
    have hf : (s.afterRead .dataCmd).rxFlag = s.rxFlag := by rw [hr]
    obtain ⟨ws, hl, h1, h2, h3⟩ := ih (s.afterRead .dataCmd)
    rw [hf] at h2
    refine ⟨s.readValue .dataCmd :: ws, by simp [hl], hr.trans h1, by simp [popBytes, h2], ?_⟩
    intro w hw
    rcases List.mem_cons.mp hw with rfl | hw
    · exact hv
    · exact h3 w hw

end Sys2Proof.Machine
end

