-- ==== Sys2Proof/Laws/Commands.lean ====
section
/-! SUPPORT. What the configuration commands, the disable sequence and transfer setup leave, each said once. -/

namespace Sys2Proof.Machine

/-- A command taken while Idle ends with its result (R47). -/
theorem runCommand_idle (f : State → State) (r : State → Result) (s : State) (h : s.cmd = .idle) :
    runCommand f r s = .next ((f s).endCommand (r s)) := by
  unfold runCommand
  rw [h]

/-- A command completes only while Idle, and then with its result. -/
theorem runCommand_next {f : State → State} {r : State → Result} {s t : State} (h : runCommand f r s = .next t) :
    s.cmd = .idle ∧ t = (f s).endCommand (r s) := by
  unfold runCommand at h
  cases hc : s.cmd <;> rw [hc] at h <;> simp at h
  exact ⟨rfl, h.symm⟩

/-! ## No piece of a disable sequence pushes a data command -/

theorem DisableLoopShape.pushed_eq {p : Params} {n : Nat} {evs : List PortEvent} {o : DisableOutcome}
    (h : DisableLoopShape p n evs o) : pushed evs = [] := by
  induction h <;> simp_all [pushed]

theorem AbortPollShape.pushed_eq {p : Params} {k : Nat} {evs : List PortEvent} {r : Bool}
    (h : AbortPollShape p k evs r) :
    pushed evs = [] := by
  induction h <;> simp_all [pushed]

theorem DisableShape.pushed_eq {p : Params} {evs : List PortEvent} {o : DisableOutcome} (h : DisableShape p evs o) :
    pushed evs = [] := by
  cases h with
  | direct _ _ _ _ _ _ _ l => simpa [pushed] using l.pushed_eq
  | aborted _ _ _ _ _ _ _ _ q l => simp [pushed, pushed_append, l.pushed_eq, q.pushed_eq]
  | abortFailed _ _ _ _ _ _ q => simpa [pushed] using q.pushed_eq

theorem pushed_ackEvents (st src : Word) (bs : List IntrBit) : pushed (ackEvents st src bs) = [] := by
  unfold ackEvents
  induction bs.filter (fun b => b.isSet st) with
  | nil => rfl
  | cons b bs ih =>
    rw [List.flatMap_cons, pushed_append, ih]
    split <;> rfl

theorem pushed_clearEvents (st src : Word) : pushed (clearEvents st src) = [] := pushed_ackEvents st src intrBits

theorem ReadPollShape.pushed_eq {p : Params} {k : Nat} {evs : List PortEvent} {e : PollEnd}
    (h : ReadPollShape p k evs e) :
    pushed evs = [] := by
  induction h <;> simp_all [pushed, pushed_append, pushed_clearEvents]

/-- Where nothing is pushed, a port run leaves the command stream alone. -/
theorem PortRun.plain {s t : State} {evs : List PortEvent} (h : PortRun s evs t) (hp : pushed evs = []) :
    t = { s with
          trace := s.trace ++ evs
          readAnswers := t.readAnswers
          expiredAnswers := t.expiredAnswers
          draws := t.draws } := by
  unfold PortRun at h
  rw [hp, List.append_nil] at h
  exact h

/-- `Disable()` (R178): events of R177's shape, the outcome recorded, inputs used up; nothing else. -/
theorem disableSeq_spec (s : State) :
    ∃ evs, DisableShape s.params evs (disableSeq s).1 ∧
      (disableSeq s).2 =
        { s with
          trace := s.trace ++ evs
          lastDisable := some (disableSeq s).1
          readAnswers := (disableSeq s).2.readAnswers
          expiredAnswers := (disableSeq s).2.expiredAnswers
          draws := (disableSeq s).2.draws } := by
  obtain ⟨evs, u, hr, hs, he⟩ := disableSeq_run s
  refine ⟨evs, hs, ?_⟩
  rw [he, hr.plain hs.pushed_eq]

/-! ## Register writes that push nothing -/

theorem regWrites_plain (ws : List (Reg × Word)) (s : State) (h : ∀ w ∈ ws, w.1 ≠ .dataCmd) :
    s.regWrites ws = { s with trace := s.trace ++ writeEvents ws } := by
  induction ws generalizing s with
  | nil => simp [State.regWrites, writeEvents]
  | cons w ws ih =>
    rw [State.regWrites, ih _ (fun x hx => h x (List.mem_cons_of_mem _ hx)), State.regWrite,
      if_neg (h w List.mem_cons_self)]
    simp [writeEvents]

/-- The pushes of a list of words to DATA_CMD. -/
theorem regWrites_pushes (ws : List Word) (s : State) :
    s.regWrites (ws.map (fun w => (.dataCmd, w))) =
      { s with trace := s.trace ++ ws.map (.regWrite .dataCmd), dataCmds := s.dataCmds ++ ws } := by
  induction ws generalizing s with
  | nil => simp [State.regWrites]
  | cons w ws ih => rw [List.map_cons, State.regWrites, ih]; simp [State.regWrite]

/-! ## Configuration -/

theorem countWritesOf_plain (t : Timing) : ∀ w ∈ countWritesOf t, w.1 ≠ .dataCmd := by
  intro w hw
  unfold countWritesOf at hw
  simp only [List.mem_append] at hw
  rcases hw with (hw | hw) | hw
  · rcases (by simpa using hw : w = _ ∨ w = _ ∨ w = _ ∨ w = _) with rfl | rfl | rfl | rfl <;> simp
  · split at hw
    · rcases (by simpa using hw : w = _ ∨ w = _) with rfl | rfl <;> simp
    · simp at hw
  · split at hw
    · rcases (by simpa using hw : w = _) with rfl
      simp
    · simp at hw

/-- The count writes as events (R145 to R148). -/
theorem writeEvents_countWritesOf (t : Timing) :
    writeEvents (countWritesOf t) =
      [.regWrite .ssHcnt t.ssHcnt, .regWrite .ssLcnt t.ssLcnt, .regWrite .fsHcnt t.fsHcnt, .regWrite .fsLcnt t.fsLcnt] ++
      (if t.hsHcnt ≠ 0 ∧ t.hsLcnt ≠ 0 then [.regWrite .hsHcnt t.hsHcnt, .regWrite .hsLcnt t.hsLcnt] else []) ++
      (if t.sdaHold ≠ 0 then [.regWrite .sdaHold t.sdaHold] else []) := by
  unfold countWritesOf writeEvents
  by_cases h : t.hsHcnt ≠ 0 ∧ t.hsLcnt ≠ 0 <;> by_cases k : t.sdaHold ≠ 0
  · rw [if_pos h, if_pos k, if_pos h, if_pos k]; rfl
  · rw [if_pos h, if_neg k, if_pos h, if_neg k]; rfl
  · rw [if_neg h, if_pos k, if_neg h, if_pos k]; rfl
  · rw [if_neg h, if_neg k, if_neg h, if_neg k]; rfl

theorem configureFifoMaster_eq (s : State) :
    configureFifoMaster s =
      { s with
        trace := s.trace ++
          [.regWrite .txTl (txThreshold s.params.txFifoDepth), .regWrite .rxTl 0, .regWrite .con s.masterCfg] } :=
  regWrites_plain _ s (by simp [fifoMasterWrites])

/-- Half the depth, where it fits 32 bits (R144). -/
theorem txThreshold_toNat (d : Nat) (h : d / 2 < 2 ^ 32) : (txThreshold d).toNat = d / 2 := by
  unfold txThreshold
  rw [if_pos h, BitVec.toNat_ofNat, Nat.mod_eq_of_lt h]

/-- What INIT_MASTER does after its disable sequence. -/
theorem configureAfter_eq (d : State) :
    ({ configureFifoMaster (configureMaster (d.regWrites (countWritesOf d.timing))) with initialized := true } : State) =
      { d with
        trace := d.trace ++ writeEvents (countWritesOf d.timing) ++
          [.regWrite .txTl (txThreshold d.params.txFifoDepth), .regWrite .rxTl 0,
           .regWrite .con (masterConfig d.params d.timing.busFreqHz)]
        functionality := { i2cDefault := true, tenBitAddr := true }
        masterCfg := masterConfig d.params d.timing.busFreqHz
        initialized := true } := by
  rw [regWrites_plain _ _ (countWritesOf_plain _), configureFifoMaster_eq]
  rfl

/-- INIT_MASTER (R145) as one update of the state. -/
theorem initMaster_spec (s : State) :
    ∃ evs, DisableShape s.params evs (disableSeq s).1 ∧
      initMaster s =
        { s with
          trace := s.trace ++ evs ++ writeEvents (countWritesOf s.timing) ++
            [.regWrite .txTl (txThreshold s.params.txFifoDepth), .regWrite .rxTl 0,
             .regWrite .con (masterConfig s.params s.timing.busFreqHz)]
          lastDisable := some (disableSeq s).1
          functionality := { i2cDefault := true, tenBitAddr := true }
          masterCfg := masterConfig s.params s.timing.busFreqHz
          initialized := true
          readAnswers := (disableSeq s).2.readAnswers
          expiredAnswers := (disableSeq s).2.expiredAnswers
          draws := (disableSeq s).2.draws } := by
  obtain ⟨evs, hs, he⟩ := disableSeq_spec s
  refine ⟨evs, hs, (configureAfter_eq (disableSeq s).2).trans ?_⟩
  generalize (disableSeq s).1 = o at *
  generalize (disableSeq s).2 = d at *
  obtain ⟨ra, ea, n, rfl⟩ : ∃ ra ea n, d = { s with
      trace := s.trace ++ evs, lastDisable := some o, readAnswers := ra, expiredAnswers := ea, draws := n } :=
    ⟨_, _, _, he⟩
  rfl

/-! ## Transfer setup -/

theorem setupWrites_plain (tar : Word) : ∀ w ∈ setupWrites tar, w.1 ≠ .dataCmd := by simp [setupWrites]

/-- What transfer setup does after its disable sequence. -/
theorem setupAfter_run (tar : Word) (d : State) :
    ∃ con es st src : Word, Masked d.params .con con ∧ Masked d.params .enableStatus es ∧
      Masked d.params .intrStat st ∧ Masked d.params .txAbrtSource src ∧ (IntrBit.txAbrt.isSet st = false → src = 0) ∧
      PortRun d
        ([.regRead .con con, .regWrite .con (conForTar tar con), .regWrite .tar tar, .regWrite .intrMask 0,
          .regWrite .enable 1, .regRead .enableStatus es] ++ clearEvents st src ++ [.regWrite .intrMask 0x254])
        ((readClearIntr ((((d.afterRead .con).regWrite .con (conForTar tar (d.readValue .con))).regWrites
          (setupWrites tar)).afterRead .enableStatus)).after.regWrite .intrMask intrMasterMask) := by
  have h1 := ((afterRead_run .con d).trans (regWrite_run .con (conForTar tar (d.readValue .con)) _)).trans
    (regWrites_run (setupWrites tar) _)
  generalize hw : ((d.afterRead .con).regWrite .con (conForTar tar (d.readValue .con))).regWrites (setupWrites tar) = w at *
  have h2 := h1.trans (afterRead_run .enableStatus w)
  generalize hv : w.afterRead .enableStatus = v at *
  have hpw : w.params = d.params := by rw [h1]
  have he := readValue_valid .enableStatus w
  rw [hpw] at he
  have hst : Masked v.params .intrStat (readClearIntr v).st := readValue_valid .intrStat v
  have hsr := readClearIntr_src_masked v
  rw [h2.params_eq] at hst hsr
  have h3 := (h2.trans (readClearIntr_run v)).trans (regWrite_run .intrMask intrMasterMask _)
  exact ⟨d.readValue .con, w.readValue .enableStatus, (readClearIntr v).st, (readClearIntr v).src,
    readValue_valid .con d, he, hst, hsr, readClearIntr_src v,
    by simpa [writeEvents, setupWrites, intrNone, enEnable, intrMasterMask] using h3⟩

/-- `XferInit(tar)` (R210) as one update of the state. -/
theorem xferInit_spec (tar : Word) (s : State) :
    ∃ (dis : List PortEvent) (o : DisableOutcome) (con es st src : Word),
      DisableShape s.params dis o ∧ Masked s.params .con con ∧ Masked s.params .enableStatus es ∧
      Masked s.params .intrStat st ∧ Masked s.params .txAbrtSource src ∧ (IntrBit.txAbrt.isSet st = false → src = 0) ∧
      xferInit tar s =
        { s with
          msgErr := false
          lastDisable := some o
          trace := s.trace ++ dis ++
            [.regRead .con con, .regWrite .con (conForTar tar con), .regWrite .tar tar, .regWrite .intrMask 0,
             .regWrite .enable 1, .regRead .enableStatus es] ++ clearEvents st src ++ [.regWrite .intrMask 0x254]
          readAnswers := (xferInit tar s).readAnswers
          expiredAnswers := (xferInit tar s).expiredAnswers
          draws := (xferInit tar s).draws } := by
  obtain ⟨dis, hs, he⟩ := disableSeq_spec { s with msgErr := false }
  obtain ⟨con, es, st, src, hc, hes, hst, hsr, h0, hr⟩ := setupAfter_run tar (disableSeq { s with msgErr := false }).2
  have hx : xferInit tar s = _ := hr.plain (by simp [pushed, pushed_append, pushed_clearEvents])
  have hp : (disableSeq { s with msgErr := false }).2.params = s.params := by rw [he]
  rw [hp] at hc hes hst hsr
  refine ⟨dis, _, con, es, st, src, hs, hc, hes, hst, hsr, h0, ?_⟩
  generalize hxx : xferInit tar s = x at *
  generalize (disableSeq { s with msgErr := false }).1 = o at *
  generalize (disableSeq { s with msgErr := false }).2 = d at *
  obtain ⟨ra, ea, n, rfl⟩ : ∃ ra ea n, d = { s with
      msgErr := false, trace := s.trace ++ dis, lastDisable := some o, readAnswers := ra, expiredAnswers := ea, draws := n } :=
    ⟨_, _, _, he⟩
  rw [hx]
  simp

end Sys2Proof.Machine
end

