-- ==== Sys2Proof/Laws/Encoding.lean ====
section
/-! SUPPORT. The small lemmas of the encoding: fields of words, packing of bytes, and the round trip of the
operations of a transaction, both ways (30_encoding.md R100 to R109, R117). -/

namespace Sys2Proof

/-- The bits of a data word (R109). -/
theorem packWord_getLsbD (a b c d : Byte) (i : Nat) :
    (packWord a b c d).getLsbD i = if i < 8 then a.getLsbD i else if i - 8 < 8 then b.getLsbD (i - 8) else
    if i - 8 - 8 < 8 then c.getLsbD (i - 8 - 8) else d.getLsbD (i - 8 - 8 - 8) := by
  show BitVec.getLsbD (w := 8 + 8 + 8 + 8) (d ++ c ++ b ++ a) i = _
  simp only [BitVec.getLsbD_append]

/-- A data word gives back its four bytes (R109). -/
theorem wordBytes_packWord (a b c d : Byte) : wordBytes (packWord a b c d) = [a, b, c, d] := by
  have h : ∀ (x : Byte) (k : Nat), (∀ i, i < 8 → (packWord a b c d).getLsbD (k + i) = x.getLsbD i) →
    (packWord a b c d).extractLsb' k 8 = x := by
    intro x k h
    apply BitVec.eq_of_getLsbD_eq
    intro i hi
    rw [BitVec.getLsbD_extractLsb', h i hi]
    simp [hi]
  unfold wordBytes
  rw [h a 0, h b 8, h c 16, h d 24]
  all_goals intro i hi; rw [packWord_getLsbD]
  · rw [if_neg (by omega), if_neg (by omega), if_neg (by omega)]; congr 1; omega
  · rw [if_neg (by omega), if_neg (by omega), if_pos (by omega)]; congr 1; omega
  · rw [if_neg (by omega), if_pos (by omega)]; congr 1; omega
  · rw [if_pos (by omega)]; congr 1; omega

/-- Every data word is the word of its four bytes (R109). -/
theorem packWord_wordBytes (w : Word) :
    packWord (w.extractLsb' 0 8) (w.extractLsb' 8 8) (w.extractLsb' 16 8) (w.extractLsb' 24 8) = w := by
  apply BitVec.eq_of_getLsbD_eq; intro i hi
  unfold packWord
  simp only [BitVec.getLsbD_append, BitVec.getLsbD_extractLsb']
  by_cases h1 : i < 8
  · simp [h1]
  · by_cases h2 : i < 16
    · have a : i - 8 < 8 := by omega
      have b : 8 + (i - 8) = i := by omega
      simp [h1, a, b]
    · by_cases h3 : i < 24
      · have a : ¬ i - 8 < 8 := by omega
        have a' : i - 8 - 8 < 8 := by omega
        have b : 16 + (i - 8 - 8) = i := by omega
        simp [h1, a, a', b]
      · have a : ¬ i - 8 < 8 := by omega
        have a' : ¬ i - 8 - 8 < 8 := by omega
        have a'' : i - 8 - 8 - 8< 8 := by omega
        have b : 24 + (i - 8 - 8 -8) = i := by omega
        simp [h1, a, a', a'', b]

/-- A buffer packs into ceil(LEN/4) words, which hold its bytes and zero padding (R109). -/
theorem packBytes_spec (buf : List Byte) :
    (packBytes buf).length = dataWords buf.length ∧ ∃ k, (packBytes buf).flatMap wordBytes =
    buf ++ List.replicate k 0 := by
  induction buf using packBytes.induct with
  | case1 => exact ⟨rfl, 0, rfl⟩
  | case2 a => exact ⟨by simp [packBytes, dataWords], 3, by simp [packBytes, wordBytes_packWord, List.replicate]⟩
  | case3 a b => exact ⟨by simp [packBytes, dataWords], 2, by simp [packBytes, wordBytes_packWord, List.replicate]⟩
  | case4 a b c => exact ⟨by simp [packBytes, dataWords], 1, by simp [packBytes, wordBytes_packWord, List.replicate]⟩
  | case5 a b c d rest ih =>
    obtain ⟨h1, k, h2⟩ := ih
    refine ⟨by simp [packBytes, h1, dataWords]; omega, k, by simp [packBytes, wordBytes_packWord, h2]⟩

/-- A write's packed bytes decode to them (R109). -/
theorem decodeWrite_packBytes (buf : List Byte) (rest : List Word) :
    decodeWrite buf.length (packBytes buf ++ rest) = .ok (buf, rest) := by
  obtain ⟨h1, k, h2⟩ := packBytes_spec buf
  unfold decodeWrite
  simp only [← h1]
  rw [if_neg (by simp), List.take_left, h2, List.drop_left, List.drop_left, List.take_left]
  simp

theorem descriptor_getLsbD (a : BitVec 4) (b : BitVec 12) (c : BitVec 16) (i : Nat) :
    (a ++ b ++ c : Word).getLsbD i = if i < 16 then c.getLsbD i else if i - 16 < 12 then b.getLsbD (i - 16) else
    a.getLsbD (i - 16 - 12) := by
  show BitVec.getLsbD (w := 4 + 12 + 16) (a ++ b ++ c) i = _
  simp only [BitVec.getLsbD_append]

/-- The three fields of an operation or transfer descriptor (R100). -/
theorem descriptor_fields (a : BitVec 4) (b : BitVec 12) (c : BitVec 16) :
    opc (a ++ b ++ c) = a ∧ fieldNops (a ++ b ++ c) = b ∧ fieldLen (a ++ b ++ c) = c := by
  refine ⟨?_, ?_, ?_⟩ <;> apply BitVec.eq_of_getLsbD_eq <;> intro i hi
  · unfold opc
    rw [BitVec.getLsbD_extractLsb', descriptor_getLsbD, if_neg (by omega), if_neg (by omega)]
    have : 28 + i - 16 - 12 = i := by omega
    simp [hi, this]
  · unfold fieldNops
    rw [BitVec.getLsbD_extractLsb', descriptor_getLsbD, if_neg (by omega), if_pos (by omega)]
    simp [hi]
  · unfold fieldLen
    rw [BitVec.getLsbD_extractLsb', descriptor_getLsbD, if_pos (by omega)]
    simp [hi]

/-- Every word is its three fields (R100). -/
theorem descriptor_split (w : Word) : w = opc w ++ fieldNops w ++ fieldLen w := by
  apply BitVec.eq_of_getLsbD_eq; intro i hi
  rw [descriptor_getLsbD]
  unfold opc fieldNops fieldLen
  simp only [BitVec.getLsbD_extractLsb']
  by_cases h1 : i < 16
  · simp [h1]
  · rw [if_neg h1]
    by_cases h2 : i - 16 < 12
    · have : 16 + (i - 16) = i := by omega
      simp [h2, this]
    · have : 28 + (i - 16 - 12) = i := by omega
      have h3 : i - 16 - 12 < 4 := by omega
      simp [h2, h3, this]

theorem transfer7_assoc (a : BitVec 4) (n : BitVec 12) (z : BitVec 9) (x : BitVec 7) :
    (a ++ n ++ z ++ x : Word) = a ++ n ++ (z ++ x : BitVec 16) := by
  apply BitVec.eq_of_getLsbD_eq; intro i hi
  rw [descriptor_getLsbD]
  show BitVec.getLsbD (w := 4 + 12 + 9 + 7) (a ++ n ++ z ++ x) i = if i < 16 then
    BitVec.getLsbD (w := 9 + 7) (z ++ x) i else _
  simp only [BitVec.getLsbD_append]
  by_cases h1 : i < 7
  · simp [h1, show i < 16 by omega]
  · by_cases h2 : i < 16
    · simp [h1, h2, show i - 7 < 9 by omega]
    · rw [if_neg h1, if_neg (by omega), if_neg h2]
      by_cases h3 : i < 28
      · rw [if_pos (by omega), if_pos (by omega)]; congr 1
      · rw [if_neg (by omega), if_neg (by omega)]; congr 1

theorem transfer10_assoc (a : BitVec 4) (n : BitVec 12) (z : BitVec 6) (x : BitVec 10) :
    (a ++ n ++ z ++ x : Word) = a ++ n ++ (z ++ x : BitVec 16) := by
  apply BitVec.eq_of_getLsbD_eq; intro i hi
  rw [descriptor_getLsbD]
  show BitVec.getLsbD (w := 4 + 12 + 6 + 10) (a ++ n ++ z ++ x) i = if i < 16 then
    BitVec.getLsbD (w := 6 + 10) (z ++ x) i else _
  simp only [BitVec.getLsbD_append]
  by_cases h1 : i < 10
  · simp [h1, show i < 16 by omega]
  · by_cases h2 : i < 16
    · simp [h1, h2, show i - 10 < 6 by omega]
    · rw [if_neg h1, if_neg (by omega), if_neg h2]
      by_cases h3 : i < 28
      · rw [if_pos (by omega), if_pos (by omega)]; congr 1
      · rw [if_neg (by omega), if_neg (by omega)]; congr 1

theorem extract_fieldLen (w : Word) (k l : Nat) (h : k + l ≤ 16) :
    w.extractLsb' k l = (fieldLen w).extractLsb' k l := by
  apply BitVec.eq_of_getLsbD_eq; intro i hi
  unfold fieldLen
  rw [BitVec.getLsbD_extractLsb', BitVec.getLsbD_extractLsb', BitVec.getLsbD_extractLsb']
  simp [hi, show k + i < 16 by omega]

/-- The fields of a TRANSFER7 word (R106). -/
theorem transfer7_fields (a : BitVec 4) (n : BitVec 12) (x : BitVec 7) : 
   opc (a ++ n ++ (0 : BitVec 9) ++ x) = a ∧ fieldNops (a ++ n ++ (0 : BitVec 9) ++ x) = n ∧
     (a ++ n ++ (0 : BitVec 9) ++ x : Word).extractLsb' 7 9 = 0 ∧
     (a ++ n ++ (0 : BitVec 9) ++ x : Word).extractLsb' 0 7 = x := by
  rw [transfer7_assoc]
  obtain ⟨h1, h2, h3⟩ := descriptor_fields a n ((0 : BitVec 9) ++ x : BitVec 16)
  refine ⟨h1, h2, ?_, ?_⟩
  · rw [extract_fieldLen _ _ _ (by omega), h3]; clear h1 h2 h3; revert x; decide
  · rw [extract_fieldLen _ _ _ (by omega), h3]; clear h1 h2 h3; revert x; decide

/-- The fields of a TRANSFER10 word (R107). -/
theorem transfer10_fields (a : BitVec 4) (n : BitVec 12) (x : BitVec 10) : 
   opc (a ++ n ++ (0 : BitVec 6) ++ x) = a ∧ fieldNops (a ++ n ++ (0 : BitVec 6) ++ x) = n ∧
     (a ++ n ++ (0 : BitVec 6) ++ x : Word).extractLsb' 10 6 = 0 ∧
     (a ++ n ++ (0 : BitVec 6) ++ x : Word).extractLsb' 0 10 = x := by
  rw [transfer10_assoc]
  obtain ⟨h1, h2, h3⟩ := descriptor_fields a n ((0 : BitVec 6) ++ x : BitVec 16)
  refine ⟨h1, h2, ?_, ?_⟩
  · rw [extract_fieldLen _ _ _ (by omega), h3]; clear h1 h2 h3; revert x; decide +kernel
  · rw [extract_fieldLen _ _ _ (by omega), h3]; clear h1 h2 h3; revert x; decide +kernel

theorem transfer7_split (w : Word) (h : w.extractLsb' 7 9 = 0) :
    w = opc w ++ fieldNops w ++ (0 : BitVec 9) ++ w.extractLsb' 0 7 := by
  rw [transfer7_assoc]
  conv => lhs; rw [descriptor_split w]
  congr 1
  rw [extract_fieldLen w _ _ (by omega)] at h
  rw [extract_fieldLen w _ _ (by omega)]
  generalize fieldLen w = x at *
  have : ∀ x : BitVec 16, x.extractLsb' 7 9 = 0 → x = (0 : BitVec 9) ++ x.extractLsb' 0 7 := by decide +kernel
  exact this x h

theorem transfer10_split (w : Word) (h : w.extractLsb' 10 6 = 0) :
    w = opc w ++ fieldNops w ++ (0 : BitVec 6) ++ w.extractLsb' 0 10 := by
  rw [transfer10_assoc]
  conv => lhs; rw [descriptor_split w]
  congr 1
  rw [extract_fieldLen w _ _ (by omega)] at h
  rw [extract_fieldLen w _ _ (by omega)]
  generalize fieldLen w = x at *
  have : ∀ x : BitVec 16, x.extractLsb' 10 6 = 0 → x = (0 : BitVec 6) ++ x.extractLsb' 0 10 := by decide +kernel
  exact this x h

/-- The two fields of a command word (R100). -/
theorem operand_fields (a : BitVec 4) (b : BitVec 28) : opc (a ++ b) = a ∧ fieldOperand (a ++ b) = b := by
  constructor <;> apply BitVec.eq_of_getLsbD_eq <;> intro i hi
  · unfold opc
    rw [BitVec.getLsbD_extractLsb', BitVec.getLsbD_append, if_neg (by omega)]; simp [hi]
  · unfold fieldOperand
    rw [BitVec.getLsbD_extractLsb', BitVec.getLsbD_append, if_pos (by omega)]; simp [hi]

/-- Every word is its OPC and its operand bits (R100). -/
theorem operand_split (w : Word) : w = opc w ++ fieldOperand w := by
  apply BitVec.eq_of_getLsbD_eq; intro i hi
  unfold opc fieldOperand
  rw [BitVec.getLsbD_append, BitVec.getLsbD_extractLsb', BitVec.getLsbD_extractLsb']
  by_cases h : i < 28
  · simp [h]
  · simp [h, show i - 28 < 4 by omega, show 28 + (i - 28) = i by omega]

theorem extract_operand (w : Word) (k l : Nat) (h : k + l ≤ 28) :
    w.extractLsb' k l = (fieldOperand w).extractLsb' k l := by
  apply BitVec.eq_of_getLsbD_eq; intro i hi
  unfold fieldOperand
  rw [BitVec.getLsbD_extractLsb', BitVec.getLsbD_extractLsb', BitVec.getLsbD_extractLsb']
  simp [hi, show k + i < 28 by omega]

theorem getLsbD_operand (w : Word) (k : Nat) (h : k < 28) : w.getLsbD k = (fieldOperand w).getLsbD k := by
  unfold fieldOperand; rw [BitVec.getLsbD_extractLsb']; simp [h]

theorem setTiming_assoc (a : BitVec 4) (s : BitVec 4) (v : BitVec 24) :
    (a ++ s ++ v : Word) = a ++ (s ++ v : BitVec 28) := by
  exact (BitVec.append_assoc).trans rfl

theorem setTiming_fields (s : BitVec 4) (v : BitVec 24) :
    (s ++ v : BitVec 28).extractLsb' 24 4 = s ∧ (s ++ v : BitVec 28).extractLsb' 0 24 = v := by
  constructor <;> apply BitVec.eq_of_getLsbD_eq <;> intro i hi
  · rw [BitVec.getLsbD_extractLsb', BitVec.getLsbD_append, if_neg (by omega)]; simp [hi]
  · rw [BitVec.getLsbD_extractLsb', BitVec.getLsbD_append, if_pos (by omega)]; simp [hi]

theorem setTiming_split (x : BitVec 28) : x = x.extractLsb' 24 4 ++ x.extractLsb' 0 24 := by
  apply BitVec.eq_of_getLsbD_eq; intro i hi
  rw [BitVec.getLsbD_append, BitVec.getLsbD_extractLsb', BitVec.getLsbD_extractLsb']
  by_cases h : i < 24
  · simp [h]
  · simp [h, show i - 24 < 4 by omega, show 24 + (i - 24) = i by omega]

/-- An operation round-trips (R109, R117). -/
theorem decodeOp_encodeOp (o : Op) (h : o.wf = true) (rest : List Word) :
    decodeOp (encodeOp o ++ rest) = .ok (o, rest) := by
  cases o with
  | write buf =>
    obtain ⟨h1, h2, h3⟩ := descriptor_fields 0x9 0 (BitVec.ofNat 16 buf.length)
    have hl : (BitVec.ofNat 16 buf.length).toNat = buf.length := by
      have h' : buf.length ≤ 65535 := of_decide_eq_true h
      rw [BitVec.toNat_ofNat, Nat.mod_eq_of_lt]; omega
    show decodeOp (_ :: (packBytes buf ++ rest)) = _
    simp only [decodeOp, h1, h2, h3, hl, decodeWrite_packBytes]
    rfl
  | read len =>
    obtain ⟨h1, h2, h3⟩ := descriptor_fields 0xA 0 len
    show decodeOp (_ :: rest) = _
    simp only [decodeOp, h1, h2, h3]
    rfl

/-- An operation list round-trips (R108). -/
theorem decodeOps_encodeOps (ops : List Op) (h : ops.all Op.wf = true) (rest : List Word) :
    decodeOps ops.length (encodeOps ops ++ rest) = .ok (ops, rest) := by
  induction ops with
  | nil => rfl
  | cons o ops ih =>
    simp at h
    have := ih (by simpa using h.2)
    show decodeOps (ops.length + 1) (encodeOp o ++ encodeOps ops ++ rest) = _
    rw [List.append_assoc, decodeOps, decodeOp_encodeOp o h.1]
    simp only [this]

theorem timingSelOf_code (sel : TimingSel) : timingSelOf sel.code = some sel := by cases sel <;> rfl

/-- The operand bits of SET_MSG_FLAGS (R103). -/
def msgFlagBits (f0 f1 f2 f3 : Bool) : BitVec 28 :=
  (0 : BitVec 24) ++ BitVec.ofBool f3 ++ BitVec.ofBool f2 ++ BitVec.ofBool f1 ++ BitVec.ofBool f0

theorem setMsgFlags_fields (a b c d : Bool) :
    (msgFlagBits a b c d).extractLsb' 4 24 = 0 ∧ (msgFlagBits a b c d).getLsbD 0 = a ∧
    (msgFlagBits a b c d).getLsbD 1 = b ∧ (msgFlagBits a b c d).getLsbD 2 = c ∧
    (msgFlagBits a b c d).getLsbD 3 = d := by
  revert a b c d; decide

theorem encode_setMsgFlags (a b c d : Bool) :
    encode (.setMsgFlags a b c d) = [(0x2 : BitVec 4) ++ msgFlagBits a b c d] := by
  revert a b c d; decide

theorem packBytes_flatMap (ws : List Word) (k : Nat) (h : dataWords k = ws.length) (hz :
    ((ws.flatMap wordBytes).drop k).all (fun b => b == 0) = true) :
    packBytes ((ws.flatMap wordBytes).take k) = ws := by
  induction ws generalizing k with
  | nil => simp [packBytes]
  | cons w ws ih =>
    have hk : 1 ≤ k := by simp [dataWords] at h; omega
    have hf : (w :: ws).flatMap wordBytes = w.extractLsb' 0 8 :: w.extractLsb' 8 8 :: w.extractLsb' 16 8 ::
      w.extractLsb' 24 8 :: ws.flatMap wordBytes := rfl
    have hp := packWord_wordBytes w
    rw [hf] at hz ⊢
    by_cases h4 : 4 ≤ k
    · obtain ⟨m, rfl⟩ : ∃ m, k = m + 4 := ⟨k - 4, by omega⟩
      have := ih m (by simp [dataWords] at h ⊢; omega) (by simpa using hz)
      simp [packBytes, this, hp]
    · have hws : ws = [] := by
        have : ws.length = 0 := by simp [dataWords] at h; omega
        exact List.length_eq_zero_iff.mp this
      subst hws
      have : k = 1 ∨ k = 2 ∨ k = 3 := by omega
      rcases this with rfl | rfl | rfl
      · simp at hz; obtain ⟨a, b, c⟩ := hz
        rw [a, b, c] at hp
        simp [packBytes, hp]
      · simp at hz; obtain ⟨b, c⟩ := hz
        rw [b, c] at hp
        simp [packBytes, hp]
      · simp at hz
        rw [hz] at hp
        simp [packBytes, hp]

theorem flatMap_wordBytes_length (ws : List Word) : (ws.flatMap wordBytes).length = 4 * ws.length := by
  induction ws with
  | nil => rfl
  | cons w ws ih => simp [wordBytes, ih] at *; omega

/-- What decodes as write data is the packing of the bytes (R109). -/
theorem decodeWrite_ok (len : Nat) (ws rest : List Word) (buf : List Byte) (h : decodeWrite len ws = .ok (buf, rest)) :
    buf.length = len ∧ ws = packBytes buf ++ rest := by
  unfold decodeWrite at h
  simp only at h
  split at h
  · cases h
  · rename_i hl
    split at h
    · rename_i hz
      cases h
      have htl : (ws.take (dataWords len)).length = dataWords len := by simp; omega
      have := packBytes_flatMap (ws.take (dataWords len)) len htl.symm hz
      rw [this, List.take_append_drop]
      refine ⟨?_, rfl⟩
      rw [List.length_take, flatMap_wordBytes_length, htl]
      unfold dataWords; omega
    · cases h

/-- What decodes as an operation is its encoding, and the operation is well formed (R109, R117). -/
theorem decodeOp_ok (ws rest : List Word) (o : Op) (h : decodeOp ws = .ok (o, rest)) :
    ws = encodeOp o ++ rest ∧ o.wf = true := by
  cases ws with
  | nil => cases h
  | cons w ws =>
    have hs := descriptor_split w
    simp only [decodeOp] at h
    split at h
    case h_1 h9 =>
      have ho : opc w = 9 := BitVec.eq_of_toNat_eq h9
      split at h
      · rename_i hf
        split at h
        · rename_i buf rest' hd
          cases h
          obtain ⟨hl, he⟩ := decodeWrite_ok _ _ _ _ hd
          rw [ho, hf] at hs
          refine ⟨?_, ?_⟩
          · rw [he]
            show w :: _ = _
            conv => lhs; rw [hs]
            have : fieldLen w = BitVec.ofNat 16 buf.length := by rw [hl]; simp
            rw [this]; rfl
          · have := (fieldLen w).isLt
            refine decide_eq_true ?_
            unfold maxLen; omega
        · cases h
      · cases h
    case h_2 h9 =>
      have ho : opc w = 10 := BitVec.eq_of_toNat_eq h9
      split at h
      · rename_i hf
        cases h
        rw [ho, hf] at hs
        refine ⟨?_, rfl⟩
        conv => lhs; rw [hs]
        rfl
      · cases h
    all_goals cases h

/-- What decodes as an operation list is its encoding (R108). -/
theorem decodeOps_ok (n : Nat) (ws rest : List Word) (ops : List Op) (h : decodeOps n ws = .ok (ops, rest)) :
    ops.length = n ∧ ws = encodeOps ops ++ rest ∧ ops.all Op.wf = true := by
  induction n generalizing ws ops with
  | zero => cases h; exact ⟨rfl, rfl, rfl⟩
  | succ n ih =>
    unfold decodeOps at h
    split at h
    · cases h
    · rename_i op r1 h1
      split at h
      · cases h
      · rename_i ops' r2 h2
        cases h
        obtain ⟨a, b, c⟩ := ih _ _ h2
        obtain ⟨d, e⟩ := decodeOp_ok _ _ _ h1
        refine ⟨by simp [a], ?_, by simp at c ⊢; exact ⟨e, c⟩⟩
        rw [d, b]; simp [encodeOps]

theorem timingSelOf_some (x : BitVec 4) (s : TimingSel) (h : timingSelOf x = some s) : x = s.code := by
  revert x s
  intro x s
  cases s <;> revert x <;> decide

/-- What decodes as a command without operands is its one word (R105). -/
theorem decodePlain_ok (j i : Instr) (w : Word) (ws rest : List Word) (k : BitVec 4)
    (h : decodePlain j w ws = .ok (i, rest)) (hk : opc w = k) :
    i = j ∧ rest = ws ∧ w = k ++ (0 : BitVec 28) := by
  unfold decodePlain at h
  split at h
  · rename_i hz
    cases h
    have := operand_split w
    rw [hk, hz] at this
    exact ⟨rfl, rfl, this⟩
  · cases h

theorem setMsgFlags_split (x : BitVec 28) (h : x.extractLsb' 4 24 = 0) :
    x = msgFlagBits (x.getLsbD 0) (x.getLsbD 1) (x.getLsbD 2) (x.getLsbD 3) := by
  unfold msgFlagBits
  apply BitVec.eq_of_getLsbD_eq; intro i hi
  show _ = BitVec.getLsbD (w := 24 + 1 + 1 + 1 + 1) _ i
  simp only [BitVec.getLsbD_append, BitVec.getLsbD_ofBool]
  by_cases h4 : i < 4
  · have : i = 0 ∨ i = 1 ∨ i = 2 ∨ i = 3 := by omega
    rcases this with rfl | rfl | rfl | rfl <;> simp
  · have hb : (x.extractLsb' 4 24).getLsbD (i - 4) = false := by rw [h]; simp
    rw [BitVec.getLsbD_extractLsb'] at hb
    rw [show 4 + (i - 4) = i by omega] at hb
    have : x.getLsbD i = false := by simpa [show i - 4 < 24 by omega] using hb
    rw [this, if_neg (by omega), if_neg (by omega), if_neg (by omega), if_neg (by omega)]; simp

end Sys2Proof
end

