-- ==== Sys2Proof/Laws/Transfer.lean ====
section
/-! SUPPORT. What the admission of a transaction, the write path, the read path and the walk can do, each said once. -/

namespace Sys2Proof.Machine

/-! ## Read buffers (R86, R117) -/

theorem hostBuffer_length (len : Nat) (g : List Byte) (d : Nat) : (hostBuffer len g d).length = len := by
  simp [hostBuffer]
  omega

/-- The bytes the host supplied are in the buffer. -/
theorem hostBuffer_given {len : Nat} {g : List Byte} {n : Nat} {b : Byte} (d : Nat) (hn : n < len) (h : g[n]? = some b) :
    (hostBuffer len g d)[n]? = some b := by
  have := (List.getElem?_eq_some_iff.mp h).1
  unfold hostBuffer
  rw [List.getElem?_append_left (by simp; omega), List.getElem?_take_of_lt hn, h]

theorem takeBuffers_length (ops : List Op) (sup : List (List Byte)) (d : Nat) :
    (takeBuffers ops sup d).1.length = countReads ops := by
  induction ops generalizing sup d with
  | nil => rfl
  | cons o ops ih =>
    cases o with
    | write b => exact ih sup d
    | read len => exact congrArg (· + 1) (ih _ _)

/-- Each read operation takes one list of the host's supply. -/
theorem takeBuffers_rest (ops : List Op) (sup : List (List Byte)) (d : Nat) :
    (takeBuffers ops sup d).2.1 = sup.drop (countReads ops) := by
  induction ops generalizing sup d with
  | nil => rfl
  | cons o ops ih =>
    cases o with
    | write b => exact ih sup d
    | read len => exact (ih _ _).trans (List.drop_tail)

/-- Each read operation has its buffer of LEN bytes, with the bytes the host supplied. -/
theorem takeBuffers_buffer (ops : List Op) (sup : List (List Byte)) (d i : Nat) (len : BitVec 16)
    (hi : ops[i]? = some (.read len)) :
    ∃ buf, (takeBuffers ops sup d).1[rbufIndex ops i]? = some buf ∧ buf.length = len.toNat ∧
      ∀ n b, n < len.toNat → (sup.getD (rbufIndex ops i) [])[n]? = some b → buf[n]? = some b := by
  induction ops generalizing sup d i with
  | nil => simp at hi
  | cons o ops ih =>
    cases i with
    | zero =>
      obtain rfl : o = .read len := by simpa using hi
      refine ⟨_, rfl, hostBuffer_length _ _ _, fun n b hn hb => hostBuffer_given _ hn ?_⟩
      cases sup
      · simp at hb
      · simpa [rbufIndex, countReads] using hb
    | succ i =>
      have hi' : ops[i]? = some (.read len) := by simpa using hi
      cases o with
      | write b => exact ih sup d i hi'
      | read l =>
        obtain ⟨buf, h1, h2, h3⟩ := ih sup.tail (d + (l.toNat - (sup.headD []).length)) i hi'
        refine ⟨buf, by simpa [takeBuffers, rbufIndex, countReads] using h1, h2, fun n b hn hb => h3 n b hn ?_⟩
        cases sup
        · simp at hb
        · simpa [rbufIndex, countReads] using hb

/-! ## The walk -/

/-- An operation that returned Ok (R47, R228). -/
theorem opDone_eq (ops : List Op) (s : State) :
    s.opDone ops =
      { s with
        opIdx := s.opIdx + 1
        cmd := if s.opIdx + 1 < ops.length then s.cmd else .idle
        results := if s.opIdx + 1 < ops.length then s.results else s.results ++ [0] } := by
  unfold State.opDone State.continueWalk
  by_cases h : s.opIdx + 1 < ops.length
  · rw [if_pos h, if_pos h, if_pos h]
  · rw [if_neg h, if_neg h, if_neg h]
    rfl

theorem transfer_uninitialised (tar : Word) (ops : List Op) (s : State) (hc : s.cmd = .idle) (hi : s.initialized = false) :
    transfer tar ops s = .refused .notInitialised := by
  unfold transfer
  rw [hc]
  simp [hi]

theorem transfer_busy (tar t : Word) (ops os : List Op) (s : State) (hc : s.cmd = .transfer t os) :
    transfer tar ops s = .refused .commandInsideTransaction := by
  unfold transfer
  rw [hc]

/-- A transaction that is admitted: setup, then the start of the walk, ended at once where it has no operation. -/
theorem transfer_admitted (tar : Word) (ops : List Op) (s : State) (hc : s.cmd = .idle) (hi : s.initialized = true) :
    transfer tar ops s = .next
      { xferInit tar s with
        cmd := if ops = [] then .idle else .transfer tar ops
        results := if ops = [] then (xferInit tar s).results ++ [0] else (xferInit tar s).results
        opIdx := 0
        writesLeft := countWrites ops
        rbufs := (takeBuffers ops (xferInit tar s).rbufSupply (xferInit tar s).draws).1
        rbufSupply := (takeBuffers ops (xferInit tar s).rbufSupply (xferInit tar s).draws).2.1
        draws := (takeBuffers ops (xferInit tar s).rbufSupply (xferInit tar s).draws).2.2 } := by
  unfold transfer
  rw [hc]
  refine (if_pos hi).trans (congrArg _ ?_)
  generalize xferInit tar s = x
  cases ops with
  | nil => rfl
  | cons op ops => exact if_pos (by simp [State.startWalk])

/-! ## Write path -/

theorem afterRead_eq (r : Reg) (s : State) :
    s.afterRead r =
      { s with
        trace := s.trace ++ [.regRead r (s.readValue r)]
        readAnswers := (s.afterRead r).readAnswers
        draws := (s.afterRead r).draws } := by
  have h := afterRead_run r s
  have he : (s.afterRead r).expiredAnswers = s.expiredAnswers := by
    unfold State.afterRead State.dropRead State.emit
    cases s.readAnswers <;> rfl
  rw [PortRun] at h
  rw [he] at h
  refine h.trans ?_
  have : pushed [PortEvent.regRead r (s.readValue r)] = [] := by cases r <;> rfl
  rw [this, List.append_nil]

/-- The write path past a level above the depth (R214). -/
theorem writeMsg_level (buf : List Byte) (isLast : Bool) (s : State) (h : s.params.txFifoDepth < (s.readValue .txflr).toNat) :
    writeMsg buf isLast s = .error (.txLevelAboveDepth (s.afterRead .txflr)) := if_pos h

/-- The write path up to its pushes (R213 to R215). -/
theorem writeMsg_pushes (buf : List Byte) (isLast : Bool) (s : State)
    (h : (s.readValue .txflr).toNat ≤ s.params.txFifoDepth) :
    writeMsg buf isLast s =
      writeEnd isLast buf.length (min buf.length (s.params.txFifoDepth - (s.readValue .txflr).toNat))
        { s with
          trace := s.trace ++ [.regRead .txflr (s.readValue .txflr)] ++
            (writeCmds (needRestart s) isLast s.txFlag.recvLen
              (min buf.length (s.params.txFifoDepth - (s.readValue .txflr).toNat)) buf).map (.regWrite .dataCmd)
          dataCmds := s.dataCmds ++ writeCmds (needRestart s) isLast s.txFlag.recvLen
            (min buf.length (s.params.txFifoDepth - (s.readValue .txflr).toNat)) buf
          readAnswers := (s.afterRead .txflr).readAnswers
          draws := (s.afterRead .txflr).draws } := by
  refine (if_neg (by omega)).trans (congrArg _ ?_)
  rw [regWrites_pushes, afterRead_eq .txflr s]

/-- The write path's end where the whole buffer went out and RECV_LEN is 0 (R216). -/
theorem writeEnd_whole (isLast : Bool) (len n : Nat) (s : State) (h : ¬ (n < len ∨ s.txFlag.recvLen = true)) :
    writeEnd isLast len n s = .ok
      { s with
        status := { s.status with wip := false }
        trace := s.trace ++ [.regWrite .intrMask (writeMask s.msgErr isLast)] } := if_neg h

/-- The write path's end where bytes are left or RECV_LEN is 1 (R216). -/
theorem writeEnd_left (isLast : Bool) (len n : Nat) (s : State) (h : n < len ∨ s.txFlag.recvLen = true)
    (ho : s.txOutstanding ≠ 0xFFFFFFFF) :
    writeEnd isLast len n s = .ok
      { s with
        status := { s.status with wip := true }
        txOutstanding := s.txOutstanding + 1
        txBufLen := BitVec.ofNat 32 (len - n)
        trace := s.trace ++ [.regWrite .intrMask (writeMask s.msgErr isLast)] } :=
  (if_pos h).trans (if_neg ho)

theorem writeEnd_overflow (isLast : Bool) (len n : Nat) (s : State) (h : n < len ∨ s.txFlag.recvLen = true)
    (ho : s.txOutstanding = 0xFFFFFFFF) :
    writeEnd isLast len n s = .error (.counterOverflow { s with status := { s.status with wip := true } }) :=
  (if_pos h).trans (if_pos ho)

/-! ## Read path -/

theorem popBytes_eq (n : Nat) (s : State) :
    ∃ ws : List Word, ws.length = n ∧ (popBytes n s).1 = ws.map (storedByte s.rxFlag.recvLen) ∧
      (popBytes n s).2 =
        { s with
          trace := s.trace ++ ws.map (.regRead .dataCmd)
          readAnswers := (popBytes n s).2.readAnswers
          expiredAnswers := (popBytes n s).2.expiredAnswers
          draws := (popBytes n s).2.draws } ∧ ∀ w ∈ ws, w &&& 0xFFF = w := by
  obtain ⟨ws, hl, h1, h2, h3⟩ := popBytes_run n s
  refine ⟨ws, hl, h2, h1.plain ?_, h3⟩
  clear hl h1 h2 h3
  induction ws with
  | nil => rfl
  | cons w ws ih => exact ih

/-- The drain (R223, R224): one level read, the pops, the bytes stored, then the bookkeeping. -/
theorem drain_eq (len j : Nat) (s : State) :
    ∃ (ws : List Word) (ra : List Word) (ea : List Bool) (d : Nat),
      ws.length = min len (s.readValue .rxflr).toNat ∧ (∀ w ∈ ws, w &&& 0xFFF = w) ∧
      drain len j s = readEnd (s.readValue .rxflr).toNat (min len (s.readValue .rxflr).toNat)
        { s with
          trace := s.trace ++ [.regRead .rxflr (s.readValue .rxflr)] ++ ws.map (.regRead .dataCmd)
          rbufs := s.rbufs.modify j (fun buf => ws.map (storedByte s.rxFlag.recvLen) ++ buf.drop ws.length)
          readAnswers := ra
          expiredAnswers := ea
          draws := d } := by
  obtain ⟨ws, hl, h1, h2, h3⟩ := popBytes_eq (min len (s.readValue .rxflr).toNat) (s.afterRead .rxflr)
  generalize hp : popBytes (min len (s.readValue .rxflr).toNat) (s.afterRead .rxflr) = p at *
  refine ⟨ws, p.2.readAnswers, p.2.expiredAnswers, p.2.draws, hl, h3, ?_⟩
  unfold drain
  simp only [hp]
  rw [h1, h2, afterRead_eq .rxflr s]
  simp [State.storeRead]

/-- The read path refused for the outstanding count (R220). -/
theorem readMsg_overrun (len j : Nat) (s : State) (h : s.params.rxFifoDepth ≤ s.rxOutstanding.toNat) :
    readMsg len j s = .ok (.err .overrun s) := if_pos h

/-- The read path's poll, of the state after its read command (R221, R222), saw TX_ABRT. -/
theorem readMsg_abort (len j : Nat) (s : State) (src : Word) (h : s.rxOutstanding.toNat < s.params.rxFifoDepth)
    (hp : (readPoll 11 0 (s.regWrite .dataCmd (readCmd s.masterCfg))).1 = .abort src) :
    readMsg len j s = .ok (.err (.abort (abortErrorOf s.params src))
      { (readPoll 11 0 (s.regWrite .dataCmd (readCmd s.masterCfg))).2 with msgErr := true }) := by
  unfold readMsg Config.pollExhausted
  rw [if_neg (by omega)]
  simp only [hp]

/-- The poll timed out (R222). -/
theorem readMsg_timeout (len j : Nat) (s : State) (h : s.rxOutstanding.toNat < s.params.rxFifoDepth)
    (hp : (readPoll 11 0 (s.regWrite .dataCmd (readCmd s.masterCfg))).1 = .timeout) :
    readMsg len j s = .ok (.err .other (readPoll 11 0 (s.regWrite .dataCmd (readCmd s.masterCfg))).2) := by
  unfold readMsg Config.pollExhausted
  rw [if_neg (by omega)]
  simp only [hp]

/-- The poll saw RX_FULL (R222). -/
theorem readMsg_full (len j : Nat) (s : State) (h : s.rxOutstanding.toNat < s.params.rxFifoDepth)
    (hp : (readPoll 11 0 (s.regWrite .dataCmd (readCmd s.masterCfg))).1 = .full) :
    readMsg len j s =
      (drain len j (readPoll 11 0 (s.regWrite .dataCmd (readCmd s.masterCfg))).2).map .ok := by
  unfold readMsg Config.pollExhausted
  rw [if_neg (by omega)]
  simp only [hp]
  cases drain len j (readPoll 11 0 (s.regWrite .dataCmd (readCmd s.masterCfg))).2 <;> rfl

/-- The read path's end (R225). -/
theorem readEnd_all (occ n : Nat) (s : State) (h : ¬ n < occ) :
    readEnd occ n s = .ok { s with status := { s.status with rip := false } } := if_neg h

theorem readEnd_left (occ n : Nat) (s : State) (h : n < occ)
    (ho : s.params.rxOutstandingUpdate = .incOnPartial → s.rxOutstanding ≠ 0xFFFFFFFF) :
    readEnd occ n s = .ok
      { s with
        status := { s.status with rip := true }
        rxBufLen := BitVec.ofNat 32 (occ - n)
        rxOutstanding := if s.params.rxOutstandingUpdate = .incOnPartial then s.rxOutstanding + 1 else s.rxOutstanding } := by
  refine (if_pos h).trans ?_
  cases hu : s.params.rxOutstandingUpdate
  · simp only [hu]
    rfl
  · simp only [hu]
    rw [if_neg (ho hu)]
    rfl

theorem readEnd_overflow (occ n : Nat) (s : State) (h : n < occ) (hu : s.params.rxOutstandingUpdate = .incOnPartial)
    (ho : s.rxOutstanding = 0xFFFFFFFF) :
    readEnd occ n s = .error (.counterOverflow
      { s with status := { s.status with rip := true }, rxBufLen := BitVec.ofNat 32 (occ - n) }) := by
  refine (if_pos h).trans ?_
  simp only [hu]
  rw [if_pos ho]

/-! ## The operations (R228, R230, R231) -/

theorem exec_opWrite_ok {buf : List Byte} {tar : Word} {ops : List Op} {s t : State} (hc : s.cmd = .transfer tar ops)
    (h : writeMsg buf (s.writesLeft - 1 == 0) { s with writesLeft := s.writesLeft - 1 } = .ok t) :
    exec (.opWrite buf) s = .next (t.opDone ops) := by
  show execOpWrite buf s = _
  unfold execOpWrite
  split
  · rename_i hi
    cases hc.symm.trans hi
  · rename_i hi
    cases hc.symm.trans hi
    simp only [h]

theorem exec_opWrite_fault {buf : List Byte} {tar : Word} {ops : List Op} {s : State} {f : Fault}
    (hc : s.cmd = .transfer tar ops)
    (h : writeMsg buf (s.writesLeft - 1 == 0) { s with writesLeft := s.writesLeft - 1 } = .error f) :
    exec (.opWrite buf) s = .fault f := by
  show execOpWrite buf s = _
  unfold execOpWrite
  split
  · rename_i hi
    cases hc.symm.trans hi
  · rename_i hi
    cases hc.symm.trans hi
    simp only [h]

theorem exec_opRead_ok {len : BitVec 16} {tar : Word} {ops : List Op} {s t : State} (hc : s.cmd = .transfer tar ops)
    (h : readMsg len.toNat (rbufIndex ops s.opIdx) s = .ok (.ok t)) : exec (.opRead len) s = .next (t.opDone ops) := by
  simp only [exec, execOpRead, hc, h]

theorem exec_opRead_err {len : BitVec 16} {tar : Word} {ops : List Op} {s t : State} {e : XferError}
    (hc : s.cmd = .transfer tar ops) (h : readMsg len.toNat (rbufIndex ops s.opIdx) s = .ok (.err e t)) :
    exec (.opRead len) s = .next (t.raise e) := by
  simp only [exec, execOpRead, hc, h]

theorem exec_opRead_fault {len : BitVec 16} {tar : Word} {ops : List Op} {s : State} {f : Fault}
    (hc : s.cmd = .transfer tar ops) (h : readMsg len.toNat (rbufIndex ops s.opIdx) s = .error f) :
    exec (.opRead len) s = .fault f := by
  simp only [exec, execOpRead, hc, h]

end Sys2Proof.Machine
end

