-- ==== Sys2Proof/Laws/Exec.lean ====
section
/-! SUPPORT. Inversion: what an instruction that completes has done, and what a step that completes has run. Later proofs
cite these and unfold neither exec nor step. -/

namespace Sys2Proof.Machine

/-! ## Transactions -/

/-- A transaction command completes only while Idle and after INIT_MASTER. -/
theorem transfer_next {tar : Word} {ops : List Op} {s t : State} (h : transfer tar ops s = .next t) :
    s.cmd = .idle ∧ s.initialized = true ∧
      t = { xferInit tar s with
            cmd := if ops = [] then .idle else .transfer tar ops
            results := if ops = [] then (xferInit tar s).results ++ [0] else (xferInit tar s).results
            opIdx := 0
            writesLeft := countWrites ops
            rbufs := (takeBuffers ops (xferInit tar s).rbufSupply (xferInit tar s).draws).1
            rbufSupply := (takeBuffers ops (xferInit tar s).rbufSupply (xferInit tar s).draws).2.1
            draws := (takeBuffers ops (xferInit tar s).rbufSupply (xferInit tar s).draws).2.2 } := by
  cases hc : s.cmd with
  | transfer t' os => rw [transfer_busy tar t' ops os s hc] at h; cases h
  | idle =>
    cases hi : s.initialized with
    | false => rw [transfer_uninitialised tar ops s hc hi] at h; cases h
    | true =>
      rw [transfer_admitted tar ops s hc hi] at h
      cases h
      exact ⟨rfl, rfl, rfl⟩

/-! ## Operations -/

/-- The mask a write operation leaves, by the writes left (R217). -/
theorem writeMask_eq (m : Bool) (n : Nat) :
    writeMask m (n == 0) = if m then 0 else if n = 0 then 0x244 else 0x254 := by
  unfold writeMask
  cases m <;> by_cases h : n = 0
  · subst h
    rfl
  · rw [if_neg (by simp), if_neg (by simp [h]), if_neg (by simp), if_neg h]
    rfl
  · rfl
  · rfl

/-- What a write operation that runs to its end leaves, `w` telling whether a write stays in progress (R213 to R217). -/
def writeDone (buf : List Byte) (ops : List Op) (w : Bool) (s : State) : State :=
  { s with
    trace := s.trace ++ [.regRead .txflr (s.readValue .txflr)] ++ (sentWords buf s).map (.regWrite .dataCmd) ++
      [.regWrite .intrMask (if s.msgErr then 0 else if s.writesLeft - 1 = 0 then 0x244 else 0x254)]
    dataCmds := s.dataCmds ++ sentWords buf s
    status := { s.status with wip := w }
    txOutstanding := if w then s.txOutstanding + 1 else s.txOutstanding
    txBufLen := if w then BitVec.ofNat 32 (buf.length - sendable buf s) else s.txBufLen
    writesLeft := s.writesLeft - 1
    opIdx := s.opIdx + 1
    cmd := cmdAfter ops s
    results := resultsAfter ops s
    readAnswers := (s.afterRead .txflr).readAnswers
    draws := (s.afterRead .txflr).draws }

/-- A read does not depend on `writes_left`. -/
theorem afterRead_writesLeft (r : Reg) (n : Nat) (s : State) :
    (State.afterRead r { s with writesLeft := n }).readAnswers = (s.afterRead r).readAnswers ∧
      (State.afterRead r { s with writesLeft := n }).draws = (s.afterRead r).draws := by
  unfold State.afterRead State.dropRead State.emit
  cases s.readAnswers <;> exact ⟨rfl, rfl⟩

/-- The write operation in every case: level fault, overflow fault, or its end. -/
theorem exec_opWrite_cases (buf : List Byte) (tar : Word) (ops : List Op) (s : State) (hc : s.cmd = .transfer tar ops) :
    (s.params.txFifoDepth < (s.readValue .txflr).toNat ∧ ∃ u, exec (.opWrite buf) s = .fault (.txLevelAboveDepth u)) ∨
    ((s.readValue .txflr).toNat ≤ s.params.txFifoDepth ∧ leavesWip buf s ∧ s.txOutstanding = 0xFFFFFFFF ∧
      ∃ u, exec (.opWrite buf) s = .fault (.counterOverflow u)) ∨
    ((s.readValue .txflr).toNat ≤ s.params.txFifoDepth ∧ leavesWip buf s ∧ s.txOutstanding ≠ 0xFFFFFFFF ∧
      exec (.opWrite buf) s = .next (writeDone buf ops true s)) ∨
    ((s.readValue .txflr).toNat ≤ s.params.txFifoDepth ∧ ¬ leavesWip buf s ∧
      exec (.opWrite buf) s = .next (writeDone buf ops false s)) := by
  by_cases hl : s.params.txFifoDepth < (s.readValue .txflr).toNat
  · exact .inl ⟨hl, _, exec_opWrite_fault hc (writeMsg_level buf _ { s with writesLeft := s.writesLeft - 1 } hl)⟩
  · have hl' := Nat.le_of_not_lt hl
    have hp := writeMsg_pushes buf (s.writesLeft - 1 == 0) { s with writesLeft := s.writesLeft - 1 } hl'
    obtain ⟨e1, e2⟩ := afterRead_writesLeft .txflr (s.writesLeft - 1) s
    by_cases hw : leavesWip buf s
    · by_cases ho : s.txOutstanding = 0xFFFFFFFF
      · exact .inr (.inl ⟨hl', hw, ho, _, exec_opWrite_fault hc (hp.trans (writeEnd_overflow _ _ _ _ hw ho))⟩)
      · refine .inr (.inr (.inl ⟨hl', hw, ho, ?_⟩))
        rw [exec_opWrite_ok hc (hp.trans (writeEnd_left _ _ _ _ hw ho)), opDone_eq, writeMask_eq, e1, e2]
        rfl
    · refine .inr (.inr (.inr ⟨hl', hw, ?_⟩))
      rw [exec_opWrite_ok hc (hp.trans (writeEnd_whole _ _ _ _ hw)), opDone_eq, writeMask_eq, e1, e2]
      rfl

/-- A write operation that completes has reached its end. -/
theorem exec_opWrite_next {buf : List Byte} {s t : State} (h : exec (.opWrite buf) s = .next t) :
    ∃ (tar : Word) (ops : List Op) (w : Bool), s.cmd = .transfer tar ops ∧
      (s.readValue .txflr).toNat ≤ s.params.txFifoDepth ∧ (w = true ↔ leavesWip buf s) ∧
      (w = true → s.txOutstanding ≠ 0xFFFFFFFF) ∧ t = writeDone buf ops w s := by
  cases hc : s.cmd with
  | idle =>
    have : exec (.opWrite buf) s = .refused .opOutsideTransaction := by
      show execOpWrite buf s = _
      unfold execOpWrite
      rw [hc]
    rw [this] at h
    cases h
  | transfer tar ops =>
    rcases exec_opWrite_cases buf tar ops s hc with ⟨-, u, he⟩ | ⟨-, -, -, u, he⟩ | ⟨hl, hw, ho, he⟩ | ⟨hl, hw, he⟩
      <;> rw [he] at h <;> cases h
    · exact ⟨tar, ops, true, rfl, hl, by simp [hw], fun _ => ho, rfl⟩
    · exact ⟨tar, ops, false, rfl, hl, by simp [hw], by simp, rfl⟩

theorem readCmd_eq (s : State) : readCmd s.masterCfg = readWord s := by
  unfold readCmd readWord restartEn
  split <;> rfl

/-- The read path's poll as one update of the state (R221, R222). -/
theorem pollOf_eq (s : State) :
    ∃ (evs : List PortEvent) (ra : List Word) (ea : List Bool) (n : Nat), ReadPollShape s.params 0 evs (pollOf s).1 ∧
      (pollOf s).2 =
        { s with
          trace := s.trace ++ [.regWrite .dataCmd (readWord s)] ++ evs
          dataCmds := s.dataCmds ++ [readWord s]
          readAnswers := ra
          expiredAnswers := ea
          draws := n } := by
  obtain ⟨evs, h1, h2⟩ := readPoll_run 11 0 rfl (s.regWrite .dataCmd (readWord s))
  exact ⟨evs, _, _, _, h2, h1.plain h2.pushed_eq⟩

/-- What a read operation that drains leaves (R223 to R225). -/
def readDone (len : BitVec 16) (ops : List Op) (evs : List PortEvent) (ws ra : List Word) (ea : List Bool) (n : Nat)
    (s : State) : State :=
  { s with
    trace := s.trace ++ [.regWrite .dataCmd (readWord s)] ++ evs ++
      [.regRead .rxflr (BitVec.ofNat 32 (occupancy s))] ++ ws.map (.regRead .dataCmd)
    dataCmds := s.dataCmds ++ [readWord s]
    rbufs := s.rbufs.modify (rbufIndex ops s.opIdx)
      (fun buf => ws.map (storedByte s.rxFlag.recvLen) ++ buf.drop ws.length)
    status := { s.status with rip := decide (len.toNat < occupancy s) }
    rxBufLen := if len.toNat < occupancy s then BitVec.ofNat 32 (occupancy s - len.toNat) else s.rxBufLen
    rxOutstanding :=
      if len.toNat < occupancy s ∧ s.params.rxOutstandingUpdate = .incOnPartial then s.rxOutstanding + 1
      else s.rxOutstanding
    opIdx := s.opIdx + 1
    cmd := cmdAfter ops s
    results := resultsAfter ops s
    readAnswers := ra
    expiredAnswers := ea
    draws := n }

/-- What a read operation that fails at its poll leaves (R222). -/
def readFailed (err : Bool) (r : Word) (evs : List PortEvent) (ra : List Word) (ea : List Bool) (n : Nat) (s : State) : State :=
  { s with
    trace := s.trace ++ [.regWrite .dataCmd (readWord s)] ++ evs
    dataCmds := s.dataCmds ++ [readWord s]
    msgErr := err
    cmd := .idle
    results := s.results ++ [r]
    readAnswers := ra
    expiredAnswers := ea
    draws := n }

/-- What a read operation leaves that stops for the outstanding count, after its drain (R223 to R225, R306). -/
def readStopped (len : BitVec 16) (ops : List Op) (evs : List PortEvent) (ws ra : List Word) (ea : List Bool) (n : Nat)
    (s : State) : State :=
  { s with
    trace := s.trace ++ [.regWrite .dataCmd (readWord s)] ++ evs ++
      [.regRead .rxflr (BitVec.ofNat 32 (occupancy s))] ++ ws.map (.regRead .dataCmd)
    dataCmds := s.dataCmds ++ [readWord s]
    rbufs := s.rbufs.modify (rbufIndex ops s.opIdx)
      (fun buf => ws.map (storedByte s.rxFlag.recvLen) ++ buf.drop ws.length)
    status := { s.status with rip := true }
    rxBufLen := BitVec.ofNat 32 (occupancy s - len.toNat)
    readAnswers := ra
    expiredAnswers := ea
    draws := n }

/-- The read operation in every case: overrun, abort, timeout, overflow fault, or its end. -/
theorem exec_opRead_cases (len : BitVec 16) (tar : Word) (ops : List Op) (s : State) (hc : s.cmd = .transfer tar ops) :
    (s.params.rxFifoDepth ≤ s.rxOutstanding.toNat ∧
      exec (.opRead len) s = .next { s with cmd := .idle, results := s.results ++ [6] }) ∨
    (s.rxOutstanding.toNat < s.params.rxFifoDepth ∧
      ((∃ src evs ra ea n, (pollOf s).1 = .abort src ∧ ReadPollShape s.params 0 evs (.abort src) ∧
          exec (.opRead len) s = .next
            (readFailed true ((abortErrorOf s.params src).code.setWidth 32) evs ra ea n s)) ∨
       (∃ evs ra ea n, (pollOf s).1 = .timeout ∧ ReadPollShape s.params 0 evs .timeout ∧
          exec (.opRead len) s = .next (readFailed s.msgErr 7 evs ra ea n s)) ∨
       (∃ evs ws ra ea n, (pollOf s).1 = .full ∧ ReadPollShape s.params 0 evs .full ∧ ws.length = min len.toNat (occupancy s) ∧
          (∀ w ∈ ws, w &&& 0xFFF = w) ∧
          ((len.toNat < occupancy s ∧ s.params.rxOutstandingUpdate = .incOnPartial ∧ s.rxOutstanding = 0xFFFFFFFF ∧
              exec (.opRead len) s = .fault (.counterOverflow (readStopped len ops evs ws ra ea n s))) ∨
           ((len.toNat < occupancy s → s.params.rxOutstandingUpdate = .incOnPartial → s.rxOutstanding ≠ 0xFFFFFFFF) ∧
              exec (.opRead len) s = .next (readDone len ops evs ws ra ea n s)))))) := by
  by_cases h : s.params.rxFifoDepth ≤ s.rxOutstanding.toNat
  · exact .inl ⟨h, exec_opRead_err hc (readMsg_overrun _ _ s h)⟩
  · have h := Nat.lt_of_not_le h
    refine .inr ⟨h, ?_⟩
    obtain ⟨evs, ra, ea, n, hs, he⟩ := pollOf_eq s
    cases hp : (pollOf s).1 with
    | abort src =>
      rw [hp] at hs
      have h4 := exec_opRead_err (len := len) hc
        (readMsg_abort _ _ s src h (by rw [readCmd_eq]; exact hp))
      rw [readCmd_eq] at h4
      change _ = Host.Outcome.next (State.raise _ { (pollOf s).2 with msgErr := true }) at h4
      rw [he] at h4
      exact .inl ⟨src, evs, ra, ea, n, rfl, hs, h4⟩
    | timeout =>
      rw [hp] at hs
      have h4 := exec_opRead_err (len := len) hc
        (readMsg_timeout _ _ s h (by rw [readCmd_eq]; exact hp))
      rw [readCmd_eq] at h4
      change _ = Host.Outcome.next (State.raise _ (pollOf s).2) at h4
      rw [he] at h4
      exact .inr (.inl ⟨evs, ra, ea, n, rfl, hs, h4⟩)
    | full =>
      rw [hp] at hs
      have h1 := readMsg_full len.toNat (rbufIndex ops s.opIdx) s h (by rw [readCmd_eq]; exact hp)
      rw [readCmd_eq] at h1
      change _ = (drain len.toNat (rbufIndex ops s.opIdx) (pollOf s).2).map _ at h1
      obtain ⟨ws, ra', ea', d, hl, hm, h2⟩ := drain_eq len.toNat (rbufIndex ops s.opIdx) (pollOf s).2
      have ho : (pollOf s).2.readValue .rxflr = BitVec.ofNat 32 (occupancy s) := by simp [occupancy]
      have ho' : ((pollOf s).2.readValue .rxflr).toNat = occupancy s := rfl
      rw [ho'] at hl h2
      rw [ho] at h2
      rw [h2] at h1
      simp only [he] at h1
      refine .inr (.inr ⟨evs, ws, ra', ea', d, rfl, hs, hl, hm, ?_⟩)
      by_cases hlt : len.toNat < occupancy s
      · have hmin : min len.toNat (occupancy s) = len.toNat := by omega
        rw [hmin] at h1
        by_cases hover : s.params.rxOutstandingUpdate = .incOnPartial ∧ s.rxOutstanding = 0xFFFFFFFF
        · exact .inl ⟨hlt, hover.1, hover.2,
            exec_opRead_fault hc (h1.trans (congrArg (Except.map OpEnd.ok) (readEnd_overflow _ _ _ hlt (by exact hover.1) (by exact hover.2))))⟩
        · have hno : s.params.rxOutstandingUpdate = .incOnPartial → s.rxOutstanding ≠ 0xFFFFFFFF :=
            fun a b => hover ⟨a, b⟩
          refine .inr ⟨fun _ => hno, ?_⟩
          rw [exec_opRead_ok hc (h1.trans (congrArg (Except.map OpEnd.ok) (readEnd_left _ _ _ hlt (by exact hno)))), opDone_eq]
          have hif : (if len.toNat < occupancy s ∧ s.params.rxOutstandingUpdate = .incOnPartial then
              s.rxOutstanding + 1 else s.rxOutstanding) =
              if s.params.rxOutstandingUpdate = .incOnPartial then s.rxOutstanding + 1 else s.rxOutstanding := by
            simp only [hlt, true_and]
          unfold readDone
          rw [if_pos hlt, decide_eq_true hlt, hif]
          rfl
      · have hmin : min len.toNat (occupancy s) = occupancy s := by omega
        rw [hmin] at h1
        refine .inr ⟨fun a => absurd a hlt, ?_⟩
        rw [exec_opRead_ok hc (h1.trans (congrArg _ (readEnd_all _ _ _ (by omega)))), opDone_eq]
        have hif : (if len.toNat < occupancy s ∧ s.params.rxOutstandingUpdate = .incOnPartial then
            s.rxOutstanding + 1 else s.rxOutstanding) = s.rxOutstanding := if_neg (fun a => hlt a.1)
        unfold readDone
        rw [if_neg hlt, hif, decide_eq_false hlt]
        rfl

/-- A read operation that completes has overrun, failed at its poll, or drained. -/
theorem exec_opRead_next {len : BitVec 16} {s t : State} (h : exec (.opRead len) s = .next t) :
    ∃ (tar : Word) (ops : List Op), s.cmd = .transfer tar ops ∧
      (t = { s with cmd := .idle, results := s.results ++ [6] } ∨
       (∃ evs ra ea n, ∃ (src : Word), ReadPollShape s.params 0 evs (.abort src) ∧
         t = readFailed true ((abortErrorOf s.params src).code.setWidth 32) evs ra ea n s) ∨
       (∃ evs ra ea n, ReadPollShape s.params 0 evs .timeout ∧ t = readFailed s.msgErr 7 evs ra ea n s) ∨
       (∃ evs ws ra ea n, ReadPollShape s.params 0 evs .full ∧ ws.length = min len.toNat (occupancy s) ∧
         (∀ w ∈ ws, w &&& 0xFFF = w) ∧ s.rxOutstanding.toNat < s.params.rxFifoDepth ∧
         (len.toNat < occupancy s → s.params.rxOutstandingUpdate = .incOnPartial → s.rxOutstanding ≠ 0xFFFFFFFF) ∧
         t = readDone len ops evs ws ra ea n s)) := by
  cases hc : s.cmd with
  | idle =>
    have : exec (.opRead len) s = .refused .opOutsideTransaction := by
      show execOpRead len s = _
      unfold execOpRead
      rw [hc]
    rw [this] at h
    cases h
  | transfer tar ops =>
    refine ⟨tar, ops, rfl, ?_⟩
    rcases exec_opRead_cases len tar ops s hc with
      ⟨-, he⟩ | ⟨hlt, ⟨src, evs, ra, ea, n, -, hs, he⟩ | ⟨evs, ra, ea, n, -, hs, he⟩ |
        ⟨evs, ws, ra, ea, n, -, hs, hl, hm, ⟨-, -, -, he⟩ | ⟨ho, he⟩⟩⟩ <;> rw [he] at h <;> cases h
    · exact .inl rfl
    · exact .inr (.inl ⟨evs, ra, ea, n, src, hs, rfl⟩)
    · exact .inr (.inr (.inl ⟨evs, ra, ea, n, hs, rfl⟩))
    · exact .inr (.inr (.inr ⟨evs, ws, ra, ea, n, hs, hl, hm, hlt, ho, rfl⟩))

/-! ## Every instruction -/

/-- What admits a transaction leaves, with the port activity of its setup (R210, R227, R228). -/
theorem transfer_next_spec {tar : Word} {ops : List Op} {s t : State} (h : transfer tar ops s = .next t) :
    s.cmd = .idle ∧ s.initialized = true ∧
    ∃ (dis : List PortEvent) (o : DisableOutcome) (con es st src : Word) (ra : List Word) (ea : List Bool) (n d : Nat),
      DisableShape s.params dis o ∧ Masked s.params .con con ∧ Masked s.params .enableStatus es ∧
      Masked s.params .intrStat st ∧ Masked s.params .txAbrtSource src ∧
      t = { s with
            msgErr := false
            lastDisable := some o
            trace := s.trace ++ (dis ++
              [.regRead .con con, .regWrite .con (conForTar tar con), .regWrite .tar tar, .regWrite .intrMask 0,
               .regWrite .enable 1, .regRead .enableStatus es] ++ clearEvents st src ++ [.regWrite .intrMask 0x254])
            cmd := if ops = [] then .idle else .transfer tar ops
            results := if ops = [] then s.results ++ [0] else s.results
            opIdx := 0
            writesLeft := countWrites ops
            rbufs := (takeBuffers ops s.rbufSupply n).1
            rbufSupply := (takeBuffers ops s.rbufSupply n).2.1
            readAnswers := ra
            expiredAnswers := ea
            draws := d } := by
  obtain ⟨hc, hi, rfl⟩ := transfer_next h
  refine ⟨hc, hi, ?_⟩
  obtain ⟨dis, o, con, es, st, src, h1, h2, h3, h4, h6, -, h5⟩ := xferInit_spec tar s
  refine ⟨dis, o, con, es, st, src, (xferInit tar s).readAnswers, (xferInit tar s).expiredAnswers, (xferInit tar s).draws,
    (takeBuffers ops s.rbufSupply (xferInit tar s).draws).2.2, h1, h2, h3, h4, h6, ?_⟩
  generalize xferInit tar s = x at *
  have e1 : x.rbufSupply = s.rbufSupply := by rw [h5]
  have e2 : x.results = s.results := by rw [h5]
  rw [e1, e2]
  generalize x.readAnswers = ra at *
  generalize x.expiredAnswers = ea at *
  generalize x.draws = n at *
  subst h5
  simp only [List.append_assoc]

/-- The state with a data-command word's requests recorded is all that such a word does (R270 to R276). -/
theorem exec_dataCmd_next {i : Instr} {s t : State} (hd : i.isDataCmd = true) (h : exec i s = .next t) :
    ∃ rs, t = { s with asked := s.asked ++ rs } := by
  cases i with
  | setTiming | setMsgFlags | configureMaster | configureFifoMaster | initMaster | disable | transfer7 | transfer10
  | opWrite | opRead => cases hd
  | _ => cases h; exact ⟨_, rfl⟩

/-- An instruction that completes: which it was, and what it left. -/
theorem exec_next {i : Instr} {s t : State} (h : exec i s = .next t) :
    (∃ sel val, i = .setTiming sel val ∧ s.cmd = .idle ∧
      t = { s with timing := s.timing.put sel (val.setWidth 32), cmd := .idle, results := s.results ++ [0] }) ∨
    (∃ f0 f1 f2 f3, i = .setMsgFlags f0 f1 f2 f3 ∧ s.cmd = .idle ∧
      t = { s with
            txFlag := { recvLen := f0, stop := f1 }
            rxFlag := { recvLen := f2, stop := f3 }
            cmd := .idle
            results := s.results ++ [0] }) ∨
    (i = .configureMaster ∧ s.cmd = .idle ∧
      t = { s with
            functionality := { i2cDefault := true, tenBitAddr := true }
            masterCfg := masterConfig s.params s.timing.busFreqHz
            cmd := .idle
            results := s.results ++ [0] }) ∨
    (i = .configureFifoMaster ∧ s.cmd = .idle ∧
      t = { s with
            trace := s.trace ++
              [.regWrite .txTl (txThreshold s.params.txFifoDepth), .regWrite .rxTl 0, .regWrite .con s.masterCfg]
            cmd := .idle
            results := s.results ++ [0] }) ∨
    (∃ evs o ra ea n, i = .initMaster ∧ s.cmd = .idle ∧ DisableShape s.params evs o ∧
      t = { s with
            trace := s.trace ++ (evs ++ writeEvents (countWritesOf s.timing) ++
              [.regWrite .txTl (txThreshold s.params.txFifoDepth), .regWrite .rxTl 0,
               .regWrite .con (masterConfig s.params s.timing.busFreqHz)])
            lastDisable := some o
            functionality := { i2cDefault := true, tenBitAddr := true }
            masterCfg := masterConfig s.params s.timing.busFreqHz
            initialized := true
            cmd := .idle
            results := s.results ++ [0]
            readAnswers := ra
            expiredAnswers := ea
            draws := n }) ∨
    (∃ evs o ra ea n, i = .disable ∧ s.cmd = .idle ∧ DisableShape s.params evs o ∧
      t = { s with
            trace := s.trace ++ evs
            lastDisable := some o
            cmd := .idle
            results := s.results ++ [o.result.word]
            readAnswers := ra
            expiredAnswers := ea
            draws := n }) ∨
    (∃ tar ops, ((∃ a, i = .transfer7 a ops ∧ tar = tarOf7 a) ∨ ∃ a, i = .transfer10 a ops ∧ tar = tarOf10 a) ∧
      transfer tar ops s = .next t) ∨
    (∃ buf, i = .opWrite buf) ∨ (∃ len, i = .opRead len) ∨
    (i.isDataCmd = true ∧ ∃ rs, t = { s with asked := s.asked ++ rs }) := by
  cases i with
  | setTiming sel val =>
    obtain ⟨hc, rfl⟩ := runCommand_next (f := setTiming sel (val.setWidth 32)) (r := fun _ => .ok) h
    exact .inl ⟨sel, val, rfl, hc, rfl⟩
  | setMsgFlags a b c d =>
    obtain ⟨hc, rfl⟩ := runCommand_next (f := setMsgFlags a b c d) (r := fun _ => .ok) h
    exact .inr (.inl ⟨a, b, c, d, rfl, hc, rfl⟩)
  | configureMaster =>
    obtain ⟨hc, rfl⟩ := runCommand_next (f := configureMaster) (r := fun _ => .ok) h
    exact .inr (.inr (.inl ⟨rfl, hc, rfl⟩))
  | configureFifoMaster =>
    obtain ⟨hc, rfl⟩ := runCommand_next (f := configureFifoMaster) (r := fun _ => .ok) h
    rw [configureFifoMaster_eq]
    exact .inr (.inr (.inr (.inl ⟨rfl, hc, rfl⟩)))
  | initMaster =>
    obtain ⟨hc, rfl⟩ := runCommand_next (f := initMaster) (r := fun _ => .ok) h
    obtain ⟨evs, hs, he⟩ := initMaster_spec s
    rw [he]
    refine .inr (.inr (.inr (.inr (.inl ⟨evs, (disableSeq s).1, (disableSeq s).2.readAnswers,
      (disableSeq s).2.expiredAnswers, (disableSeq s).2.draws, rfl, hc, hs, ?_⟩))))
    simp only [State.endCommand, List.append_assoc]
    rfl
  | disable =>
    obtain ⟨hc, rfl⟩ := runCommand_next (f := fun s => (disableSeq s).2) (r := fun s => (disableSeq s).1.result) h
    obtain ⟨evs, hs, he⟩ := disableSeq_spec s
    refine .inr (.inr (.inr (.inr (.inr (.inl ⟨evs, (disableSeq s).1, (disableSeq s).2.readAnswers,
      (disableSeq s).2.expiredAnswers, (disableSeq s).2.draws, rfl, hc, hs, ?_⟩)))))
    generalize (disableSeq s).2 = d at *
    exact congrArg (State.endCommand (disableSeq s).1.result) he
  | transfer7 a ops => exact .inr (.inr (.inr (.inr (.inr (.inr (.inl ⟨_, ops, .inl ⟨a, rfl, rfl⟩, h⟩))))))
  | transfer10 a ops => exact .inr (.inr (.inr (.inr (.inr (.inr (.inl ⟨_, ops, .inr ⟨a, rfl, rfl⟩, h⟩))))))
  | opWrite buf => exact .inr (.inr (.inr (.inr (.inr (.inr (.inr (.inl ⟨buf, rfl⟩)))))))
  | opRead len => exact .inr (.inr (.inr (.inr (.inr (.inr (.inr (.inr (.inl ⟨len, rfl⟩))))))))
  | _ => exact .inr (.inr (.inr (.inr (.inr (.inr (.inr (.inr (.inr ⟨rfl, exec_dataCmd_next rfl h⟩))))))))

/-! ## Steps -/

/-- What a step that completes has done. -/
theorem step_next {s t : State} (h : step s = .next t) :
    (∃ w ws i, s.dataCmds = w :: ws ∧ decodeDataCmd w = .ok i ∧ exec i { s with dataCmds := ws } = .next t) ∨
    (∃ tar ops op, s.dataCmds = [] ∧ s.cmd = .transfer tar ops ∧ ops[s.opIdx]? = some op ∧ exec op.toInstr s = .next t) ∨
    (∃ tar ops, s.dataCmds = [] ∧ s.cmd = .transfer tar ops ∧ ops[s.opIdx]? = none ∧ t = s.endCommand .ok) ∨
    (s.dataCmds = [] ∧ s.cmd = .idle ∧ s.port = [] ∧ t = s) ∨
    (∃ ws i rest, s.dataCmds = [] ∧ s.cmd = .idle ∧ s.port = ws ∧ decode ws = .ok (i, rest) ∧
      exec i { s with port := rest } = .next t) := by
  unfold step fetch at h
  cases hd : s.dataCmds with
  | cons w ws =>
    simp only [hd] at h
    cases hw : decodeDataCmd w with
    | ok i => simp only [hw] at h; exact .inl ⟨w, ws, i, rfl, hw, h⟩
    | error r => simp only [hw] at h; cases h
  | nil =>
    simp only [hd] at h
    cases hc : s.cmd with
    | transfer tar ops =>
      simp only [hc] at h
      cases ho : ops[s.opIdx]? with
      | some op => simp only [ho] at h; exact .inr (.inl ⟨tar, ops, op, rfl, rfl, ho, h⟩)
      | none => simp only [ho] at h; cases h; exact .inr (.inr (.inl ⟨tar, ops, rfl, rfl, ho, rfl⟩))
    | idle =>
      simp only [hc] at h
      cases hp : s.port with
      | nil => simp only [hp] at h; cases h; exact .inr (.inr (.inr (.inl ⟨rfl, rfl, rfl, rfl⟩)))
      | cons w ws =>
        simp only [hp] at h
        cases hw : decode (w :: ws) with
        | ok p => simp only [hw] at h; exact .inr (.inr (.inr (.inr ⟨_, p.1, p.2, rfl, rfl, rfl, hw, h⟩)))
        | error r => simp only [hw] at h; cases h

end Sys2Proof.Machine
end

