-- ==== Sys2Proof/Laws/PerInstr.lean ====
section
/-! SUPPORT. The per-instruction family `TableRow`: the first word an instruction encodes to matches the
instruction's row of the opcode table (spec/opcode_table.json). -/

namespace Sys2Proof.Laws.TableRow

/-- A row of the opcode table: the bits it fixes, and their values. -/
structure Row where
  mask : Word
  bits : Word
  deriving DecidableEq, Repr

/-- The opcode-table row of an instruction, as the table lists it. -/
def row : Instr → Row
  | .setTiming _ _ => { mask := 0xF8000000, bits := 0x10000000 }
  | .setMsgFlags _ _ _ _ => { mask := 0xFFFFFFF0, bits := 0x20000000 }
  | .configureMaster => { mask := 0xFFFFFFFF, bits := 0x30000000 }
  | .configureFifoMaster => { mask := 0xFFFFFFFF, bits := 0x40000000 }
  | .initMaster => { mask := 0xFFFFFFFF, bits := 0x50000000 }
  | .disable => { mask := 0xFFFFFFFF, bits := 0x60000000 }
  | .transfer7 _ _ => { mask := 0xF000FF80, bits := 0x70000000 }
  | .transfer10 _ _ => { mask := 0xF000FC00, bits := 0x80000000 }
  | .opWrite _ => { mask := 0xFFFF0000, bits := 0x90000000 }
  | .opRead _ => { mask := 0xFFFF0000, bits := 0xA0000000 }
  | .dcWr _ => { mask := 0xFFFFFF00, bits := 0x00000000 }
  | .dcWrStop _ => { mask := 0xFFFFFF00, bits := 0x00000200 }
  | .dcWrRestart _ => { mask := 0xFFFFFF00, bits := 0x00000400 }
  | .dcWrRestartStop _ => { mask := 0xFFFFFF00, bits := 0x00000600 }
  | .dcRd => { mask := 0xFFFFFFFF, bits := 0x00000100 }
  | .dcRdRestart => { mask := 0xFFFFFFFF, bits := 0x00000500 }
  | .dcRdStop => { mask := 0xFFFFFFFF, bits := 0x00000300 }
  | .dcRdRestartStop => { mask := 0xFFFFFFFF, bits := 0x00000700 }

/-- The first word of the instruction's encoding matches its opcode-table row. -/
def Statement (i : Instr) : Prop :=
  ∃ w, (encode i).head? = some w ∧ w &&& (row i).mask = (row i).bits

/-- A field the mask leaves out is zero. -/
theorem masked_out {n : Nat} (b : BitVec n) : b &&& 0 = 0 := by simp

/-- A mask acts on the fields of a word one by one. -/
theorem and_append {n m : Nat} (a a' : BitVec n) (b b' : BitVec m) :
    (a ++ b) &&& (a' ++ b') = (a &&& a') ++ (b &&& b') := by
  apply BitVec.eq_of_getLsbD_eq; intro i hi
  simp only [BitVec.getLsbD_and, BitVec.getLsbD_append]
  split <;> rfl

theorem setTiming (sel : TimingSel) (val : BitVec 24) : Statement (.setTiming sel val) := by
  refine ⟨_, rfl, ?_⟩
  show (0x1 : BitVec 4) ++ sel.code ++ val &&& ((0xF : BitVec 4) ++ (0x8 : BitVec 4) ++ (0 : BitVec 24)) = _
  rw [and_append, masked_out]
  cases sel <;> rfl

theorem setMsgFlags (a b c d : Bool) : Statement (.setMsgFlags a b c d) := by
  revert a b c d
  unfold Statement
  simp only [encode, List.head?_cons, Option.some.injEq, exists_eq_left']
  decide

theorem configureMaster : Statement .configureMaster := ⟨_, rfl, rfl⟩
theorem configureFifoMaster : Statement .configureFifoMaster := ⟨_, rfl, rfl⟩
theorem initMaster : Statement .initMaster := ⟨_, rfl, rfl⟩
theorem disable : Statement .disable := ⟨_, rfl, rfl⟩

theorem transfer7 (a : BitVec 7) (ops : List Op) : Statement (.transfer7 a ops) := by
  refine ⟨_, rfl, ?_⟩
  show (0x7 : BitVec 4) ++ BitVec.ofNat 12 ops.length ++ (0 : BitVec 9) ++ a &&&
    ((0xF : BitVec 4) ++ (0 : BitVec 12) ++ (0x1FF : BitVec 9) ++ (0 : BitVec 7)) = _
  rw [and_append, and_append, and_append, masked_out, masked_out]
  rfl

theorem transfer10 (a : BitVec 10) (ops : List Op) : Statement (.transfer10 a ops) := by
  refine ⟨_, rfl, ?_⟩
  show (0x8 : BitVec 4) ++ BitVec.ofNat 12 ops.length ++ (0 : BitVec 6) ++ a &&&
    ((0xF : BitVec 4) ++ (0 : BitVec 12) ++ (0x3F : BitVec 6) ++ (0 : BitVec 10)) = _
  rw [and_append, and_append, and_append, masked_out, masked_out]
  rfl

theorem opWrite (buf : List Byte) : Statement (.opWrite buf) := by
  refine ⟨_, rfl, ?_⟩
  show (0x9 : BitVec 4) ++ (0 : BitVec 12) ++ BitVec.ofNat 16 buf.length &&&
    ((0xF : BitVec 4) ++ (0xFFF : BitVec 12) ++ (0 : BitVec 16)) = _
  rw [and_append, and_append, masked_out]
  rfl

theorem opRead (len : BitVec 16) : Statement (.opRead len) := by
  refine ⟨_, rfl, ?_⟩
  show (0xA : BitVec 4) ++ (0 : BitVec 12) ++ len &&&
    ((0xF : BitVec 4) ++ (0xFFF : BitVec 12) ++ (0 : BitVec 16)) = _
  rw [and_append, and_append, masked_out]
  rfl

/-- A data-command word masked to bits [31:8]: RESTART, STOP and CMD_READ are what is left (R115). -/
theorem dataCmdWord_masked (r s c : Bool) (b : Byte) :
    dataCmdWord r s c b &&& 0xFFFFFF00 = dataCmdWord r s c 0 := by
  unfold dataCmdWord
  show (0 : BitVec 21) ++ BitVec.ofBool r ++ BitVec.ofBool s ++ BitVec.ofBool c ++ b &&&
    ((0xFFFFFF : BitVec 24) ++ (0 : BitVec 8)) = _
  rw [and_append, masked_out]
  revert r s c; decide

theorem dcWr (b : Byte) : Statement (.dcWr b) := ⟨_, rfl, (dataCmdWord_masked _ _ _ b).trans rfl⟩
theorem dcWrStop (b : Byte) : Statement (.dcWrStop b) := ⟨_, rfl, (dataCmdWord_masked _ _ _ b).trans rfl⟩
theorem dcWrRestart (b : Byte) : Statement (.dcWrRestart b) := ⟨_, rfl, (dataCmdWord_masked _ _ _ b).trans rfl⟩
theorem dcWrRestartStop (b : Byte) : Statement (.dcWrRestartStop b) :=
  ⟨_, rfl, (dataCmdWord_masked _ _ _ b).trans rfl⟩
theorem dcRd : Statement .dcRd := ⟨_, rfl, rfl⟩
theorem dcRdRestart : Statement .dcRdRestart := ⟨_, rfl, rfl⟩
theorem dcRdStop : Statement .dcRdStop := ⟨_, rfl, rfl⟩
theorem dcRdRestartStop : Statement .dcRdRestartStop := ⟨_, rfl, rfl⟩

end Sys2Proof.Laws.TableRow
end

