-- ==== Sys2Proof/Tests/Slice0.lean ====
section
/-! SUPPORT. Tests: words written out from the spec's encodings, one-step checks against the vectors of
spec/95_test_vectors.md, ill-formed terms, and a witness for the hypotheses of every statement. -/

namespace Sys2Proof.Tests

open Sys2Proof Sys2Proof.Machine

/-! ## Small states (the conventions of 95_test_vectors.md) -/

/-- Both FIFO depths 8, the other parameters the spec's defaults. -/
def params8 : Params := { Config.params with txFifoDepth := 8, rxFifoDepth := 8 }

/-- The state after reset with both depths 8 and the answers given. -/
def boot (reads : List Word) (exps : List Bool) : State :=
  { State.reset with params := params8, readAnswers := reads, expiredAnswers := exps }

/-- The initialised state of 95_test_vectors.md. -/
def ready (reads : List Word) (exps : List Bool) : State :=
  { boot reads exps with
    masterCfg := 0x65
    functionality := { i2cDefault := true, tenBitAddr := true }
    initialized := true
    lastDisable := some .disabled }

/-- Inside a transaction for the target 0x50, at operation `idx`, read buffers of bytes 0xEE. -/
def walking (ops : List Op) (idx : Nat) (reads : List Word) (exps : List Bool) : State :=
  { ready reads exps with
    cmd := .transfer 0x50 ops
    opIdx := idx
    writesLeft := countWrites (ops.drop idx)
    rbufs := ops.filterMap (fun o => match o with
      | .write _ => none
      | .read len => some (List.replicate len.toNat 0xEE)) }

/-- What is seen of a next state. -/
def seen {α : Type} (f : State → α) : Host.Outcome State Fault Refusal → Option α
  | .next t => some (f t)
  | .fault _ => none
  | .refused _ => none

/-- What is seen of the state a fault carries. -/
def seenAtFault {α : Type} (f : State → α) : Host.Outcome State Fault Refusal → Option (String × α)
  | .fault (.txLevelAboveDepth u) => some ("TxLevelAboveDepth", f u)
  | .fault (.counterOverflow u) => some ("CounterOverflow", f u)
  | .next _ => none
  | .refused _ => none

/-- The quiet disable's events (95_test_vectors.md). -/
def quiet : List PortEvent :=
  [.regRead .rawIntrStat 0, .regRead .enable 0, .regWrite .enable 0, .regRead .enableStatus 0]

/-- The answers of a quiet disable and a setup that reads CON as `con`. -/
def quietSetup (con : Word) : List Word := [0, 0, 0, con, 1, 0]

/-! ## Decoding: one word of every constructor (V-E3, R100 to R109, R115, R117, R270 to R276) -/

theorem test_decode_setTiming :
    decode [0x10061A80] = .ok (.setTiming .busFreqHz 400000, []) ∧
    decode [0x17FFFFFF] = .ok (.setTiming .sdaHold 0xFFFFFF, []) ∧
    decode [0x120001D6] = .ok (.setTiming .ssLcnt 0x1D6, []) := by decide +kernel

theorem test_decode_setMsgFlags :
    decode [0x20000005] = .ok (.setMsgFlags true false true false, []) ∧
    decode [0x20000002] = .ok (.setMsgFlags false true false false, []) ∧
    decode [0x20000008] = .ok (.setMsgFlags false false false true, []) := by decide +kernel

theorem test_decode_configureMaster : decode [0x30000000] = .ok (.configureMaster, []) := by decide +kernel

theorem test_decode_configureFifoMaster :
    decode [0x40000000] = .ok (.configureFifoMaster, []) := by decide +kernel

theorem test_decode_initMaster : decode [0x50000000] = .ok (.initMaster, []) := by decide +kernel

theorem test_decode_disable : decode [0x60000000] = .ok (.disable, []) := by decide +kernel

theorem test_decode_transfer7 :
    decode [0x70020050, 0x90000001, 0x00000010, 0xA0000001] = .ok (.transfer7 0x50 [.write [0x10], .read 1], []) ∧
    decode [0x70010050, 0x90000005, 0x44332211, 0x00000055] =
      .ok (.transfer7 0x50 [.write [0x11, 0x22, 0x33, 0x44, 0x55]], []) := by decide +kernel

theorem test_decode_transfer10 :
    decode [0x80010123, 0x90000000] = .ok (.transfer10 0x123 [.write []], []) ∧
    decode [0x800003FF, 0x60000000] = .ok (.transfer10 0x3FF [], [0x60000000]) := by decide +kernel

theorem test_decode_opWrite :
    decode [0x90000003, 0x00030201] = .ok (.opWrite [0x01, 0x02, 0x03], []) ∧
    decode [0x90000000, 0xA0000001] = .ok (.opWrite [], [0xA0000001]) := by decide +kernel

theorem test_decode_opRead : decode [0xA000FFFE] = .ok (.opRead 0xFFFE, []) := by decide +kernel

theorem test_decode_writeForms :
    decodeDataCmd 0x0A5 = .ok (.dcWr 0xA5) ∧ decodeDataCmd 0x2A5 = .ok (.dcWrStop 0xA5) ∧
    decodeDataCmd 0x4A5 = .ok (.dcWrRestart 0xA5) ∧ decodeDataCmd 0x6A5 = .ok (.dcWrRestartStop 0xA5) := by
  decide +kernel

theorem test_decode_readForms :
    decodeDataCmd 0x100 = .ok .dcRd ∧ decodeDataCmd 0x500 = .ok .dcRdRestart ∧
    decodeDataCmd 0x300 = .ok .dcRdStop ∧ decodeDataCmd 0x700 = .ok .dcRdRestartStop := by decide +kernel

/-- The encoder gives V-T2's words. -/
theorem test_encode_transfer7 :
    encode (.transfer7 0x50 [.write [0x01], .read 2, .write [0x02, 0x03]]) =
      [0x70030050, 0x90000001, 0x00000001, 0xA0000002, 0x90000002, 0x00000302] := by decide +kernel

/-- The refused words of V-E3 and R119. -/
theorem test_refused_words :
    decode [0x18000000] = .error .reservedTimingField ∧ decode [0x20000010] = .error .nonzeroField ∧
    decode [0x30000001] = .error .nonzeroField ∧ decode [0x00000000] = .error .reservedOpcode ∧
    decode [0xB0000000] = .error .reservedOpcode ∧ decode [0xF0000000] = .error .reservedOpcode ∧
    decode [0x70000080] = .error .nonzeroField ∧ decode [0x80000400] = .error .nonzeroField ∧
    decode [0x90010000] = .error .nonzeroField ∧ decode [0xA0010000] = .error .nonzeroField := by decide +kernel

/-- The refused transactions of V-E3. -/
theorem test_refused_transactions :
    decode [0x70010050, 0x90000005, 0x44332211, 0x0000AA55] = .error .nonzeroPadding ∧
    decode [0x70020050, 0x90000000, 0x50000000] = .error .nonOperationInside ∧
    decode [0x70020050, 0xA0000001] = .error .streamIncomplete ∧
    decode [0x90000005, 0x44332211] = .error .streamIncomplete := by decide +kernel

/-- Words that are no form of the command stream: FIRST_DATA_BYTE set, a read with data, a high bit. -/
theorem test_refused_dataCommands :
    decodeDataCmd 0x800 = .error .notADataCommand ∧ decodeDataCmd 0x101 = .error .notADataCommand ∧
    decodeDataCmd 0x80000000 = .error .notADataCommand := by decide +kernel

/-! ## Well-formedness: an ill-formed term for each check -/

/-- An operation list is refused above 4095 operations (R108). -/
theorem opsWf_replicate (n : Nat) : opsWf (List.replicate n (.read 0)) = decide (n ≤ 4095) := by
  simp [opsWf, maxOps, Op.wf]

/-- A write is refused above 65535 bytes (R109), alone or inside a transaction. -/
theorem write_wf_replicate (n : Nat) :
    (Instr.opWrite (List.replicate n 0)).wf = decide (n ≤ 65535) ∧
    opsWf [.write (List.replicate n 0)] = decide (n ≤ 65535) := by
  simp [Instr.wf, opsWf, maxOps, maxLen, Op.wf]

/-- 4096 operations do not fit NOPS; 4095 do. -/
theorem test_wf_too_many_operations (a : BitVec 7) (b : BitVec 10) :
    (Instr.transfer7 a (List.replicate 4096 (.read 0))).wf = false ∧
    (Instr.transfer10 b (List.replicate 4096 (.read 0))).wf = false ∧
    (Instr.transfer7 a (List.replicate 4095 (.read 0))).wf = true ∧
    (Instr.transfer10 b (List.replicate 4095 (.read 0))).wf = true :=
  ⟨opsWf_replicate 4096, opsWf_replicate 4096, opsWf_replicate 4095, opsWf_replicate 4095⟩

/-- A write of 65536 bytes does not fit LEN; one of 65535 does. -/
theorem test_wf_too_many_bytes (a : BitVec 7) (b : BitVec 10) :
    (Instr.opWrite (List.replicate 65536 0)).wf = false ∧
    (Instr.transfer7 a [.write (List.replicate 65536 0)]).wf = false ∧
    (Instr.transfer10 b [.write (List.replicate 65536 0)]).wf = false ∧
    (Instr.opWrite (List.replicate 65535 0)).wf = true :=
  ⟨(write_wf_replicate 65536).1, (write_wf_replicate 65536).2, (write_wf_replicate 65536).2, (write_wf_replicate 65535).1⟩

/-! ## Operands (V-E1, V-E2, V-RD10) -/

theorem test_target_values :
    tarOf7 0x50 = 0x50 ∧ tarOf7 0x7F = 0x7F ∧ tarOf10 0x123 = 0x1123 ∧ tarOf10 0x000 = 0x1000 ∧
    tarOf10 0x3FF = 0x13FF ∧ tarOf10 0x07F = 0x107F := by decide +kernel

theorem test_abort_errors :
    [0x1000, 0x4000, 0x1008, 0x0001, 0x0002, 0x0004, 0x0008, 0x0018, 0x0010, 0x0000, 0x0800, 0x8000].map
      (fun src => (defaultAbortError src).code) = [2, 2, 2, 3, 3, 3, 4, 4, 5, 1, 1, 1] := by decide +kernel

/-! ## Configuration commands -/

/-- V-C1. -/
theorem test_setTiming :
    seen (fun t => (t.timing.busFreqHz, t.timing.ssHcnt, t.trace, t.results)) (exec (.setTiming .busFreqHz 400000) State.reset)
      = some (400000, 0, [], [0]) := by decide +kernel

/-- V-C2. -/
theorem test_setMsgFlags :
    seen (fun t => (t.txFlag.bits, t.rxFlag.bits, t.trace, t.results)) (exec (.setMsgFlags true true false true) State.reset)
      = some (0b11, 0b10, [], [0]) := by decide +kernel

/-- V-C3: the image by frequency. -/
theorem test_configureMaster :
    [100000, 400000, 3400000, 0, 99999, 100001].map (fun f =>
      seen (fun t => (t.masterCfg, t.functionality.bits))
        (exec .configureMaster { State.reset with timing := { State.reset.timing with busFreqHz := f } })) =
      [some (0x63, 3), some (0x65, 3), some (0x67, 3), some (0x65, 3), some (0x65, 3), some (0x65, 3)] := by
  decide +kernel

/-- V-C4. -/
theorem test_configureFifoMaster :
    seen (fun t => (t.trace, t.results)) (exec .configureFifoMaster (ready [] [])) =
      some ([.regWrite .txTl 4, .regWrite .rxTl 0, .regWrite .con 0x65], [0]) ∧
    txThreshold 1 = 0 ∧ txThreshold 7 = 3 ∧ txThreshold 64 = 32 := by decide +kernel

/-- P1: INIT_MASTER's trace and its end state. -/
theorem test_initMaster :
    seen (fun t => (t.trace, t.masterCfg, t.initialized, t.lastDisable, t.results))
      (exec .initMaster
        { boot [0, 0, 0] [] with
          timing :=
            { State.reset.timing with
              busFreqHz := 400000, ssHcnt := 0x190, ssLcnt := 0x1D6, fsHcnt := 0x3C, fsLcnt := 0x82, sdaHold := 0x1E } }) =
      some (quiet ++
        [.regWrite .ssHcnt 0x190, .regWrite .ssLcnt 0x1D6, .regWrite .fsHcnt 0x3C, .regWrite .fsLcnt 0x82,
         .regWrite .sdaHold 0x1E, .regWrite .txTl 4, .regWrite .rxTl 0, .regWrite .con 0x65],
        0x65, true, some .disabled, [0]) := by decide +kernel

/-- V-C5: high-speed counts are written only if both are non-zero. -/
theorem test_initMaster_high_speed :
    [(6, 0), (0, 16), (6, 16)].map (fun c => (countWritesOf { State.reset.timing with hsHcnt := c.1, hsLcnt := c.2 }).drop 4) =
      [[], [], [(.hsHcnt, 6), (.hsLcnt, 16)]] := by decide +kernel

/-! ## Recovery -/

/-- V-R5 and V-R6. -/
theorem test_disable :
    seen (fun t => (t.trace, t.lastDisable, t.results)) (exec .disable (ready [0, 1, 0] [])) =
      some ([.regRead .rawIntrStat 0, .regRead .enable 1, .regWrite .enable 0, .regRead .enableStatus 0],
        some .disabled, [0]) ∧
    seen (fun t => (t.trace, t.results)) (exec .disable (ready [0x2000, 1, 1, 0] [])) =
      some ([.regRead .rawIntrStat 0x2000, .regRead .enable 1, .regWrite .enable 3, .regRead .enable 1,
        .regWrite .enable 0, .regRead .enableStatus 0], [0]) := by decide +kernel

/-- V-R8: the earliest expiry ends the sequence, and the adapter is left as it was. -/
theorem test_disable_abort_timeout :
    seen (fun t => (t.trace, t.lastDisable, t.results)) (exec .disable (ready [0x2000, 1, 3] [true])) =
      some ([.regRead .rawIntrStat 0x2000, .regRead .enable 1, .regWrite .enable 3, .regRead .enable 3,
        .expired 0 true], some .abortTimeout, [8]) := by decide +kernel

/-- V-R3: every acknowledge in ascending order, the abort source read right before its own. -/
theorem test_readClearIntr :
    (readClearIntr (boot [0xFFFFFFFF, 0x12345] [])).after.trace =
      [.regRead .intrStat 0x3FFF, .ack .rxUnder, .ack .rxOver, .ack .rxFull, .ack .txOver, .ack .txEmpty, .ack .rdReq,
       .regRead .txAbrtSource 0x2345, .ack .txAbrt, .ack .rxDone, .ack .activity, .ack .stopDet, .ack .startDet,
       .ack .genCall, .ack .restartDet, .ack .mstOnHold] := by decide +kernel

/-! ## Transactions -/

/-- V-T1. -/
theorem test_transfer7 :
    seen (fun t => (t.trace, t.cmd, t.results)) (exec (.transfer7 0x50 []) (ready (quietSetup 0x65) [])) =
      some (quiet ++
        [.regRead .con 0x65, .regWrite .con 0x65, .regWrite .tar 0x50, .regWrite .intrMask 0, .regWrite .enable 1,
         .regRead .enableStatus 1, .regRead .intrStat 0, .regWrite .intrMask 0x254], .idle, [0]) := by decide +kernel

/-- V-T7: a 7-bit transfer clears bit 4 of CON; the walk starts. -/
theorem test_transfer7_after_ten_bit :
    seen (fun t => (t.trace.drop 4 |>.take 3, t.cmd, t.writesLeft, t.rbufs))
      (exec (.transfer7 0x50 [.write [0x10], .read 1])
        { ready (quietSetup 0x75) [] with rbufSupply := [[0xEE]] }) =
      some ([.regRead .con 0x75, .regWrite .con 0x65, .regWrite .tar 0x50],
        .transfer 0x50 [.write [0x10], .read 1], 1, [[0xEE]]) := by decide +kernel

/-- V-T5. -/
theorem test_transfer10 :
    seen (fun t => (t.trace.drop 4 |>.take 3, t.results)) (exec (.transfer10 0x07F []) (ready (quietSetup 0x65) [])) =
      some ([.regRead .con 0x65, .regWrite .con 0x75, .regWrite .tar 0x107F], [0]) := by decide +kernel

/-- V-W4, V-W6: ten bytes on eight of headroom, and a stop that is never queued. -/
theorem test_opWrite_too_long :
    seen (fun t => (t.dataCmds, t.status.wip, t.txOutstanding, t.txBufLen))
      (exec (.opWrite [0, 1, 2, 3, 4, 5, 6, 7, 8, 9]) (walking [.write [0, 1, 2, 3, 4, 5, 6, 7, 8, 9]] 0 [0] [])) =
      some ([0x400, 0x001, 0x002, 0x003, 0x004, 0x005, 0x006, 0x007], true, 1, 2) ∧
    seen (fun t => (t.dataCmds, t.status.wip, t.txOutstanding, t.txBufLen))
      (exec (.opWrite [1, 2, 3, 4]) (walking [.write [1, 2, 3, 4]] 0 [5] [])) =
      some ([0x401, 0x002, 0x003], true, 1, 1) := by decide +kernel

/-- V-W2 and V-W3: the mask and the stop of a write that is not the last, and of the last. -/
theorem test_opWrite :
    seen (fun t => (t.trace, t.cmd == .idle, t.writesLeft, t.results))
      (exec (.opWrite [1, 2, 3]) (walking [.write [1, 2, 3], .write [9]] 0 [0] [])) =
      some ([.regRead .txflr 0, .regWrite .dataCmd 0x401, .regWrite .dataCmd 0x002, .regWrite .dataCmd 0x003,
        .regWrite .intrMask 0x254], false, 1, []) ∧
    seen (fun t => (t.trace, t.cmd == .idle, t.status.wip, t.results))
      (exec (.opWrite [1, 2, 3]) (walking [.write [1, 2, 3]] 0 [5] [])) =
      some ([.regRead .txflr 5, .regWrite .dataCmd 0x401, .regWrite .dataCmd 0x002, .regWrite .dataCmd 0x203,
        .regWrite .intrMask 0x244], true, false, [0]) := by decide +kernel

/-- V-RD1: two bytes drained, bits [11:8] of a pop ignored. -/
theorem test_opRead :
    seen (fun t => (t.trace, t.rbufs, t.status.rip, t.results))
      (exec (.opRead 2) (walking [.read 2] 0 [4, 2, 0x0AB, 0x1CD] [])) =
      some ([.regWrite .dataCmd 0x500, .regRead .intrStat 4, .ack .rxFull, .regRead .rxflr 2, .regRead .dataCmd 0x0AB,
        .regRead .dataCmd 0x1CD], [[0xAB, 0xCD]], false, [0]) := by decide +kernel

/-- V-RD5: an abort in the same status as receive-full is served. -/
theorem test_opRead_abort :
    seen (fun t => (t.trace, t.msgErr, t.cmd == .idle, t.results))
      (exec (.opRead 2) (walking [.read 2, .write [1]] 0 [0x44, 8] [])) =
      some ([.regWrite .dataCmd 0x500, .regRead .intrStat 0x44, .ack .rxFull, .regRead .txAbrtSource 8, .ack .txAbrt],
        true, true, [4]) := by decide +kernel

/-- V-RD7. -/
theorem test_length_prefix :
    [0x000, 0x021, 0x0FF, 0x001, 0x020].map (storedByte true) = [0x01, 0x01, 0x01, 0x01, 0x20] := by decide +kernel

/-! ## Data-command words -/

/-- R270 to R276: one step takes the word off the command stream and records what it asks. -/
theorem test_write_forms :
    [0x0A5, 0x2A5, 0x4A5, 0x6A5].map (fun w => seen (fun t => (t.asked, t.dataCmds))
      (step { State.reset with dataCmds := [w] })) =
      [some ([.transmit 0xA5], []), some ([.transmit 0xA5, .stop], []), some ([.restart, .transmit 0xA5], []),
       some ([.restart, .transmit 0xA5, .stop], [])] := by decide +kernel

theorem test_read_forms :
    [0x100, 0x500, 0x300, 0x700].map (fun w => seen (fun t => (t.asked, t.dataCmds))
      (step { State.reset with dataCmds := [w] })) =
      [some ([.readByte], []), some ([.restart, .readByte], []), some ([.readByte, .stop], []),
       some ([.restart, .readByte, .stop], [])] := by decide +kernel

/-! ## Fetching placed words -/

/-- A placed word is what the next step runs: a command, an operation and a data-command word. -/
theorem test_withFetchWord :
    seen (fun t => t.results) (step ((boot [] []).withFetchWord 32 0x20000005)) = some [0] ∧
    fetch ((boot [] []).withFetchWord 32 0x90000000) =
      .run (.opWrite []) ((boot [] []).withFetchWord 32 0x90000000) ∧
    fetch ((boot [] []).withFetchWord 32 0xA0000000) = .run (.opRead 0) ((boot [] []).withFetchWord 32 0xA0000000) ∧
    seen (fun t => t.asked) (step ((boot [] []).withFetchWord 32 0x6A5)) = some [.restart, .transmit 0xA5, .stop] := by
  decide +kernel

/-! ## Witnesses: states and operands that meet the hypotheses of each statement -/

/-- A state whose next step sets RECV_LEN and STOP of both flags. -/
def flagsNext : State := { boot [] [] with port := [0x2000000F] }

/-- A transaction of one write of ten bytes, to be run with TXFLR 0. -/
def tenBytes : State := walking [.write [0, 1, 2, 3, 4, 5, 6, 7, 8, 9]] 0 [0] []

/-- A transaction of one read of one byte with three bytes to pop. -/
def threeWaiting : State := walking [.read 1] 0 [4, 3, 0x011] []

theorem witness_ReadIsTheMaskedAnswer :
    (boot [0xFFFFFFFF] []).readAnswers = 0xFFFFFFFF :: [] ∧ State.reset.readAnswers = [] := ⟨rfl, rfl⟩

theorem witness_AllOnesGivesTheValidMask :
    (boot [0xFFFFFFFF] []).readAnswers.head? = some 0xFFFFFFFF ∧
    ({ State.reset with readAnswers := [0xFFFFFFFF] } : State).readAnswers.head? = some 0xFFFFFFFF ∧
    ({ State.reset with readAnswers := [0xFFFFFFFF] } : State).params = Config.params := ⟨rfl, rfl, rfl⟩

/-- For SetTimingStoresOneField, SetMsgFlagsStoresTheFlags, ConfigureMasterComputesTheImage,
DisableFollowsTheStateMachine, TransferBeforeInitIsRefused and IdleWaits. -/
theorem witness_idle :
    State.reset.cmd = .idle ∧ State.reset.initialized = false ∧ State.reset.dataCmds = [] ∧ State.reset.port = [] :=
  ⟨rfl, rfl, rfl, rfl⟩

/-- For ConfigureFifoMasterWritesThree and InitMasterProgramsTheController: the least depth, and the
greatest whose half fits 32 bits. -/
theorem witness_threshold_fits :
    State.reset.cmd = .idle ∧ ({ params8 with txFifoDepth := 1 } : Params).txFifoDepth / 2 < 2 ^ 32 ∧
    ({ params8 with txFifoDepth := 2 ^ 33 - 1 } : Params).txFifoDepth / 2 < 2 ^ 32 := by decide +kernel

theorem replicate_all {p : Word → Prop} (n : Nat) (v : Word) (h : p v) : ∀ b ∈ List.replicate n v, p b :=
  fun _ hb => (List.eq_of_mem_replicate hb) ▸ h

/-- The first attempt, and the hundredth. -/
theorem witness_DisableEndsAtTheFirstInactiveAnswer :
    ((boot [0, 1, 4] []).cmd = .idle ∧ (boot [0, 1, 4] []).readAnswers = 0 :: 1 :: ([] ++ 4 :: []) ∧
      (0 : Word).getLsbD 13 = false ∧ ([] : List Word).length < 100 ∧ (∀ b ∈ ([] : List Word), b.getLsbD 0 = true) ∧
      (4 : Word).getLsbD 0 = false) ∧
    ((boot (0 :: 1 :: (List.replicate 99 0x21 ++ 4 :: [])) []).readAnswers = 0 :: 1 :: (List.replicate 99 0x21 ++ 4 :: []) ∧
      (List.replicate 99 (0x21 : Word)).length < 100 ∧ ∀ b ∈ List.replicate 99 (0x21 : Word), b.getLsbD 0 = true) :=
  ⟨⟨rfl, rfl, rfl, by decide, nofun, rfl⟩, rfl, by decide, replicate_all 99 0x21 rfl⟩

theorem witness_DisableGivesUpAfterHundredAttempts :
    (boot (0 :: 1 :: (List.replicate 99 1 ++ 1 :: [])) []).cmd = .idle ∧
    (boot (0 :: 1 :: (List.replicate 99 1 ++ 1 :: [])) []).readAnswers = 0 :: 1 :: (List.replicate 99 1 ++ 1 :: []) ∧
    (0 : Word).getLsbD 13 = false ∧ (List.replicate 99 (1 : Word)).length = 99 ∧
    (∀ b ∈ List.replicate 99 (1 : Word), b.getLsbD 0 = true) ∧ (1 : Word).getLsbD 0 = true :=
  ⟨rfl, rfl, rfl, List.length_replicate, replicate_all 99 1 rfl, rfl⟩

/-- Done at the first read and at the twelfth; timed out at the first read and at the twelfth. -/
theorem witness_AbortPollEndsAtTheFirstClearRead :
    (([] : List Word).length ≤ 11 ∧ (boot [1] []).readAnswers = [] ++ 1 :: [] ∧
      (∀ h ∈ ([] : List Word), h.getLsbD 1 = true) ∧ (1 : Word).getLsbD 1 = false ∧
      (boot [1] []).expiredAnswers = List.replicate ([] : List Word).length false ++ []) ∧
    ((List.replicate 11 (3 : Word)).length ≤ 11 ∧
      (boot (List.replicate 11 3 ++ 1 :: []) (List.replicate 11 false)).readAnswers = List.replicate 11 3 ++ 1 :: [] ∧
      (∀ h ∈ List.replicate 11 (3 : Word), h.getLsbD 1 = true) ∧
      (boot (List.replicate 11 3 ++ 1 :: []) (List.replicate 11 false)).expiredAnswers =
        List.replicate (List.replicate 11 (3 : Word)).length false ++ []) ∧
    ((3 : Word).getLsbD 1 = true ∧
      ([true] : List Bool) = (if ([] : List Word).length = 11 then [] else true :: []) ∧
      (boot [3] [true]).expiredAnswers = List.replicate ([] : List Word).length false ++ [true] ∧
      ([] : List Bool) = (if (List.replicate 11 (3 : Word)).length = 11 then [] else true :: [])) :=
  ⟨⟨by decide, rfl, nofun, rfl, rfl⟩, ⟨by decide, rfl, replicate_all 11 3 rfl, rfl⟩, rfl, rfl, rfl, rfl⟩

/-- V-R8 and V-R9: the earliest and the latest expiry; and the quiet disable, where no abort is requested. -/
theorem witness_AbortTimeoutAbandonsTheSequence :
    AbortPollTimesOut (boot [0x2000, 1, 3] [true]) ∧
    AbortPollTimesOut (boot (0x2000 :: 1 :: List.replicate 12 3) (List.replicate 11 false)) ∧
    ¬ AbortPollTimesOut (boot [0, 0, 0] []) := by
  unfold AbortPollTimesOut
  decide +kernel

/-- A status with TX_ABRT clear: the second clause of ReadClearAcknowledgesTheAssertedBits. -/
theorem witness_ReadClearAcknowledgesTheAssertedBits :
    (readClearIntr (boot [0x210] [])).st.getLsbD 6 = false := by decide +kernel

/-- For TransferSevenIsAdmitted and TransferTenIsAdmitted, with and without operations; in Admitted, a
read operation and a byte the host supplied. -/
theorem witness_transfer_admitted :
    (ready [] []).cmd = .idle ∧ (ready [] []).initialized = true ∧
    [Op.write [0x10], Op.read 1][1]? = some (.read 1) ∧
    (({ ready [] [] with rbufSupply := [[0xEE]] } : State).rbufSupply.getD (rbufIndex [.write [0x10], .read 1] 1) [])[0]?
      = some 0xEE := by decide +kernel

theorem witness_FramingIsEnforced :
    State.reset.cmd = .idle ∧ tenBytes.cmd = .transfer 0x50 [.write [0, 1, 2, 3, 4, 5, 6, 7, 8, 9]] ∧
    Instr.isDataCmd .disable = false ∧ (∀ buf, Instr.disable ≠ .opWrite buf) ∧ ∀ len, Instr.disable ≠ .opRead len :=
  ⟨rfl, rfl, rfl, nofun, nofun⟩

/-- The path with a write left in progress, the path without, and the level at the depth (V-W4, V-W5, V-W10). -/
theorem witness_OpWriteRunsTheWritePath :
    (tenBytes.cmd = .transfer 0x50 [.write [0, 1, 2, 3, 4, 5, 6, 7, 8, 9]] ∧
      (tenBytes.readValue .txflr).toNat ≤ tenBytes.params.txFifoDepth ∧
      leavesWip [0, 1, 2, 3, 4, 5, 6, 7, 8, 9] tenBytes ∧ tenBytes.txOutstanding ≠ 0xFFFFFFFF) ∧
    ((walking [.write [1, 2, 3]] 0 [5] []).cmd = .transfer 0x50 [.write [1, 2, 3]] ∧
      ((walking [.write [1, 2, 3]] 0 [5] []).readValue .txflr).toNat ≤ 8 ∧
      ¬ leavesWip [1, 2, 3] (walking [.write [1, 2, 3]] 0 [5] [])) ∧
    ((walking [.write [1, 2]] 0 [8] []).cmd = .transfer 0x50 [.write [1, 2]] ∧
      ((walking [.write [1, 2]] 0 [8] []).readValue .txflr).toNat ≤ 8 ∧
      leavesWip [1, 2] (walking [.write [1, 2]] 0 [8] [])) := by unfold leavesWip; decide +kernel

/-- V-W11. -/
theorem witness_LevelAboveDepthFaults :
    (walking [.write [1]] 0 [9] []).cmd = .transfer 0x50 [.write [1]] ∧
    (walking [.write [1]] 0 [9] []).params.txFifoDepth < ((walking [.write [1]] 0 [9] []).readValue .txflr).toNat := by
  decide +kernel

/-- V-W12; and the eight pushes are on the trace of the state the fault carries. -/
theorem witness_WriteCountOverflowFaults :
    (tenBytes.cmd = .transfer 0x50 [.write [0, 1, 2, 3, 4, 5, 6, 7, 8, 9]] ∧
      (({ tenBytes with txOutstanding := 0xFFFFFFFF } : State).readValue .txflr).toNat ≤ 8 ∧
      leavesWip [0, 1, 2, 3, 4, 5, 6, 7, 8, 9] { tenBytes with txOutstanding := 0xFFFFFFFF }) ∧
    seenAtFault (fun u => (u.trace.length, u.dataCmds.length))
      (exec (.opWrite [0, 1, 2, 3, 4, 5, 6, 7, 8, 9]) { tenBytes with txOutstanding := 0xFFFFFFFF }) =
      some ("CounterOverflow", 9, 8) := by unfold leavesWip; decide +kernel

theorem witness_WriteWordBits :
    2 ≤ [(1 : Byte), 2].length ∧ 1 < 2 ∧ [(1 : Byte), 2][1]? = some 2 ∧ 0 < 2 ∧ [(1 : Byte), 2][0]? = some 1 := by
  decide

/-- Statuses without TX_ABRT and RX_FULL (0x210), at the first read and at the twelfth, then one for each
clause: RX_FULL (V-RD1), TX_ABRT beside RX_FULL with its source (V-RD5), neither (V-RD6). -/
theorem witness_ReadPollEndsAtTheFirstDecisiveStatus :
    (∀ h ∈ ([] : List Word), h.getLsbD 6 = false ∧ h.getLsbD 2 = false) ∧
    ((List.replicate 11 (0x210 : Word)).length ≤ 11 ∧
      ∀ h ∈ List.replicate 11 (0x210 : Word), h.getLsbD 6 = false ∧ h.getLsbD 2 = false) ∧
    ((boot (List.replicate 11 0x210 ++ 4 :: []) (List.replicate 11 false)).expiredAnswers =
        List.replicate (List.replicate 11 (0x210 : Word)).length false ++ [] ∧
      (boot (List.replicate 11 0x210 ++ 4 :: []) (List.replicate 11 false)).readAnswers =
        List.replicate 11 0x210 ++ 4 :: [] ∧
      (4 : Word).getLsbD 6 = false ∧ (4 : Word).getLsbD 2 = true) ∧
    ((boot [0x44, 8] []).readAnswers = [] ++ 0x44 :: 8 :: [] ∧
      (boot [0x44, 8] []).expiredAnswers = List.replicate ([] : List Word).length false ++ [] ∧
      (0x44 : Word).getLsbD 6 = true) ∧
    ((boot [0x210] [true]).readAnswers = [] ++ 0x210 :: [] ∧
      (boot [0x210] [true]).expiredAnswers = List.replicate ([] : List Word).length false ++ [true] ∧
      (0x210 : Word).getLsbD 6 = false ∧ (0x210 : Word).getLsbD 2 = false ∧
      ([true] : List Bool) = (if ([] : List Word).length = 11 then [] else true :: []) ∧
      ([] : List Bool) = (if (List.replicate 11 (0x210 : Word)).length = 11 then [] else true :: [])) :=
  ⟨nofun, ⟨by decide, replicate_all (p := fun h => h.getLsbD 6 = false ∧ h.getLsbD 2 = false) 11 0x210 ⟨rfl, rfl⟩⟩,
    ⟨rfl, rfl, rfl, rfl⟩, ⟨rfl, rfl, rfl⟩, rfl, rfl, rfl, rfl, rfl, rfl⟩

/-- V-RD4: the count at the depth, and above it. -/
theorem witness_ReadOverrunTouchesNothing :
    threeWaiting.cmd = .transfer 0x50 [.read 1] ∧
    ({ threeWaiting with rxOutstanding := 8 } : State).params.rxFifoDepth ≤ (8 : Word).toNat ∧
    ({ threeWaiting with rxOutstanding := 9 } : State).params.rxFifoDepth ≤ (9 : Word).toNat := by decide +kernel

/-- V-RD5. -/
theorem witness_ReadAbortEndsTheTransaction :
    (walking [.read 2] 0 [0x44, 8] []).cmd = .transfer 0x50 [.read 2] ∧
    (walking [.read 2] 0 [0x44, 8] []).rxOutstanding.toNat < (walking [.read 2] 0 [0x44, 8] []).params.rxFifoDepth ∧
    (pollOf (walking [.read 2] 0 [0x44, 8] [])).1 = .abort 8 := by decide +kernel

/-- V-RD6: the latest expiry. -/
theorem witness_ReadTimeoutEndsTheTransaction :
    (walking [.read 1] 0 (List.replicate 12 0) (List.replicate 11 false)).cmd = .transfer 0x50 [.read 1] ∧
    (walking [.read 1] 0 (List.replicate 12 0) (List.replicate 11 false)).rxOutstanding.toNat < 8 ∧
    (pollOf (walking [.read 1] 0 (List.replicate 12 0) (List.replicate 11 false))).1 = .timeout := by decide +kernel

/-- V-RD1 to V-RD3: fewer bytes asked than there are, as many, and more; one outstanding read short of the depth. -/
theorem witness_OpReadRunsTheReadPath :
    (threeWaiting.cmd = .transfer 0x50 [.read 1] ∧ threeWaiting.rxOutstanding.toNat < threeWaiting.params.rxFifoDepth ∧
      (pollOf threeWaiting).1 = .full ∧ (1 : BitVec 16).toNat < occupancy threeWaiting ∧
      threeWaiting.params.rxOutstandingUpdate = .incOnPartial ∧ threeWaiting.rxOutstanding ≠ 0xFFFFFFFF) ∧
    ((pollOf (walking [.read 2] 0 [4, 2, 0x0AB, 0x1CD] [])).1 = .full ∧
      ¬ (2 : BitVec 16).toNat < occupancy (walking [.read 2] 0 [4, 2, 0x0AB, 0x1CD] [])) ∧
    ((pollOf (walking [.read 2] 0 [4, 1, 0x0AB] [])).1 = .full ∧
      ¬ (2 : BitVec 16).toNat < occupancy (walking [.read 2] 0 [4, 1, 0x0AB] [])) ∧
    ({ threeWaiting with rxOutstanding := 7 } : State).rxOutstanding.toNat < 8 := by decide +kernel

/-- `threeWaiting` at the end of the outstanding-read count, with a depth above it. -/
def countAtEnd : State :=
  { threeWaiting with params := { params8 with rxFifoDepth := 2 ^ 32 }, rxOutstanding := 0xFFFFFFFF }

/-- The fault can happen; the state it carries has the read command, the poll, the level read and the pop on
its trace, and the byte popped in the buffer. -/
theorem witness_ReadCountOverflowFaults :
    (countAtEnd.cmd = .transfer 0x50 [.read 1] ∧ countAtEnd.rxOutstanding.toNat < countAtEnd.params.rxFifoDepth ∧
      (pollOf countAtEnd).1 = .full ∧ (1 : BitVec 16).toNat < occupancy countAtEnd ∧
      countAtEnd.params.rxOutstandingUpdate = .incOnPartial ∧ countAtEnd.rxOutstanding = 0xFFFFFFFF) ∧
    seenAtFault (fun u => u.trace) (exec (.opRead 1) countAtEnd) = some ("CounterOverflow",
      [.regWrite .dataCmd 0x500, .regRead .intrStat 4, .ack .rxFull, .regRead .rxflr 3, .regRead .dataCmd 0x011]) ∧
    seenAtFault (fun u => (u.rbufs, u.rxBufLen, u.results)) (exec (.opRead 1) countAtEnd) =
      some ("CounterOverflow", [[0x11]], 2, []) := by decide +kernel

/-- The state after the read of two bytes of which one was there (V-RD2): another buffer, and the bytes from
min(LEN, RXFLR) on; a read that ends in OVERRUN (V-RD4), and one whose poll sees an abort (V-RD5). -/
theorem witness_ReadBufferBytesAreKept :
    (seen (fun t => t.rbufs) (exec (.opRead 2) (walking [.read 2, .read 1] 0 [4, 1, 0x0AB] [])) =
      some [[0xAB, 0xEE], [0xEE]]) ∧
    rbufIndex [.read 2, .read 1] (walking [.read 2, .read 1] 0 [4, 1, 0x0AB] []).opIdx ≠ 1 ∧
    min (2 : BitVec 16).toNat (occupancy (walking [.read 2, .read 1] 0 [4, 1, 0x0AB] [])) ≤ 1 ∧
    (seen (fun t => t.rbufs) (exec (.opRead 1) { threeWaiting with rxOutstanding := 8 }) = some [[0xEE]] ∧
      ({ threeWaiting with rxOutstanding := 8 } : State).params.rxFifoDepth ≤ (8 : Word).toNat) ∧
    (seen (fun t => t.rbufs) (exec (.opRead 2) (walking [.read 2] 0 [0x44, 8] [])) = some [[0xEE, 0xEE]] ∧
      (pollOf (walking [.read 2] 0 [0x44, 8] [])).1 ≠ .full) ∧
    (seen (fun t => t.rbufs) (exec (.opWrite [1]) (walking [.write [1], .read 1] 0 [0] [])) = some [[0xEE]]) ∧
    (∀ len, Instr.opWrite [1] ≠ .opRead len) ∧ (∀ a ops, Instr.opWrite [1] ≠ .transfer7 a ops) ∧
    ∀ a ops, Instr.opWrite [1] ≠ .transfer10 a ops :=
  ⟨by decide +kernel, by decide +kernel, by decide +kernel, by decide +kernel, by decide +kernel, by decide +kernel,
    nofun, nofun, nofun⟩

/-- One source for each clause. -/
theorem witness_DefaultAbortMapping :
    params8.abortError = .specDefault ∧ (0x1000 : Word).getLsbD 12 = true ∧ (0x4000 : Word).getLsbD 14 = true ∧
    ((0x0009 : Word).getLsbD 12 = false ∧ (0x0009 : Word).getLsbD 14 = false ∧ (0x0009 : Word).extractLsb' 0 3 ≠ 0) ∧
    ((0x0018 : Word).extractLsb' 0 3 = 0 ∧ (0x0018 : Word).getLsbD 3 = true) ∧
    ((0x0010 : Word).extractLsb' 0 3 = 0 ∧ (0x0010 : Word).getLsbD 3 = false ∧ (0x0010 : Word).getLsbD 4 = true) ∧
    ((0x0800 : Word).getLsbD 12 = false ∧ (0x0800 : Word).getLsbD 14 = false ∧ (0x0800 : Word).extractLsb' 0 3 = 0 ∧
      (0x0800 : Word).getLsbD 3 = false ∧ (0x0800 : Word).getLsbD 4 = false) := by decide +kernel

theorem witness_DescriptorsRoundTrip :
    (Instr.transfer7 0x50 [.write [0x11, 0x22, 0x33, 0x44, 0x55], .read 0xFFFF]).wf = true ∧
    (Instr.transfer7 0x50 [.write [0x11, 0x22, 0x33, 0x44, 0x55], .read 0xFFFF]).isDataCmd = false := by decide +kernel

theorem witness_DecodingIsCanonical :
    decode [0x70010050, 0x90000001, 0x000000AA, 0x60000000] = .ok (.transfer7 0x50 [.write [0xAA]], [0x60000000]) := by
  decide +kernel

theorem witness_DataCommandsRoundTrip :
    Instr.isDataCmd (.dcWrStop 0xA5) = true ∧ decodeDataCmd 0x2A5 = .ok (.dcWrStop 0xA5) := by decide +kernel

/-- A word for each clause. -/
theorem witness_ReservedEncodingsAreRefused :
    (opc 0x0FFFFFFF).toNat = 0 ∧ 11 ≤ (opc 0xB0000000).toNat ∧ 11 ≤ (opc 0xF0000000).toNat ∧
    ((opc 0x18000000).toNat = 1 ∧ (0x18000000 : Word).getLsbD 27 = true) ∧
    ((opc 0x20000010).toNat = 2 ∧ (0x20000010 : Word).extractLsb' 4 24 ≠ 0) ∧
    (3 ≤ (opc 0x30000001).toNat ∧ (opc 0x68000000).toNat ≤ 6 ∧ (0x30000001 : Word).extractLsb' 0 28 ≠ 0 ∧
      (0x68000000 : Word).extractLsb' 0 28 ≠ 0) ∧
    ((opc 0x70000080).toNat = 7 ∧ (0x70000080 : Word).extractLsb' 7 9 ≠ 0) ∧
    ((opc 0x80000400).toNat = 8 ∧ (0x80000400 : Word).extractLsb' 10 6 ≠ 0) ∧
    ((opc 0x90010000).toNat = 9 ∧ (opc 0xA0010000).toNat = 10 ∧ (0xA0010000 : Word).extractLsb' 16 12 ≠ 0) ∧
    (1 ≤ (opc 0x10000000).toNat ∧ (opc 0x80000000).toNat ≤ 8) := by decide +kernel

/-- A state for each clause. -/
theorem witness_StepRunsTheDecodedInstruction :
    (({ State.reset with dataCmds := [0x6A5] } : State).dataCmds = 0x6A5 :: [] ∧
      decodeDataCmd 0x6A5 = .ok (.dcWrRestartStop 0xA5)) ∧
    (threeWaiting.dataCmds = [] ∧ threeWaiting.cmd = .transfer 0x50 [.read 1] ∧
      [Op.read 1][threeWaiting.opIdx]? = some (.read 1)) ∧
    (flagsNext.dataCmds = [] ∧ flagsNext.cmd = .idle ∧ flagsNext.port = [0x2000000F] ∧
      decode [0x2000000F] = .ok (.setMsgFlags true true true true, [])) ∧
    (({ State.reset with port := [0xB0000000] } : State).port = 0xB0000000 :: [] ∧
      decode [0xB0000000] = .error .reservedOpcode) := by decide +kernel

/-- Invariants hold in the initialised state inside a transaction of two operations, and it has a step. -/
theorem witness_invariants :
    let s := walking [.write [1], .read 1] 0 [0] []
    (BookInv s ∧ WalkInv s ∧ PortInv s) ∧ s.cmd = .transfer 0x50 [.write [1], .read 1] ∧
      (∃ t, step s = .next t) ∧ ∃ t, exec (.opWrite [1]) s = .next t := by
  refine ⟨⟨?_, ?_, ?_⟩, rfl, ⟨_, rfl⟩, _, rfl⟩
  · unfold BookInv; decide +kernel
  · refine ⟨rfl, rfl, by decide, rfl, rfl, rfl, ?_⟩
    intro i len h
    match i, h with
    | 0, h => cases h
    | 1, h => cases h; exact ⟨[0xEE], by decide +kernel, rfl⟩
    | i + 2, h => simp at h
  · exact ⟨nofun, nofun, nofun, by decide +kernel⟩

/-- For OutputsOnlyGrow, OutstandingCountsNeverFall and InProgressFlagsAreIndependent: a step that writes. -/
theorem witness_steps :
    seen (fun t => (t.status.wip, t.txOutstanding)) (step tenBytes) = some (true, 1) ∧
    seen (fun t => (t.status.rip, t.rxOutstanding)) (step threeWaiting) = some (true, 1) ∧
    seen (fun t => (t.status.wip, t.status.rip))
      (step { tenBytes with status := { active := false, wip := false, rip := true } }) = some (true, true) ∧
    tenBytes.initialized = true := by decide +kernel

/-- A step that leaves a transaction in progress while the count stands at the depth. -/
theorem witness_OverrunIsForever :
    let s : State := { walking [.write [1], .read 1] 0 [0] [] with rxOutstanding := 8 }
    s.params.rxFifoDepth ≤ s.rxOutstanding.toNat ∧
    seen (fun t => t.cmd) (step s) = some (.transfer 0x50 [.write [1], .read 1]) := by decide +kernel

/-- An instruction that changes the fields of each clause. -/
theorem witness_FieldsChangeOnlyByTheirWriters :
    seen (fun t => decide (t.timing = State.reset.timing)) (exec (.setTiming .ssHcnt 1) State.reset) = some false ∧
    seen (fun t => (t.txFlag.recvLen, t.rxFlag.recvLen)) (exec (.setMsgFlags true false true false) State.reset) =
      some (true, true) ∧
    seen (fun t => (t.masterCfg, t.functionality.bits)) (exec .configureMaster State.reset) = some (0x65, 3) ∧
    seen (fun t => (t.initialized, t.lastDisable)) (exec .initMaster (boot [0, 0, 0] [])) =
      some (true, some .disabled) ∧
    seen (fun t => (t.status.wip, t.txOutstanding, t.txBufLen)) (exec (.opWrite [0, 1, 2, 3, 4, 5, 6, 7, 8, 9]) tenBytes) =
      some (true, 1, 2) ∧
    seen (fun t => (t.status.rip, t.rxOutstanding, t.rxBufLen)) (exec (.opRead 1) threeWaiting) = some (true, 1, 2) ∧
    seen (fun t => t.msgErr) (exec (.opRead 1) (walking [.read 1] 0 [0x40, 1] [])) = some true ∧
    seen (fun t => (t.msgErr, t.lastDisable)) (exec (.transfer10 0x3FF [])
      { ready (0x2000 :: 1 :: List.replicate 12 3 ++ [0x65, 1, 0]) (List.replicate 11 false) with msgErr := true }) =
      some (false, some .abortTimeout) ∧
    Instr.isDataCmd .dcRd = true ∧ seen (fun t => t.asked) (exec .dcRd State.reset) = some [.readByte] := by
  decide +kernel

/-- V-W7: the flag is cleared by a write that fits; and what it pushes. -/
theorem witness_RestartCarriesOver :
    let s : State := { walking [.write [1]] 0 [0] [] with status := { active := false, wip := true, rip := false } }
    s.status.wip = true ∧ seen (fun t => t.status.wip) (exec (.opWrite [1]) s) = some false ∧
    sentWords [1] s = [0x201] := by decide +kernel

/-- UnreadFieldsDoNotSteer has no hypothesis; a state to take the unread fields from that differs in them, and
the events both runs append. -/
theorem witness_UnreadFieldsDoNotSteer :
    let u : State := { State.reset with rxBufLen := 7, mode := .slave }
    State.blindTo u threeWaiting ≠ threeWaiting ∧
    seen (fun t => (t.trace.length, t.results)) (exec (.opRead 1) threeWaiting) = some (5, [0]) ∧
    seen (fun t => (t.trace.length, t.results)) (exec (.opRead 1) (State.blindTo u threeWaiting)) = some (5, [0]) := by
  decide +kernel

end Sys2Proof.Tests
end

section
/-! PROOF. A register read (R20, R82), for both sources of its raw value: `afterRead_cons` gives the read that the
input list answers; the lemmas here give the read that it does not. -/

namespace Sys2Proof.Machine

/-- With no answer left in the input list the raw value is the free value of the draw counter (log entry 3). -/
theorem nextRaw_of_noAnswers {s : State} (h : s.readAnswers = []) : s.nextRaw = Config.freeRead s.draws := by
  simp only [State.nextRaw, h]

/-- With no answer left in the input list a read advances the draw counter alone. -/
theorem dropRead_of_noAnswers {s : State} (h : s.readAnswers = []) :
    s.dropRead = { s with draws := s.draws + 1 } := by
  simp only [State.dropRead, h]

/-- A read that the input list does not answer: the counterpart of `afterRead_cons`. -/
theorem afterRead_of_noAnswers {s : State} (r : Reg) (h : s.readAnswers = []) :
    s.readValue r = Config.freeRead s.draws &&& r.valid s.params ∧
    s.afterRead r =
      { s with
        trace := s.trace ++ [.regRead r (Config.freeRead s.draws &&& r.valid s.params)]
        draws := s.draws + 1 } := by
  have hv : s.readValue r = Config.freeRead s.draws &&& r.valid s.params := by
    rw [State.readValue, nextRaw_of_noAnswers h]
  refine ⟨hv, ?_⟩
  rw [State.afterRead, hv, dropRead_of_noAnswers h, State.emit]

/-- Settles O2: a case of each source of the raw value, the input list and the free values. -/
theorem readIsTheMaskedAnswer : Obligations.ReadIsTheMaskedAnswer :=
  ⟨fun r _ _ _ h => afterRead_cons r h, fun r _ h => afterRead_of_noAnswers r h⟩

end Sys2Proof.Machine
end

section
/-! PROOF. A step by what stands at its three sources (10_state.md R47): the transmit command stream, the transaction
in progress, the command port. Later proofs run a step by these equations. -/

namespace Sys2Proof.Machine

/-- The next word of the transmit command stream is taken up first. -/
theorem step_of_dataCmd {s : State} {w : Word} {ws : List Word} {i : Instr} (hd : s.dataCmds = w :: ws)
    (hw : decodeDataCmd w = .ok i) : step s = exec i { s with dataCmds := ws } := by
  simp only [step, fetch, hd, hw]

/-- With the stream empty the transaction in progress goes on with its operation. -/
theorem step_of_op {s : State} {tar : Word} {ops : List Op} {op : Op} (hd : s.dataCmds = [])
    (hc : s.cmd = .transfer tar ops) (ho : ops[s.opIdx]? = some op) : step s = exec op.toInstr s := by
  simp only [step, fetch, hd, hc, ho]

/-- A transaction past its last operation ends with OK (log entry 20). -/
theorem step_of_pastEnd {s : State} {tar : Word} {ops : List Op} (hd : s.dataCmds = [])
    (hc : s.cmd = .transfer tar ops) (ho : ops[s.opIdx]? = none) : step s = .next (s.endCommand .ok) := by
  simp only [step, fetch, hd, hc, ho]

/-- An empty port is no command. -/
theorem port_ne_nil_of_decode {ws rest : List Word} {i : Instr} (hw : decode ws = .ok (i, rest)) :
    ∃ w ws', ws = w :: ws' := by
  cases ws with
  | nil => cases hw
  | cons w ws' => exact ⟨w, ws', rfl⟩

/-- With the stream empty and no transaction, the port's next command is taken. -/
theorem step_of_command {s : State} {ws rest : List Word} {i : Instr} (hd : s.dataCmds = []) (hc : s.cmd = .idle)
    (hp : s.port = ws) (hw : decode ws = .ok (i, rest)) : step s = exec i { s with port := rest } := by
  obtain ⟨w, ws', rfl⟩ := port_ne_nil_of_decode hw
  simp only [step, fetch, hd, hc, hp, hw]

/-- Words of the port that are no instruction are refused by the decoder's reason. -/
theorem step_of_reject {s : State} {w : Word} {ws : List Word} {r : Reject} (hd : s.dataCmds = []) (hc : s.cmd = .idle)
    (hp : s.port = w :: ws) (hw : decode (w :: ws) = .error r) : step s = .refused (.encoding r) := by
  simp only [step, fetch, hd, hc, hp, hw]

/-- With nothing issued the machine waits (log entry 10). -/
theorem step_of_nothing {s : State} (hd : s.dataCmds = []) (hc : s.cmd = .idle) (hp : s.port = []) :
    step s = .next s := by
  simp only [step, fetch, hd, hc, hp]

/-- A relation between a state and the next one holds of every step, where it holds of every instruction that completes,
of waiting and of the end of a transaction, and does not depend on the words a step takes. -/
theorem step_lift {P : State → State → Prop} (hexec : ∀ i s t, exec i s = .next t → P s t)
    (hdata : ∀ s ws t, P { s with dataCmds := ws } t → P s t) (hport : ∀ s ws t, P { s with port := ws } t → P s t)
    (hwait : ∀ s, P s s) (hend : ∀ s, P s (s.endCommand .ok)) {s t : State} (h : step s = .next t) : P s t := by
  rcases step_next h with ⟨w, ws, i, -, -, he⟩ | ⟨tar, ops, op, -, -, -, he⟩ | ⟨tar, ops, -, -, -, rfl⟩ |
    ⟨-, -, -, rfl⟩ | ⟨ws, i, rest, -, -, -, -, he⟩
  · exact hdata s ws t (hexec i _ t he)
  · exact hexec _ s t he
  · exact hend s
  · exact hwait t
  · exact hport s rest t (hexec i _ t he)

/-- Settles O43: one equation of `step` for each of its sources. -/
theorem stepRunsTheDecodedInstruction : Obligations.StepRunsTheDecodedInstruction :=
  ⟨fun _ _ _ _ hd hw => step_of_dataCmd hd hw, fun _ _ _ _ hd hc ho => step_of_op hd hc ho,
    fun _ _ _ _ hd hc hp hw => step_of_command hd hc hp hw, fun _ _ _ _ hd hc hp hw => step_of_reject hd hc hp hw⟩

end Sys2Proof.Machine
end

section
/-! PROOF. The state after reset (10_state.md R53): its values, and the three invariants it meets. -/

namespace Sys2Proof.Machine

/-- Settles O1: every field is compared with its value in `State.reset`; a timing field for each selector. -/
theorem resetValues : Obligations.ResetValues := by
  refine ⟨rfl, rfl, rfl, rfl, rfl, rfl, rfl, rfl, rfl, ?_, rfl, rfl, rfl, rfl, rfl, rfl, rfl⟩
  intro f
  cases f <;> rfl

/-- Settles O46: the depths at reset are opaque constants plus 1, so at least 1 (R8). -/
theorem resetMeetsBookkeeping : Obligations.ResetMeetsBookkeeping :=
  ⟨rfl, rfl, Nat.le_add_left 1 _, Nat.le_add_left 1 _, .inl rfl, nofun⟩

/-- Outside a transaction the walk invariant asks nothing. -/
theorem walkInv_of_idle {s : State} (hc : s.cmd = .idle) : WalkInv s := by
  simp only [WalkInv, hc]

/-- Settles O48: reset is Idle. -/
theorem resetMeetsTheWalk : Obligations.ResetMeetsTheWalk := walkInv_of_idle rfl

/-- Settles O50: nothing was issued or answered yet, and the control-register image is 0. -/
theorem resetMeetsThePort : Obligations.ResetMeetsThePort := ⟨nofun, nofun, nofun, rfl⟩

end Sys2Proof.Machine
end

section
/-! PROOF. Which instruction writes which field (10_state.md section 10, the access table R54), from the inversion
lemma of each instruction. -/

namespace Sys2Proof.Machine

/-- Settles O54: a case of each instruction. Its inversion lemma gives the next state as an update of the state before
it; the fields that update does not name are kept. -/
theorem fieldsChangeOnlyByTheirWriters : Obligations.FieldsChangeOnlyByTheirWriters := by
  intro i s t h
  rcases exec_next h with ⟨sel, val, rfl, -, rfl⟩ | ⟨a, b, c, d, rfl, -, rfl⟩ | ⟨rfl, -, rfl⟩ | ⟨rfl, -, rfl⟩ |
    ⟨_, _, _, _, _, rfl, -, -, rfl⟩ | ⟨_, _, _, _, _, rfl, -, -, rfl⟩ | ⟨tar, ops, hi, ht⟩ | ⟨buf, rfl⟩ | ⟨len, rfl⟩ |
    ⟨hd, rs, rfl⟩
  · simp [Instr.isDataCmd]
  · simp [Instr.isDataCmd]
  · simp [Instr.isDataCmd]
  · simp [Instr.isDataCmd]
  · simp [Instr.isDataCmd]
  · simp [Instr.isDataCmd]
  · obtain ⟨-, -, _, _, _, _, _, _, _, _, _, _, -, -, -, -, -, rfl⟩ := transfer_next_spec ht
    rcases hi with ⟨a, rfl, -⟩ | ⟨a, rfl, -⟩ <;> simp [Instr.isDataCmd]
  · obtain ⟨tar, ops, w, -, -, -, -, rfl⟩ := exec_opWrite_next h
    simp [writeDone, Instr.isDataCmd]
  · obtain ⟨tar, ops, -, rfl | ⟨_, _, _, _, _, -, rfl⟩ | ⟨_, _, _, _, -, rfl⟩ | ⟨_, _, _, _, _, -, -, -, -, -, rfl⟩⟩ :=
      exec_opRead_next h <;> simp [readDone, readFailed, Instr.isDataCmd]
  · simp

end Sys2Proof.Machine
end

section
/-! PROOF. The bookkeeping invariant: the two commands that compute the master configuration leave one of its three
values (40_configuration.md R142); every other instruction keeps what the invariant speaks of (R54). -/

namespace Sys2Proof.Machine

/-- CONFIGURE_MASTER's image has one of three values, by the speed class (R142, R143). -/
theorem masterConfig_cases (p : Params) (f : Word) :
    masterConfig p f = 0x63 ∨ masterConfig p f = 0x65 ∨ masterConfig p f = 0x67 := by
  unfold masterConfig speedBits
  split
  · exact .inl rfl
  · split
    · exact .inr (.inr rfl)
    · exact .inr (.inl rfl)

/-- What the two configuring commands leave in the fields they compute (R142, R145). -/
theorem exec_configures {i : Instr} {s t : State} (hi : i = .configureMaster ∨ i = .initMaster)
    (h : exec i s = .next t) :
    t.masterCfg = masterConfig s.params s.timing.busFreqHz ∧
      t.functionality = { i2cDefault := true, tenBitAddr := true } := by
  rcases hi with rfl | rfl
  · obtain ⟨-, rfl⟩ := runCommand_next (f := configureMaster) (r := fun _ => .ok) h
    exact ⟨rfl, rfl⟩
  · obtain ⟨-, rfl⟩ := runCommand_next (f := initMaster) (r := fun _ => .ok) h
    obtain ⟨evs, -, he⟩ := initMaster_spec s
    rw [he]
    exact ⟨rfl, rfl⟩

theorem exec_keeps_bookInv {i : Instr} {s t : State} (hb : BookInv s) (h : exec i s = .next t) : BookInv t := by
  obtain ⟨hactive, hmode, htx, hrx, hcfg, hinit⟩ := hb
  obtain ⟨-, -, wcfg, winit, -, -, -, -, -, eactive, emode, eparams⟩ := fieldsChangeOnlyByTheirWriters i s t h
  refine ⟨eactive ▸ hactive, emode ▸ hmode, eparams ▸ htx, eparams ▸ hrx, ?_⟩
  by_cases hi : i = .configureMaster ∨ i = .initMaster
  · obtain ⟨ecfg, efun⟩ := exec_configures hi h
    have hc := masterConfig_cases s.params s.timing.busFreqHz
    rw [ecfg]
    exact ⟨.inr hc, fun _ => ⟨by rcases hc with hc | hc | hc <;> simp [hc], efun⟩⟩
  · have ecfg : t.masterCfg = s.masterCfg := by_contra fun hne => hi (wcfg (.inl hne))
    have efun : t.functionality = s.functionality := by_contra fun hne => hi (wcfg (.inr hne))
    have einit : t.initialized = s.initialized := by_contra fun hne => hi (.inr (winit hne))
    rw [ecfg, efun, einit]
    exact ⟨hcfg, hinit⟩

/-- Settles O45: what ends a transaction or takes words up touches no field of the invariant. -/
theorem stepKeepsBookkeeping : Obligations.StepKeepsBookkeeping := fun _ _ hb h =>
  step_lift (P := fun s t => BookInv s → BookInv t) (fun _ _ _ he hs => exec_keeps_bookInv hs he)
    (fun _ _ _ k => k) (fun _ _ _ k => k) (fun _ hs => hs) (fun _ hs => hs) h hb

end Sys2Proof.Machine
end

section
/-! PROOF. The walk invariant (10_state.md R47): a decoded operation list is well formed, an operation moves the walk
by one, and a drain keeps every buffer's length. -/

namespace Sys2Proof.Machine

/-! ## What decodes -/

/-- A word that decodes as one of the stream's forms is a data command (R115). -/
theorem decodeDataCmd_isDataCmd {w : Word} {i : Instr} (h : decodeDataCmd w = .ok i) : i.isDataCmd = true := by
  unfold decodeDataCmd at h
  split at h
  · dsimp only at h
    split at h
    case' h_5 | h_6 | h_7 | h_8 => split at h
    all_goals cases h <;> rfl
  · cases h

/-- An operation list that decodes for a NOPS field has an encoding (R108). -/
theorem decodeOps_opsWf {nops : BitVec 12} {ws rest : List Word} {ops : List Op}
    (h : decodeOps nops.toNat ws = .ok (ops, rest)) : opsWf ops = true := by
  obtain ⟨hl, -, hw⟩ := decodeOps_ok _ _ _ _ h
  have hn := nops.isLt
  have hm : ops.length ≤ maxOps := by unfold maxOps; omega
  simp [opsWf, hm, hw]

/-- An operation that decodes at the head of the port has an encoding (R109, R117). -/
theorem toInstr_wf_of_decodeOp {ws rest : List Word} {op : Op} (h : decodeOp ws = .ok (op, rest)) :
    op.toInstr.wf = true := by
  obtain ⟨-, hw⟩ := decodeOp_ok _ _ _ h
  cases op with
  | write buf => exact hw
  | read len => rfl

/-- A command without operands has an encoding whatever its word (R105). -/
theorem eq_of_decodePlain {i j : Instr} {w : Word} {ws rest : List Word} (h : decodePlain j w ws = .ok (i, rest)) :
    i = j := (decodePlain_ok j i w ws rest _ h rfl).1

/-- What decodes has an encoding (R108, R109). -/
theorem decode_wf {ws rest : List Word} {i : Instr} (h : decode ws = .ok (i, rest)) : i.wf = true := by
  cases ws with
  | nil => cases h
  | cons w ws =>
    simp only [decode] at h
    split at h
    case h_1 => split at h <;> cases h; rfl
    case h_2 => split at h <;> cases h; rfl
    case h_3 => rw [eq_of_decodePlain h]; rfl
    case h_4 => rw [eq_of_decodePlain h]; rfl
    case h_5 => rw [eq_of_decodePlain h]; rfl
    case h_6 => rw [eq_of_decodePlain h]; rfl
    case h_7 =>
      split at h
      · split at h <;> cases h
        exact decodeOps_opsWf ‹_›
      · cases h
    case h_8 =>
      split at h
      · split at h <;> cases h
        exact decodeOps_opsWf ‹_›
      · cases h
    case h_9 =>
      split at h <;> cases h
      exact toInstr_wf_of_decodeOp ‹_›
    case h_10 =>
      split at h <;> cases h
      exact toInstr_wf_of_decodeOp ‹_›
    case h_11 => cases h

/-! ## Each read operation has its buffer -/

/-- Each read operation of a list has its buffer of LEN bytes (R86). -/
def BuffersFit (ops : List Op) (bufs : List (List Byte)) : Prop :=
  bufs.length = countReads ops ∧
    ∀ i len, ops[i]? = some (.read len) → ∃ buf, bufs[rbufIndex ops i]? = some buf ∧ buf.length = len.toNat

/-- The walk invariant inside a transaction. -/
theorem walkInv_transfer {s : State} {tar : Word} {ops : List Op} (hc : s.cmd = .transfer tar ops) :
    WalkInv s ↔ s.initialized = true ∧ s.msgErr = false ∧ s.opIdx < ops.length ∧
      s.writesLeft = countWrites (ops.drop s.opIdx) ∧ opsWf ops = true ∧ BuffersFit ops s.rbufs := by
  simp only [WalkInv, hc, BuffersFit]

/-- The buffers of an admitted transaction fit it. -/
theorem takeBuffers_fit (ops : List Op) (sup : List (List Byte)) (d : Nat) :
    BuffersFit ops (takeBuffers ops sup d).1 := by
  refine ⟨takeBuffers_length ops sup d, fun i len hi => ?_⟩
  obtain ⟨buf, hb, hl, -⟩ := takeBuffers_buffer ops sup d i len hi
  exact ⟨buf, hb, hl⟩

/-- Replacing the first bytes of a buffer by as many others, all inside it, keeps the buffers fitting (R86). -/
theorem BuffersFit.store {ops : List Op} {bufs : List (List Byte)} (hf : BuffersFit ops bufs) {j : Nat}
    {len : BitVec 16} (hj : ops[j]? = some (.read len)) {bytes : List Byte} (hb : bytes.length ≤ len.toNat) :
    BuffersFit ops (bufs.modify (rbufIndex ops j) (fun buf => bytes ++ buf.drop bytes.length)) := by
  obtain ⟨hl, hbufs⟩ := hf
  obtain ⟨target, ht, htl⟩ := hbufs j len hj
  refine ⟨by rw [List.length_modify, hl], fun i len' hi => ?_⟩
  obtain ⟨buf, hbuf, hlen⟩ := hbufs i len' hi
  rw [List.getElem?_modify, hbuf]
  by_cases he : rbufIndex ops j = rbufIndex ops i
  · obtain rfl : target = buf := Option.some.inj (ht.symm.trans (he ▸ hbuf))
    refine ⟨bytes ++ target.drop bytes.length, by simp [he], ?_⟩
    rw [List.length_append, List.length_drop]
    omega
  · exact ⟨buf, by simp [he], hlen⟩

/-! ## Operations move the walk by one -/

/-- The writes at or after the position, where a write stands there. -/
theorem countWrites_drop_write {ops : List Op} {i : Nat} {buf : List Byte} (h : ops[i]? = some (.write buf)) :
    countWrites (ops.drop i) - 1 = countWrites (ops.drop (i + 1)) := by
  obtain ⟨hi, he⟩ := List.getElem?_eq_some_iff.mp h
  rw [List.drop_eq_getElem_cons hi, he]
  rfl

/-- The writes at or after the position, where a read stands there. -/
theorem countWrites_drop_read {ops : List Op} {i : Nat} {len : BitVec 16} (h : ops[i]? = some (.read len)) :
    countWrites (ops.drop i) = countWrites (ops.drop (i + 1)) := by
  obtain ⟨hi, he⟩ := List.getElem?_eq_some_iff.mp h
  rw [List.drop_eq_getElem_cons hi, he]
  rfl

/-- After an operation the walk stands at the next one, or the machine is Idle (R228). -/
theorem cmdAfter_cases {s : State} {tar : Word} {ops : List Op} (hc : s.cmd = .transfer tar ops) :
    (s.opIdx + 1 < ops.length ∧ cmdAfter ops s = .transfer tar ops) ∨ cmdAfter ops s = .idle := by
  unfold cmdAfter
  split
  · exact .inl ⟨‹_›, hc⟩
  · exact .inr rfl

/-- An operation that has returned Ok keeps the walk invariant, where the writes left and the buffers are again those
of the invariant (R47, R228). -/
theorem walkInv_opDone {s t : State} {tar : Word} {ops : List Op} (hs : WalkInv s) (hc : s.cmd = .transfer tar ops)
    (einit : t.initialized = s.initialized) (eerr : t.msgErr = s.msgErr) (eidx : t.opIdx = s.opIdx + 1)
    (ecmd : t.cmd = cmdAfter ops s) (hleft : t.writesLeft = countWrites (ops.drop (s.opIdx + 1)))
    (hbufs : BuffersFit ops t.rbufs) : WalkInv t := by
  obtain ⟨hinit, herr, -, -, hops, -⟩ := (walkInv_transfer hc).mp hs
  rcases cmdAfter_cases hc with ⟨hlt, hnext⟩ | hidle
  · exact (walkInv_transfer (ecmd.trans hnext)).mpr ⟨einit.trans hinit, eerr.trans herr, eidx ▸ hlt, eidx ▸ hleft, hops, hbufs⟩
  · exact walkInv_of_idle (ecmd.trans hidle)

theorem exec_opWrite_keeps_walkInv {buf : List Byte} {s t : State} {tar : Word} {ops : List Op} (hs : WalkInv s)
    (hc : s.cmd = .transfer tar ops) (ho : ops[s.opIdx]? = some (.write buf)) (h : exec (.opWrite buf) s = .next t) :
    WalkInv t := by
  obtain ⟨tar', ops', w, hc', -, -, -, rfl⟩ := exec_opWrite_next h
  cases hc.symm.trans hc'
  obtain ⟨-, -, -, hleft, -, hbufs⟩ := (walkInv_transfer hc).mp hs
  have hnext : s.writesLeft - 1 = countWrites (ops.drop (s.opIdx + 1)) := by rw [hleft, countWrites_drop_write ho]
  exact walkInv_opDone hs hc rfl rfl rfl rfl hnext hbufs

theorem exec_opRead_keeps_walkInv {len : BitVec 16} {s t : State} {tar : Word} {ops : List Op} (hs : WalkInv s)
    (hc : s.cmd = .transfer tar ops) (ho : ops[s.opIdx]? = some (.read len)) (h : exec (.opRead len) s = .next t) :
    WalkInv t := by
  obtain ⟨tar', ops', hc', rfl | ⟨_, _, _, _, _, -, rfl⟩ | ⟨_, _, _, _, -, rfl⟩ | ⟨_, ws, _, _, _, -, hn, -, -, -, rfl⟩⟩ :=
    exec_opRead_next h
  · exact walkInv_of_idle rfl
  · exact walkInv_of_idle rfl
  · exact walkInv_of_idle rfl
  · cases hc.symm.trans hc'
    obtain ⟨-, -, -, hleft, -, hbufs⟩ := (walkInv_transfer hc).mp hs
    have hstore : (ws.map (storedByte s.rxFlag.recvLen)).length ≤ len.toNat := by rw [List.length_map]; omega
    refine walkInv_opDone hs hc rfl rfl rfl rfl (hleft.trans (countWrites_drop_read ho)) ?_
    simpa only [readDone, List.length_map] using hbufs.store ho hstore

/-! ## Commands leave the machine Idle or at the start of a walk -/

/-- An admitted transaction with a well-formed list stands at the start of its walk, or has ended (R227, R228). -/
theorem transfer_walkInv {tar : Word} {ops : List Op} {s t : State} (hops : opsWf ops = true)
    (h : transfer tar ops s = .next t) : WalkInv t := by
  obtain ⟨-, hinit, _, _, _, _, _, _, _, _, n, _, -, -, -, -, -, rfl⟩ := transfer_next_spec h
  cases ops with
  | nil => exact walkInv_of_idle rfl
  | cons op ops =>
    exact (walkInv_transfer (tar := tar) (ops := op :: ops) rfl).mpr
      ⟨hinit, rfl, Nat.zero_lt_succ _, rfl, hops, takeBuffers_fit _ _ n⟩

/-- A command taken while Idle leaves the walk invariant, whatever held before. -/
theorem exec_command_walkInv {i : Instr} {s t : State} (hi : i.wf = true) (hc : s.cmd = .idle)
    (h : exec i s = .next t) : WalkInv t := by
  rcases exec_next h with ⟨_, _, -, -, rfl⟩ | ⟨_, _, _, _, -, -, rfl⟩ | ⟨-, -, rfl⟩ | ⟨-, -, rfl⟩ |
    ⟨_, _, _, _, _, -, -, -, rfl⟩ | ⟨_, _, _, _, _, -, -, -, rfl⟩ | ⟨tar, ops, hi', ht⟩ | ⟨buf, rfl⟩ | ⟨len, rfl⟩ |
    ⟨-, rs, rfl⟩
  · exact walkInv_of_idle rfl
  · exact walkInv_of_idle rfl
  · exact walkInv_of_idle rfl
  · exact walkInv_of_idle rfl
  · exact walkInv_of_idle rfl
  · exact walkInv_of_idle rfl
  · refine transfer_walkInv ?_ ht
    rcases hi' with ⟨a, rfl, -⟩ | ⟨a, rfl, -⟩ <;> exact hi
  · obtain ⟨_, _, _, hc', -⟩ := exec_opWrite_next h
    cases hc.symm.trans hc'
  · obtain ⟨_, _, hc', -⟩ := exec_opRead_next h
    cases hc.symm.trans hc'
  · exact walkInv_of_idle hc

/-- Settles O47: an operation moves the walk by one, a command starts one or leaves the machine Idle, and a word of
the command stream touches no field of the walk. -/
theorem stepKeepsTheWalk : Obligations.StepKeepsTheWalk := by
  intro s t hs h
  rcases step_next h with ⟨w, ws, i, -, hw, he⟩ | ⟨tar, ops, op, -, hc, ho, he⟩ | ⟨tar, ops, -, -, -, rfl⟩ |
    ⟨-, -, -, rfl⟩ | ⟨ws, i, rest, -, hc, -, hw, he⟩
  · obtain ⟨rs, rfl⟩ := exec_dataCmd_next (decodeDataCmd_isDataCmd hw) he
    exact hs
  · cases op with
    | write buf => exact exec_opWrite_keeps_walkInv hs hc ho he
    | read len => exact exec_opRead_keeps_walkInv hs hc ho he
  · exact walkInv_of_idle rfl
  · exact hs
  · exact exec_command_walkInv (s := { s with port := rest }) (decode_wf hw) hc he

end Sys2Proof.Machine
end

section
/-! PROOF. Port activity depends on the inputs alone (20_memory.md R80, R82, R183): from two states with the same
parameters, answers and draw counter, a port operation answers the same, shows the same events and uses up the same
inputs. One lemma an operation; with `PortRun`, which says that the rest of the state is kept, they compare two runs. -/

namespace Sys2Proof.Machine

/-- Two states give the port operations the same inputs. -/
structure SameInputs (s s' : State) : Prop where
  params : s'.params = s.params
  readAnswers : s'.readAnswers = s.readAnswers
  expiredAnswers : s'.expiredAnswers = s.expiredAnswers
  draws : s'.draws = s.draws

/-- Two port runs, from `s` to `t` and from `s'` to `t'`, with the same events, that leave the same inputs. -/
def PortTwins (s t s' t' : State) : Prop :=
  ∃ evs, PortRun s evs t ∧ PortRun s' evs t' ∧ SameInputs t t'

/-- Two port operations with the same answer, and twin runs. -/
def TwinAnswers {α : Type} (s s' : State) (p p' : α × State) : Prop := p'.1 = p.1 ∧ PortTwins s p.2 s' p'.2

variable {s s' t t' v v' : State}

theorem PortTwins.sameInputs (h : PortTwins s t s' t') : SameInputs t t' := by
  obtain ⟨-, -, -, hi⟩ := h
  exact hi

theorem PortTwins.refl (h : SameInputs s s') : PortTwins s s s' s' := ⟨[], .refl s, .refl s', h⟩

theorem PortTwins.trans (h : PortTwins s t s' t') (k : PortTwins t v t' v') : PortTwins s v s' v' := by
  obtain ⟨es, h1, h2, -⟩ := h
  obtain ⟨fs, k1, k2, hi⟩ := k
  exact ⟨es ++ fs, h1.trans k1, h2.trans k2, hi⟩

/-- The answer of an operation that follows a twin run. -/
theorem TwinAnswers.after {α : Type} {p p' : α × State} (k : TwinAnswers t t' p p') (h : PortTwins s t s' t') :
    TwinAnswers s s' p p' := ⟨k.1, h.trans k.2⟩

/-! ## Primitives -/

theorem SameInputs.nextRaw (h : SameInputs s s') : s'.nextRaw = s.nextRaw := by
  simp only [State.nextRaw, h.readAnswers, h.draws]

theorem SameInputs.readValue (h : SameInputs s s') (r : Reg) : s'.readValue r = s.readValue r := by
  simp only [State.readValue, h.nextRaw, h.params]

theorem SameInputs.isExpired (h : SameInputs s s') (k : Nat) : s'.isExpired k = s.isExpired k := by
  simp only [State.isExpired, State.nextExpired, h.expiredAnswers, h.draws]

theorem SameInputs.dropRead (h : SameInputs s s') : SameInputs s.dropRead s'.dropRead := by
  cases hs : s.readAnswers <;> have hs' := h.readAnswers.trans hs
  all_goals constructor <;> simp [State.dropRead, hs, hs', h.params, h.expiredAnswers, h.draws]

theorem SameInputs.dropExpired (h : SameInputs s s') : SameInputs s.dropExpired s'.dropExpired := by
  cases hs : s.expiredAnswers <;> have hs' := h.expiredAnswers.trans hs
  all_goals constructor <;> simp [State.dropExpired, hs, hs', h.params, h.readAnswers, h.draws]

theorem SameInputs.emit (h : SameInputs s s') (e e' : PortEvent) : SameInputs (s.emit e) (s'.emit e') :=
  ⟨h.params, h.readAnswers, h.expiredAnswers, h.draws⟩

theorem afterRead_twins (h : SameInputs s s') (r : Reg) : PortTwins s (s.afterRead r) s' (s'.afterRead r) :=
  ⟨_, afterRead_run r s, h.readValue r ▸ afterRead_run r s', h.dropRead.emit _ _⟩

theorem afterExpired_twins (h : SameInputs s s') (k : Nat) :
    PortTwins s (s.afterExpired k) s' (s'.afterExpired k) := by
  refine ⟨_, afterExpired_run k s, h.isExpired k ▸ afterExpired_run k s', ?_⟩
  unfold State.afterExpired
  split
  · exact h.emit _ _
  · exact h.dropExpired.emit _ _

theorem ack_twins (h : SameInputs s s') (b : IntrBit) : PortTwins s (s.ack b) s' (s'.ack b) :=
  ⟨_, ack_run b s, ack_run b s', h.emit _ _⟩

theorem delay_twins (h : SameInputs s s') (us : Nat) : PortTwins s (s.delay us) s' (s'.delay us) :=
  ⟨_, delay_run us s, delay_run us s', h.emit _ _⟩

theorem regWrite_twins (h : SameInputs s s') (r : Reg) (w : Word) :
    PortTwins s (s.regWrite r w) s' (s'.regWrite r w) :=
  ⟨_, regWrite_run r w s, regWrite_run r w s', ⟨h.params, h.readAnswers, h.expiredAnswers, h.draws⟩⟩

theorem regWrites_twins (h : SameInputs s s') (ws : List (Reg × Word)) :
    PortTwins s (s.regWrites ws) s' (s'.regWrites ws) := by
  induction ws generalizing s s' with
  | nil => exact .refl h
  | cons w ws ih =>
    have hw := regWrite_twins h w.1 w.2
    exact hw.trans (ih hw.sameInputs)

/-! ## Interrupt read-and-clear (R170) -/

theorem ackAll_twins (h : SameInputs s s') (bs : List IntrBit) (st src : Word) :
    TwinAnswers s s' (ackAll bs st src s) (ackAll bs st src s') := by
  induction bs generalizing s s' src with
  | nil => exact ⟨rfl, .refl h⟩
  | cons b bs ih =>
    unfold ackAll
    by_cases hb : b.isSet st = true
    · rw [if_pos hb, if_pos hb]
      by_cases ha : b = .txAbrt
      · have hr := afterRead_twins h .txAbrtSource
        have hack := hr.trans (ack_twins hr.sameInputs b)
        rw [if_pos ha, if_pos ha, h.readValue]
        exact (ih hack.sameInputs _).after hack
      · have hack := ack_twins h b
        rw [if_neg ha, if_neg ha]
        exact (ih hack.sameInputs src).after hack
    · rw [if_neg hb, if_neg hb]
      exact ih h src

theorem readClearIntr_twins (h : SameInputs s s') :
    (readClearIntr s').st = (readClearIntr s).st ∧ (readClearIntr s').src = (readClearIntr s).src ∧
      PortTwins s (readClearIntr s).after s' (readClearIntr s').after := by
  have hr := afterRead_twins h .intrStat
  have ha := (ackAll_twins hr.sameInputs intrBits (s.readValue .intrStat) 0).after hr
  unfold readClearIntr
  rw [h.readValue]
  exact ⟨rfl, ha.1, ha.2⟩

/-! ## Bounded polls and the disable loop (R171 to R178, R222) -/

theorem abortPoll_twins (h : SameInputs s s') (left k : Nat) :
    TwinAnswers s s' (abortPoll left k s) (abortPoll left k s') := by
  induction left generalizing s s' k with
  | zero =>
    have hr := afterRead_twins h .enable
    unfold abortPoll
    dsimp only
    rw [h.readValue]
    split
    · exact ⟨rfl, hr⟩
    · exact ⟨rfl, hr.trans (afterExpired_twins hr.sameInputs k)⟩
  | succ left ih =>
    have hr := afterRead_twins h .enable
    have hx := hr.trans (afterExpired_twins hr.sameInputs k)
    have hd := hx.trans (delay_twins hx.sameInputs Config.pollInterval)
    unfold abortPoll
    dsimp only
    rw [h.readValue, hr.sameInputs.isExpired]
    split
    · exact ⟨rfl, hr⟩
    · split
      · exact ⟨rfl, hx⟩
      · exact (ih hd.sameInputs (k + 1)).after hd

theorem disableLoop_twins (h : SameInputs s s') (n : Nat) :
    TwinAnswers s s' (disableLoop n s) (disableLoop n s') := by
  induction n generalizing s s' with
  | zero => exact ⟨rfl, .refl h⟩
  | succ n ih =>
    have hw := regWrite_twins h .enable 0
    have hr := hw.trans (afterRead_twins hw.sameInputs .enableStatus)
    unfold disableLoop
    dsimp only
    rw [hw.sameInputs.readValue]
    split
    · exact ⟨rfl, hr⟩
    · split
      · exact ⟨rfl, hr⟩
      · have hd := hr.trans (delay_twins hr.sameInputs Config.disableSleep)
        exact (ih hd.sameInputs).after hd

theorem abortThenDisable_twins (h : SameInputs s s') (en : Word) :
    TwinAnswers s s' (abortThenDisable en s) (abortThenDisable en s') := by
  have hw := regWrite_twins h .enable (en ||| enAbort)
  obtain ⟨he, hp⟩ := (abortPoll_twins hw.sameInputs Config.pollExhausted 0).after hw
  unfold abortThenDisable
  dsimp only
  rw [he]
  split
  · exact (disableLoop_twins hp.sameInputs _).after hp
  · exact ⟨rfl, hp⟩

theorem disableBody_twins (h : SameInputs s s') : TwinAnswers s s' (disableBody s) (disableBody s') := by
  have hr := afterRead_twins h .rawIntrStat
  have hr' := hr.trans (afterRead_twins hr.sameInputs .enable)
  unfold disableBody
  dsimp only
  rw [h.readValue, hr.sameInputs.readValue]
  split
  · exact (abortThenDisable_twins hr'.sameInputs _).after hr'
  · exact (disableLoop_twins hr'.sameInputs _).after hr'

theorem readPoll_twins (h : SameInputs s s') (left k : Nat) :
    TwinAnswers s s' (readPoll left k s) (readPoll left k s') := by
  induction left generalizing s s' k with
  | zero =>
    obtain ⟨hst, hsrc, hi⟩ := readClearIntr_twins h
    unfold readPoll
    dsimp only
    rw [hst, hsrc]
    split
    · exact ⟨rfl, hi⟩
    · split
      · exact ⟨rfl, hi⟩
      · exact ⟨rfl, hi.trans (afterExpired_twins hi.sameInputs k)⟩
  | succ left ih =>
    obtain ⟨hst, hsrc, hi⟩ := readClearIntr_twins h
    have hx := hi.trans (afterExpired_twins hi.sameInputs k)
    have hd := hx.trans (delay_twins hx.sameInputs Config.pollInterval)
    unfold readPoll
    dsimp only
    rw [hst, hsrc, hi.sameInputs.isExpired]
    split
    · exact ⟨rfl, hi⟩
    · split
      · exact ⟨rfl, hi⟩
      · split
        · exact ⟨rfl, hx⟩
        · exact (ih hd.sameInputs (k + 1)).after hd

/-! ## The read path's poll and pops -/

theorem pollOf_twins (h : SameInputs s s') (hcfg : s'.masterCfg = s.masterCfg) :
    TwinAnswers s s' (pollOf s) (pollOf s') := by
  have hword : readWord s' = readWord s := by rw [readWord, readWord, hcfg]
  have hw := regWrite_twins h .dataCmd (readWord s)
  unfold pollOf
  rw [hword]
  exact (readPoll_twins hw.sameInputs 11 0).after hw

theorem occupancy_eq (h : SameInputs s s') (hcfg : s'.masterCfg = s.masterCfg) : occupancy s' = occupancy s := by
  obtain ⟨-, hp⟩ := pollOf_twins h hcfg
  rw [occupancy, occupancy, hp.sameInputs.readValue]

/-- The bytes stored depend on the pops and on RECV_LEN of the receive flags (R224). -/
theorem popBytes_twins (h : SameInputs s s') (hf : s'.rxFlag.recvLen = s.rxFlag.recvLen) (n : Nat) :
    TwinAnswers s s' (popBytes n s) (popBytes n s') := by
  induction n generalizing s s' with
  | zero => exact ⟨rfl, .refl h⟩
  | succ n ih =>
    have hr := afterRead_twins h .dataCmd
    have hf' : (s'.afterRead .dataCmd).rxFlag.recvLen = (s.afterRead .dataCmd).rxFlag.recvLen := by
      rw [afterRead_eq .dataCmd s, afterRead_eq .dataCmd s']
      exact hf
    obtain ⟨he, hp⟩ := (ih hr.sameInputs hf').after hr
    refine ⟨?_, hp⟩
    simp only [popBytes, he, hf, h.readValue]

end Sys2Proof.Machine
end

section
/-! PROOF. The in-progress flags (10_state.md R35): what an instruction writes to them does not depend on them, because
neither the polls nor the conditions of the write path read the status. -/

namespace Sys2Proof.Machine

/-- The state with its status replaced. -/
def State.withStatus (f : Status) (s : State) : State := { s with status := f }

theorem withStatus_sameInputs (f : Status) (s : State) : SameInputs s (s.withStatus f) := ⟨rfl, rfl, rfl, rfl⟩

/-- Two runs keep or write alike both in-progress flags. -/
def FlagsAlike (s t s' t' : State) : Prop :=
  Alike (fun x => x.status.wip) s t s' t' ∧ Alike (fun x => x.status.rip) s t s' t'

theorem FlagsAlike.of_kept {s t s' t' : State} (h : t.status = s.status) (h' : t'.status = s'.status) :
    FlagsAlike s t s' t' :=
  ⟨.inl ⟨congrArg Status.wip h, congrArg Status.wip h'⟩, .inl ⟨congrArg Status.rip h, congrArg Status.rip h'⟩⟩

/-! ## Instructions that are no operation -/

/-- An instruction that is neither operation keeps the status (R54). -/
theorem exec_keeps_status {i : Instr} {s t : State} (hw : ∀ buf, i ≠ .opWrite buf) (hr : ∀ len, i ≠ .opRead len)
    (h : exec i s = .next t) : t.status = s.status := by
  obtain ⟨-, -, -, -, wwip, wrip, -, -, -, eactive, -, -⟩ := fieldsChangeOnlyByTheirWriters i s t h
  have ewip : t.status.wip = s.status.wip := by_contra fun hne => (wwip (.inl hne)).elim hw
  have erip : t.status.rip = s.status.rip := by_contra fun hne => (wrip (.inl hne)).elim hr
  exact (Status.mk.injEq ..).mpr ⟨eactive, ewip, erip⟩

/-- Whether a command other than an operation completes depends on the position and on `initialized` alone
(R47, R227). -/
theorem exec_completes {i : Instr} {s s' t : State} (hw : ∀ buf, i ≠ .opWrite buf) (hr : ∀ len, i ≠ .opRead len)
    (hc : s'.cmd = s.cmd) (hi : s'.initialized = s.initialized) (h : exec i s = .next t) :
    ∃ t', exec i s' = .next t' := by
  have hcmd : ∀ f r, runCommand f r s = .next t → ∃ t', runCommand f r s' = .next t' := fun f r h =>
    ⟨_, runCommand_idle f r s' (hc.trans (runCommand_next h).1)⟩
  have htr : ∀ tar ops, transfer tar ops s = .next t → ∃ t', transfer tar ops s' = .next t' := fun tar ops h =>
    ⟨_, transfer_admitted tar ops s' (hc.trans (transfer_next h).1) (hi.trans (transfer_next h).2.1)⟩
  cases i with
  | setTiming sel val => exact hcmd (setTiming sel (val.setWidth 32)) (fun _ => .ok) h
  | setMsgFlags a b c d => exact hcmd (setMsgFlags a b c d) (fun _ => .ok) h
  | configureMaster => exact hcmd configureMaster (fun _ => .ok) h
  | configureFifoMaster => exact hcmd configureFifoMaster (fun _ => .ok) h
  | initMaster => exact hcmd initMaster (fun _ => .ok) h
  | disable => exact hcmd (fun s => (disableSeq s).2) (fun s => (disableSeq s).1.result) h
  | transfer7 a ops => exact htr (tarOf7 a) ops h
  | transfer10 a ops => exact htr (tarOf10 a) ops h
  | opWrite buf => exact absurd rfl (hw buf)
  | opRead len => exact absurd rfl (hr len)
  | _ => exact ⟨_, rfl⟩

/-! ## Operations -/

/-- A write operation within the depth that overflows no count reaches its end (R213 to R217). -/
theorem exec_opWrite_completes {buf : List Byte} {s : State} {tar : Word} {ops : List Op} {w : Bool}
    (hc : s.cmd = .transfer tar ops) (hl : (s.readValue .txflr).toNat ≤ s.params.txFifoDepth)
    (hw : w = true ↔ leavesWip buf s) (ho : w = true → s.txOutstanding ≠ 0xFFFFFFFF) :
    exec (.opWrite buf) s = .next (writeDone buf ops w s) := by
  rcases exec_opWrite_cases buf tar ops s hc with ⟨hl', -⟩ | ⟨-, hleft, hmax, -⟩ | ⟨-, hleft, -, he⟩ | ⟨-, hall, he⟩
  · omega
  · exact absurd hmax (ho (hw.mpr hleft))
  · rw [hw.mpr hleft, he]
  · rw [Bool.eq_false_iff.mpr (mt hw.mp hall), he]

/-- The read path comes to its drain: the outstanding count is below the depth and the poll saw RX_FULL (R220, R222). -/
def ReadDrains (s : State) : Prop := s.rxOutstanding.toNat < s.params.rxFifoDepth ∧ (pollOf s).1 = .full

/-- The drain leaves bytes that the outstanding count cannot record (R38, R225). -/
def ReadOverflows (len : BitVec 16) (s : State) : Prop :=
  len.toNat < occupancy s ∧ s.params.rxOutstandingUpdate = .incOnPartial ∧ s.rxOutstanding = 0xFFFFFFFF

/-- A read operation that does not come to its drain completes and keeps the status (R220, R222). -/
theorem exec_opRead_undrained {len : BitVec 16} {s : State} {tar : Word} {ops : List Op}
    (hc : s.cmd = .transfer tar ops) (hd : ¬ ReadDrains s) :
    ∃ t, exec (.opRead len) s = .next t ∧ t.status = s.status := by
  rcases exec_opRead_cases len tar ops s hc with
    ⟨-, he⟩ | ⟨hlt, ⟨_, _, _, _, _, -, -, he⟩ | ⟨_, _, _, _, -, -, he⟩ | ⟨_, _, _, _, _, hp, -⟩⟩
  · exact ⟨_, he, rfl⟩
  · exact ⟨_, he, rfl⟩
  · exact ⟨_, he, rfl⟩
  · exact absurd ⟨hlt, hp⟩ hd

/-- A read operation that drains completes unless the count overflows, and writes READ_IN_PROGRESS by what is left
(R225). -/
theorem exec_opRead_drained {len : BitVec 16} {s : State} {tar : Word} {ops : List Op}
    (hc : s.cmd = .transfer tar ops) (hd : ReadDrains s) :
    (ReadOverflows len s → ∃ f, exec (.opRead len) s = .fault f) ∧
    (¬ ReadOverflows len s → ∃ t, exec (.opRead len) s = .next t ∧
      t.status = { s.status with rip := decide (len.toNat < occupancy s) }) := by
  obtain ⟨hlt, hfull⟩ := hd
  rcases exec_opRead_cases len tar ops s hc with
    ⟨hge, -⟩ | ⟨-, ⟨_, _, _, _, _, hp, -⟩ | ⟨_, _, _, _, hp, -⟩ |
      ⟨_, _, _, _, _, -, -, -, -, ⟨h1, h2, h3, he⟩ | ⟨hno, he⟩⟩⟩
  · omega
  · cases hp.symm.trans hfull
  · cases hp.symm.trans hfull
  · exact ⟨fun _ => ⟨_, he⟩, fun hn => absurd ⟨h1, h2, h3⟩ hn⟩
  · exact ⟨fun ⟨h1, h2, h3⟩ => absurd h3 (hno h1 h2), fun _ => ⟨_, he, rfl⟩⟩

/-- A read operation with another status: the same end, and the flags alike. -/
theorem exec_opRead_withStatus {len : BitVec 16} {s t : State} (f : Status) (h : exec (.opRead len) s = .next t) :
    ∃ t', exec (.opRead len) (s.withStatus f) = .next t' ∧ FlagsAlike s t (s.withStatus f) t' := by
  obtain ⟨tar, ops, hc, -⟩ := exec_opRead_next h
  have hi := withStatus_sameInputs f s
  have hpoll : (pollOf (s.withStatus f)).1 = (pollOf s).1 := (pollOf_twins hi rfl).1
  have hocc : occupancy (s.withStatus f) = occupancy s := occupancy_eq hi rfl
  have hdrains : ReadDrains (s.withStatus f) ↔ ReadDrains s := by
    unfold ReadDrains
    rw [hpoll]
    exact Iff.rfl
  have hover : ReadOverflows len (s.withStatus f) ↔ ReadOverflows len s := by
    unfold ReadOverflows
    rw [hocc]
    exact Iff.rfl
  by_cases hd : ReadDrains s
  · obtain ⟨hfault, hend⟩ := exec_opRead_drained (len := len) hc hd
    have hno : ¬ ReadOverflows len s := fun ho => by
      obtain ⟨r, hr⟩ := hfault ho
      cases hr.symm.trans h
    obtain ⟨t₁, h₁, e₁⟩ := hend hno
    cases h.symm.trans h₁
    obtain ⟨t', h', e'⟩ := (exec_opRead_drained (s := s.withStatus f) (len := len) hc (hdrains.mpr hd)).2 (mt hover.mp hno)
    rw [hocc] at e'
    refine ⟨t', h', .inl ⟨?_, ?_⟩, .inr ?_⟩ <;> simp only [e₁, e']
  · obtain ⟨t₁, h₁, e₁⟩ := exec_opRead_undrained (len := len) hc hd
    cases h.symm.trans h₁
    obtain ⟨t', h', e'⟩ := exec_opRead_undrained (s := s.withStatus f) (len := len) hc (mt hdrains.mp hd)
    exact ⟨t', h', .of_kept e₁ e'⟩

/-- A write operation with another status: the same end, and the flags alike. -/
theorem exec_opWrite_withStatus {buf : List Byte} {s t : State} (f : Status) (h : exec (.opWrite buf) s = .next t) :
    ∃ t', exec (.opWrite buf) (s.withStatus f) = .next t' ∧ FlagsAlike s t (s.withStatus f) t' := by
  obtain ⟨tar, ops, w, hc, hl, hw, ho, rfl⟩ := exec_opWrite_next h
  exact ⟨_, exec_opWrite_completes (s := s.withStatus f) hc hl hw ho, .inr rfl, .inl ⟨rfl, rfl⟩⟩

/-! ## Every instruction and every step -/

/-- An instruction that completes does so with any other status, and keeps or writes the flags alike (R35). -/
theorem exec_withStatus {i : Instr} {s t : State} (f : Status) (h : exec i s = .next t) :
    ∃ t', exec i (s.withStatus f) = .next t' ∧ FlagsAlike s t (s.withStatus f) t' := by
  by_cases hw : ∃ buf, i = .opWrite buf
  · obtain ⟨buf, rfl⟩ := hw
    exact exec_opWrite_withStatus f h
  · by_cases hr : ∃ len, i = .opRead len
    · obtain ⟨len, rfl⟩ := hr
      exact exec_opRead_withStatus f h
    · rw [not_exists] at hw hr
      obtain ⟨t', h'⟩ := exec_completes (s := s) (s' := s.withStatus f) hw hr rfl rfl h
      exact ⟨t', h', .of_kept (exec_keeps_status hw hr h) (exec_keeps_status hw hr h')⟩

/-- A step that completes does so with any other status, and keeps or writes the flags alike (R35). -/
theorem step_withStatus {s t : State} (f : Status) (h : step s = .next t) :
    ∃ t', step (s.withStatus f) = .next t' ∧ FlagsAlike s t (s.withStatus f) t' := by
  rcases step_next h with ⟨w, ws, i, hd, hw, he⟩ | ⟨tar, ops, op, hd, hc, ho, he⟩ | ⟨tar, ops, hd, hc, ho, rfl⟩ |
    ⟨hd, hc, hp, rfl⟩ | ⟨ws, i, rest, hd, hc, hp, hw, he⟩
  · obtain ⟨t', h', hf⟩ := exec_withStatus f he
    exact ⟨t', (step_of_dataCmd (s := s.withStatus f) hd hw).trans h', hf⟩
  · obtain ⟨t', h', hf⟩ := exec_withStatus f he
    exact ⟨t', (step_of_op (s := s.withStatus f) hd hc ho).trans h', hf⟩
  · exact ⟨_, step_of_pastEnd (s := s.withStatus f) hd hc ho, .of_kept rfl rfl⟩
  · exact ⟨_, step_of_nothing (s := t.withStatus f) hd hc hp, .of_kept rfl rfl⟩
  · obtain ⟨t', h', hf⟩ := exec_withStatus f he
    exact ⟨t', (step_of_command (s := s.withStatus f) hd hc hp hw).trans h', hf⟩

/-- No instruction writes both in-progress flags (R35, R54). -/
theorem exec_keeps_wip_or_rip {i : Instr} {s t : State} (h : exec i s = .next t) :
    t.status.wip = s.status.wip ∨ t.status.rip = s.status.rip := by
  obtain ⟨-, -, -, -, wwip, wrip, -⟩ := fieldsChangeOnlyByTheirWriters i s t h
  by_contra hne
  obtain ⟨hwip, hrip⟩ := not_or.mp hne
  obtain ⟨buf, hi⟩ := wwip (.inl hwip)
  obtain ⟨len, hi'⟩ := wrip (.inl hrip)
  cases hi.symm.trans hi'

/-- No instruction clears `initialized` (R48): its one writer, INIT_MASTER, sets it. -/
theorem exec_keeps_initialized {i : Instr} {s t : State} (h : exec i s = .next t) (hs : s.initialized = true) :
    t.initialized = true := by
  obtain ⟨-, -, -, winit, -⟩ := fieldsChangeOnlyByTheirWriters i s t h
  by_contra hne
  obtain rfl := winit (fun he => hne (he.trans hs))
  obtain ⟨-, rfl⟩ := runCommand_next (f := initMaster) (r := fun _ => .ok) h
  exact hne rfl

/-- Settles O55: the step from the state with the other flag at any value is `step_withStatus`; that no step writes both
flags or clears `initialized` is lifted from the instructions. -/
theorem inProgressFlagsAreIndependent : Obligations.InProgressFlagsAreIndependent := by
  intro s t h
  refine ⟨?_, fun b => ?_, fun b => ?_, ?_⟩
  · exact step_lift (P := fun s t => t.status.wip = s.status.wip ∨ t.status.rip = s.status.rip)
      (fun _ _ _ he => exec_keeps_wip_or_rip he) (fun _ _ _ k => k) (fun _ _ _ k => k) (fun _ => .inl rfl)
      (fun _ => .inl rfl) h
  · obtain ⟨t', h', hwip, -⟩ := step_withStatus { s.status with rip := b } h
    exact ⟨t', h', hwip.elim (fun ⟨e, e'⟩ => e'.trans e.symm) Eq.symm⟩
  · obtain ⟨t', h', -, hrip⟩ := step_withStatus { s.status with wip := b } h
    exact ⟨t', h', hrip.elim (fun ⟨e, e'⟩ => e'.trans e.symm) Eq.symm⟩
  · exact step_lift (P := fun s t => s.initialized = true → t.initialized = true)
      (fun _ _ _ he => exec_keeps_initialized he) (fun _ _ _ k => k) (fun _ _ _ k => k) (fun _ hs => hs)
      (fun _ hs => hs) h

end Sys2Proof.Machine
end

section
/-! PROOF. Fields that no rule reads (10_state.md R32, R34, R39 to R41, R43, R45, R49) steer nothing: two runs from
states that differ only in them are alike. The relation is composed along each command from its updates; the port
operations enter by their twin runs. -/

namespace Sys2Proof.Machine

/-- Two states that differ only in the fields no rule reads and in what the ports have shown. -/
def SameRead (s s' : State) : Prop := ∃ u, s' = State.blindTo u s

variable {s s' t t' v v' : State}

theorem SameRead.sameInputs (h : SameRead s s') : SameInputs s s' := by
  obtain ⟨u, rfl⟩ := h
  exact ⟨rfl, rfl, rfl, rfl⟩

/-! ## Runs that are alike compose -/

theorem RunsAlike.sameRead (h : RunsAlike s t s' t') : SameRead t t' := ⟨t', h.1⟩

theorem RunsAlike.sameInputs (h : RunsAlike s t s' t') : SameInputs t t' := h.sameRead.sameInputs

theorem Alike.trans {α : Type} {f : State → α} (h : Alike f s t s' t') (k : Alike f t v t' v') : Alike f s v s' v' := by
  rcases k with ⟨k, k'⟩ | k
  · rcases h with ⟨h, h'⟩ | h
    · exact .inl ⟨k.trans h, k'.trans h'⟩
    · exact .inr (k.trans (h.trans k'.symm))
  · exact .inr k

theorem SameOutputs.trans (h : SameOutputs s t s' t') (k : SameOutputs t v t' v') : SameOutputs s v s' v' := by
  obtain ⟨es, rs, qs, ⟨h1, h2, h3⟩, h4, h5, h6⟩ := h
  obtain ⟨fs, ps, os, ⟨k1, k2, k3⟩, k4, k5, k6⟩ := k
  exact ⟨es ++ fs, rs ++ ps, qs ++ os,
    ⟨by rw [k1, h1, List.append_assoc], by rw [k2, h2, List.append_assoc], by rw [k3, h3, List.append_assoc]⟩,
    by rw [k4, h4, List.append_assoc], by rw [k5, h5, List.append_assoc], by rw [k6, h6, List.append_assoc]⟩

theorem RunsAlike.trans (h : RunsAlike s t s' t') (k : RunsAlike t v t' v') : RunsAlike s v s' v' := by
  obtain ⟨-, ho, h1, h2, h3, h4, h5, h6, h7, h8, h9⟩ := h
  obtain ⟨hb, ko, k1, k2, k3, k4, k5, k6, k7, k8, k9⟩ := k
  exact ⟨hb, ho.trans ko, h1.trans k1, h2.trans k2, h3.trans k3, h4.trans k4, h5.trans k5, h6.trans k6, h7.trans k7,
    h8.trans k8, h9.trans k9⟩

theorem Alike.kept {α : Type} {f : State → α} (h : f t = f s) (h' : f t' = f s') : Alike f s t s' t' := .inl ⟨h, h'⟩

theorem Alike.written {α : Type} {f : State → α} (h : f t = f t') : Alike f s t s' t' := .inr h

/-- Runs that show port events only. -/
theorem SameOutputs.of_events (es : List PortEvent) (h1 : t.trace = s.trace ++ es) (h2 : t.results = s.results)
    (h3 : t.asked = s.asked) (h4 : t'.trace = s'.trace ++ es) (h5 : t'.results = s'.results)
    (h6 : t'.asked = s'.asked) : SameOutputs s t s' t' :=
  ⟨es, [], [], by simp only [h1, h2, h3, List.append_nil, and_self], by simp only [h4, h5, h6, List.append_nil, and_self]⟩

/-- Runs that show nothing. -/
theorem SameOutputs.of_kept (h1 : t.trace = s.trace) (h2 : t.results = s.results) (h3 : t.asked = s.asked)
    (h4 : t'.trace = s'.trace) (h5 : t'.results = s'.results) (h6 : t'.asked = s'.asked) : SameOutputs s t s' t' :=
  .of_events [] (h1.trans (List.append_nil _).symm) h2 h3 (h4.trans (List.append_nil _).symm) h5 h6

/-- The state `s` with the outputs of `t`: what `t` has in its unread fields where the run to it kept them all. -/
def withOutputsOf (t s : State) : State := { s with trace := t.trace, results := t.results, asked := t.asked }

/-- Runs that keep every unread field are alike where the rest ends the same, with the same outputs. -/
theorem RunsAlike.of_kept (hb : t' = State.blindTo t' t) (ho : SameOutputs s t s' t')
    (hk : t = State.blindTo (withOutputsOf t s) t) (hk' : t' = State.blindTo (withOutputsOf t' s') t') :
    RunsAlike s t s' t' :=
  ⟨hb, ho, .kept (congrArg (fun x => x.status.active) hk) (congrArg (fun x => x.status.active) hk'),
    .kept (congrArg (fun x => x.status.rip) hk) (congrArg (fun x => x.status.rip) hk'),
    .kept (congrArg State.txBufLen hk :) (congrArg State.txBufLen hk' :),
    .kept (congrArg State.rxBufLen hk :) (congrArg State.rxBufLen hk' :),
    .kept (congrArg (fun x => x.txFlag.stop) hk) (congrArg (fun x => x.txFlag.stop) hk'),
    .kept (congrArg (fun x => x.rxFlag.stop) hk) (congrArg (fun x => x.rxFlag.stop) hk'),
    .kept (congrArg State.functionality hk :) (congrArg State.functionality hk' :),
    .kept (congrArg State.mode hk :) (congrArg State.mode hk' :),
    .kept (congrArg State.lastDisable hk :) (congrArg State.lastDisable hk' :)⟩

theorem RunsAlike.refl (h : SameRead s s') : RunsAlike s s s' s' := by
  obtain ⟨u, rfl⟩ := h
  exact .of_kept rfl (.of_kept rfl rfl rfl rfl rfl rfl) rfl rfl

/-- An update that commutes with replacing the unread fields reads none of them, and keeps them all. -/
theorem RunsAlike.of_commutes {f : State → State} (hf : ∀ u x, f (State.blindTo u x) = State.blindTo u (f x))
    (h : SameRead s s') : RunsAlike s (f s) s' (f s') := by
  obtain ⟨u, rfl⟩ := h
  have hs : f s = State.blindTo s (f s) := hf s s
  have htrace := congrArg State.trace hs
  have hresults := congrArg State.results hs
  have hasked := congrArg State.asked hs
  have hout : withOutputsOf (f s) s = s := by
    unfold withOutputsOf
    rw [htrace, hresults, hasked]
    rfl
  rw [hf]
  exact .of_kept rfl (.of_kept htrace hresults hasked rfl rfl rfl) (hout.symm ▸ hs) rfl

/-- Twin port runs are alike. -/
theorem PortTwins.runsAlike (k : PortTwins s t s' t') (h : SameRead s s') : RunsAlike s t s' t' := by
  obtain ⟨u, rfl⟩ := h
  obtain ⟨evs, hr, hr', hi⟩ := k
  rw [PortRun, hi.readAnswers, hi.expiredAnswers, hi.draws] at hr'
  rw [PortRun] at hr
  generalize t.readAnswers = ra at hr hr'
  generalize t.expiredAnswers = ea at hr hr'
  generalize t.draws = n at hr hr'
  subst hr hr'
  exact .of_kept rfl (.of_events evs rfl rfl rfl rfl rfl rfl) rfl rfl

/-! ## Updates that show an output or write an unread field -/

theorem endCommand_alike (h : SameRead s s') (r : Result) : RunsAlike s (s.endCommand r) s' (s'.endCommand r) := by
  obtain ⟨u, rfl⟩ := h
  exact .of_kept rfl ⟨[], [r.word], [], by simp [State.endCommand], by simp [State.endCommand]⟩ rfl rfl

theorem ask_alike (h : SameRead s s') (qs : List BusRequest) : RunsAlike s (s.ask qs) s' (s'.ask qs) := by
  obtain ⟨u, rfl⟩ := h
  exact .of_kept rfl ⟨[], [], qs, by simp, by simp⟩ rfl rfl

theorem setLastDisable_alike (h : SameRead s s') (o : DisableOutcome) :
    RunsAlike s { s with lastDisable := some o } s' { s' with lastDisable := some o } := by
  obtain ⟨u, rfl⟩ := h
  exact ⟨rfl, .of_kept rfl rfl rfl rfl rfl rfl, .kept rfl rfl, .kept rfl rfl, .kept rfl rfl, .kept rfl rfl,
    .kept rfl rfl, .kept rfl rfl, .kept rfl rfl, .kept rfl rfl, .written rfl⟩

theorem setMsgFlags_alike (h : SameRead s s') (a b c d : Bool) :
    RunsAlike s (setMsgFlags a b c d s) s' (setMsgFlags a b c d s') := by
  obtain ⟨u, rfl⟩ := h
  exact ⟨rfl, .of_kept rfl rfl rfl rfl rfl rfl, .kept rfl rfl, .kept rfl rfl, .kept rfl rfl, .kept rfl rfl,
    .written rfl, .written rfl, .kept rfl rfl, .kept rfl rfl, .kept rfl rfl⟩

theorem configureMaster_alike (h : SameRead s s') : RunsAlike s (configureMaster s) s' (configureMaster s') := by
  obtain ⟨u, rfl⟩ := h
  exact ⟨rfl, .of_kept rfl rfl rfl rfl rfl rfl, .kept rfl rfl, .kept rfl rfl, .kept rfl rfl, .kept rfl rfl,
    .kept rfl rfl, .kept rfl rfl, .written rfl, .kept rfl rfl, .kept rfl rfl⟩

/-! ## Configuration, the disable sequence, transfer setup and the walk -/

theorem regWrites_alike (h : SameRead s s') (ws : List (Reg × Word)) :
    RunsAlike s (s.regWrites ws) s' (s'.regWrites ws) := (regWrites_twins h.sameInputs ws).runsAlike h

theorem disableSeq_alike (h : SameRead s s') :
    (disableSeq s').1 = (disableSeq s).1 ∧ RunsAlike s (disableSeq s).2 s' (disableSeq s').2 := by
  obtain ⟨he, hp⟩ := disableBody_twins h.sameInputs
  have hb := hp.runsAlike h
  unfold disableSeq
  dsimp only
  rw [he]
  exact ⟨rfl, hb.trans (setLastDisable_alike hb.sameRead _)⟩

theorem configureFifoMaster_alike (h : SameRead s s') :
    RunsAlike s (configureFifoMaster s) s' (configureFifoMaster s') := by
  have hw : fifoMasterWrites s' = fifoMasterWrites s := by
    obtain ⟨u, rfl⟩ := h
    rfl
  unfold configureFifoMaster
  rw [hw]
  exact regWrites_alike h _

theorem initMaster_alike (h : SameRead s s') : RunsAlike s (initMaster s) s' (initMaster s') := by
  obtain ⟨-, hd⟩ := disableSeq_alike h
  have ht : (disableSeq s').2.timing = (disableSeq s).2.timing := by rw [hd.1]; rfl
  have hw := hd.trans (regWrites_alike hd.sameRead (countWritesOf (disableSeq s).2.timing))
  have hc := hw.trans (configureMaster_alike hw.sameRead)
  have hf := hc.trans (configureFifoMaster_alike hc.sameRead)
  unfold initMaster
  dsimp only
  rw [ht]
  exact hf.trans (.of_commutes (f := fun x => { x with initialized := true }) (fun _ _ => rfl) hf.sameRead)

/-- Transfer setup after its disable sequence (R210). -/
def setupAfter (tar : Word) (d : State) : State :=
  let w := ((d.afterRead .con).regWrite .con (conForTar tar (d.readValue .con))).regWrites (setupWrites tar)
  (readClearIntr (w.afterRead .enableStatus)).after.regWrite .intrMask intrMasterMask

theorem xferInit_eq (tar : Word) (s : State) :
    xferInit tar s = setupAfter tar (disableSeq { s with msgErr := false }).2 := rfl

theorem setupAfter_twins (h : SameInputs s s') (tar : Word) :
    PortTwins s (setupAfter tar s) s' (setupAfter tar s') := by
  have hr := afterRead_twins h .con
  have hw := hr.trans (regWrite_twins hr.sameInputs .con (conForTar tar (s.readValue .con)))
  have hs := hw.trans (regWrites_twins hw.sameInputs (setupWrites tar))
  have he := hs.trans (afterRead_twins hs.sameInputs .enableStatus)
  obtain ⟨-, -, hi⟩ := readClearIntr_twins he.sameInputs
  have hx := (he.trans hi).trans (regWrite_twins hi.sameInputs .intrMask intrMasterMask)
  unfold setupAfter
  dsimp only
  rw [h.readValue]
  exact hx

theorem xferInit_alike (h : SameRead s s') (tar : Word) : RunsAlike s (xferInit tar s) s' (xferInit tar s') := by
  have hm : RunsAlike s { s with msgErr := false } s' { s' with msgErr := false } :=
    .of_commutes (f := fun x => { x with msgErr := false }) (fun _ _ => rfl) h
  have hd := hm.trans (disableSeq_alike hm.sameRead).2
  rw [xferInit_eq, xferInit_eq]
  exact hd.trans ((setupAfter_twins hd.sameInputs tar).runsAlike hd.sameRead)

theorem continueWalk_alike (h : SameRead s s') (ops : List Op) :
    RunsAlike s (s.continueWalk ops) s' (s'.continueWalk ops) := by
  have hi : s'.opIdx = s.opIdx := by
    obtain ⟨u, rfl⟩ := h
    rfl
  unfold State.continueWalk
  rw [hi]
  split
  · exact .refl h
  · exact endCommand_alike h .ok

theorem opDone_alike (h : SameRead s s') (ops : List Op) : RunsAlike s (s.opDone ops) s' (s'.opDone ops) := by
  have hi : RunsAlike s { s with opIdx := s.opIdx + 1 } s' { s' with opIdx := s'.opIdx + 1 } :=
    .of_commutes (f := fun x => { x with opIdx := x.opIdx + 1 }) (fun _ _ => rfl) h
  exact hi.trans (continueWalk_alike hi.sameRead ops)

theorem startWalk_alike (h : SameRead s s') (tar : Word) (ops : List Op) :
    RunsAlike s (s.startWalk tar ops) s' (s'.startWalk tar ops) := .of_commutes (fun _ _ => rfl) h

/-! ## Outcomes -/

/-- An outcome reached after runs that are alike. -/
theorem OutcomesAlike.after {o o' : Host.Outcome State Fault Refusal} (k : OutcomesAlike t t' o o')
    (h : RunsAlike s t s' t') : OutcomesAlike s s' o o' := by
  cases o with
  | next w =>
    cases o' with
    | next w' => exact h.trans k
    | fault | refused => exact False.elim k
  | fault f =>
    cases o' with
    | fault f' =>
      cases f with
      | txLevelAboveDepth w =>
        cases f' with
        | txLevelAboveDepth w' => exact h.trans k
        | counterOverflow w' => exact False.elim k
      | counterOverflow w =>
        cases f' with
        | txLevelAboveDepth w' => exact False.elim k
        | counterOverflow w' => exact h.trans k
    | next | refused => cases f <;> exact False.elim k
  | refused r =>
    cases o' with
    | refused r' => exact k
    | next | fault => exact False.elim k

/-- What an operation of a transaction ends with: the next operation, or the fault it met. -/
def opOutcome (ops : List Op) : Except Fault State → Host.Outcome State Fault Refusal
  | .ok t => .next (t.opDone ops)
  | .error f => .fault f

theorem runCommand_alike (h : SameRead s s') (f : State → State) (r : State → Result)
    (hf : RunsAlike s (f s) s' (f s')) (hr : r s' = r s) :
    OutcomesAlike s s' (runCommand f r s) (runCommand f r s') := by
  have hc : s'.cmd = s.cmd := by
    obtain ⟨u, rfl⟩ := h
    rfl
  unfold runCommand
  rw [hc, hr]
  cases s.cmd with
  | idle => exact hf.trans (endCommand_alike hf.sameRead _)
  | transfer tar ops => exact rfl

theorem transfer_alike (h : SameRead s s') (tar : Word) (ops : List Op) :
    OutcomesAlike s s' (transfer tar ops s) (transfer tar ops s') := by
  have hc : s'.cmd = s.cmd ∧ s'.initialized = s.initialized := by
    obtain ⟨u, rfl⟩ := h
    exact ⟨rfl, rfl⟩
  have hx := xferInit_alike h tar
  have hw := hx.trans (startWalk_alike hx.sameRead tar ops)
  unfold transfer
  rw [hc.1, hc.2]
  cases s.cmd with
  | transfer t os => exact rfl
  | idle =>
    dsimp only
    split
    · exact hw.trans (continueWalk_alike hw.sameRead ops)
    · exact rfl

/-! ## Write path (R213 to R217) -/

/-- What an operation of the transaction does after a run that is alike. -/
theorem opOutcome_ok_alike (h : RunsAlike s t s' t') (ops : List Op) :
    OutcomesAlike s s' (opOutcome ops (.ok t)) (opOutcome ops (.ok t')) := h.trans (opDone_alike h.sameRead ops)

theorem writeEnd_alike (h : SameRead s s') (ops : List Op) (isLast : Bool) (len n : Nat) :
    OutcomesAlike s s' (opOutcome ops (writeEnd isLast len n s)) (opOutcome ops (writeEnd isLast len n s')) := by
  obtain ⟨u, rfl⟩ := h
  by_cases hl : n < len ∨ s.txFlag.recvLen = true
  · by_cases ho : s.txOutstanding = 0xFFFFFFFF
    · rw [writeEnd_overflow isLast len n s hl ho, writeEnd_overflow isLast len n (State.blindTo u s) hl ho]
      exact RunsAlike.of_commutes (f := fun x => { x with status := { x.status with wip := true } }) (fun _ _ => rfl)
        ⟨u, rfl⟩
    · rw [writeEnd_left isLast len n s hl ho, writeEnd_left isLast len n (State.blindTo u s) hl ho]
      refine opOutcome_ok_alike ?_ ops
      exact ⟨rfl, .of_events [.regWrite .intrMask (writeMask s.msgErr isLast)] rfl rfl rfl rfl rfl rfl,
        .kept rfl rfl, .kept rfl rfl, .written rfl, .kept rfl rfl, .kept rfl rfl, .kept rfl rfl, .kept rfl rfl,
        .kept rfl rfl, .kept rfl rfl⟩
  · rw [writeEnd_whole isLast len n s hl, writeEnd_whole isLast len n (State.blindTo u s) hl]
    refine opOutcome_ok_alike ?_ ops
    exact .of_kept rfl (.of_events [.regWrite .intrMask (writeMask s.msgErr isLast)] rfl rfl rfl rfl rfl rfl) rfl rfl

/-- The words a write pushes, and their number, in the terms of `writeMsg` (R213 to R215). -/
def pushesOf (buf : List Byte) (isLast : Bool) (s : State) : List Word :=
  writeCmds (needRestart s) isLast s.txFlag.recvLen (sendable buf s) buf

theorem writeMsg_of_level (buf : List Byte) (isLast : Bool) (s : State)
    (h : ¬ s.params.txFifoDepth < (s.readValue .txflr).toNat) :
    writeMsg buf isLast s = writeEnd isLast buf.length (sendable buf s)
      ((s.afterRead .txflr).regWrites ((pushesOf buf isLast s).map (fun w => (.dataCmd, w)))) := if_neg h

theorem writeMsg_alike (h : SameRead s s') (ops : List Op) (buf : List Byte) (isLast : Bool) :
    OutcomesAlike s s' (opOutcome ops (writeMsg buf isLast s)) (opOutcome ops (writeMsg buf isLast s')) := by
  have ht := (afterRead_twins h.sameInputs .txflr).runsAlike h
  obtain ⟨u, rfl⟩ := h
  by_cases hl : s.params.txFifoDepth < (s.readValue .txflr).toNat
  · rw [writeMsg_level buf isLast s hl, writeMsg_level buf isLast (State.blindTo u s) hl]
    exact ht
  · have hw := ht.trans (regWrites_alike ht.sameRead ((pushesOf buf isLast s).map (fun w => (.dataCmd, w))))
    rw [writeMsg_of_level buf isLast s hl, writeMsg_of_level buf isLast (State.blindTo u s) hl]
    exact (writeEnd_alike hw.sameRead ops isLast buf.length (sendable buf s)).after hw

theorem exec_opWrite_eq {buf : List Byte} {tar : Word} {ops : List Op} {s : State} (hc : s.cmd = .transfer tar ops) :
    exec (.opWrite buf) s =
      opOutcome ops (writeMsg buf (s.writesLeft - 1 == 0) { s with writesLeft := s.writesLeft - 1 }) := by
  cases hw : writeMsg buf (s.writesLeft - 1 == 0) { s with writesLeft := s.writesLeft - 1 } with
  | ok t => exact exec_opWrite_ok hc hw
  | error f => exact exec_opWrite_fault hc hw

theorem exec_opWrite_idle {buf : List Byte} {s : State} (hc : s.cmd = .idle) :
    exec (.opWrite buf) s = .refused .opOutsideTransaction := by
  simp only [exec, execOpWrite, hc]

theorem exec_opWrite_alike (h : SameRead s s') (buf : List Byte) :
    OutcomesAlike s s' (exec (.opWrite buf) s) (exec (.opWrite buf) s') := by
  have hw : RunsAlike s { s with writesLeft := s.writesLeft - 1 } s' { s' with writesLeft := s'.writesLeft - 1 } :=
    .of_commutes (f := fun x => { x with writesLeft := x.writesLeft - 1 }) (fun _ _ => rfl) h
  obtain ⟨u, rfl⟩ := h
  cases hc : s.cmd with
  | idle =>
    rw [exec_opWrite_idle hc, exec_opWrite_idle (s := State.blindTo u s) hc]
    exact rfl
  | transfer tar ops =>
    rw [exec_opWrite_eq hc, exec_opWrite_eq (s := State.blindTo u s) hc]
    exact (writeMsg_alike hw.sameRead ops buf (s.writesLeft - 1 == 0)).after hw

/-! ## Read path (R220 to R225) -/

theorem readEnd_alike (h : SameRead s s') (ops : List Op) (occ n : Nat) :
    OutcomesAlike s s' (opOutcome ops (readEnd occ n s)) (opOutcome ops (readEnd occ n s')) := by
  obtain ⟨u, rfl⟩ := h
  by_cases hl : n < occ
  · by_cases ho : s.params.rxOutstandingUpdate = .incOnPartial ∧ s.rxOutstanding = 0xFFFFFFFF
    · obtain ⟨hup, hmax⟩ := ho
      rw [readEnd_overflow occ n s hl hup hmax, readEnd_overflow occ n (State.blindTo u s) hl hup hmax]
      exact ⟨rfl, .of_kept rfl rfl rfl rfl rfl rfl, .kept rfl rfl, .written rfl, .kept rfl rfl, .written rfl,
        .kept rfl rfl, .kept rfl rfl, .kept rfl rfl, .kept rfl rfl, .kept rfl rfl⟩
    · have hno := not_and.mp ho
      rw [readEnd_left occ n s hl hno, readEnd_left occ n (State.blindTo u s) hl hno]
      refine opOutcome_ok_alike ?_ ops
      exact ⟨rfl, .of_kept rfl rfl rfl rfl rfl rfl, .kept rfl rfl, .written rfl, .kept rfl rfl,
        .written rfl, .kept rfl rfl, .kept rfl rfl, .kept rfl rfl, .kept rfl rfl, .kept rfl rfl⟩
  · rw [readEnd_all occ n s hl, readEnd_all occ n (State.blindTo u s) hl]
    refine opOutcome_ok_alike ?_ ops
    exact ⟨rfl, .of_kept rfl rfl rfl rfl rfl rfl, .kept rfl rfl, .written rfl, .kept rfl rfl,
      .kept rfl rfl, .kept rfl rfl, .kept rfl rfl, .kept rfl rfl, .kept rfl rfl, .kept rfl rfl⟩

theorem storeRead_alike (h : SameRead s s') (j : Nat) (bytes : List Byte) :
    RunsAlike s (s.storeRead j bytes) s' (s'.storeRead j bytes) := .of_commutes (fun _ _ => rfl) h

theorem SameRead.rxRecvLen (h : SameRead s s') : s'.rxFlag.recvLen = s.rxFlag.recvLen := by
  obtain ⟨u, rfl⟩ := h
  rfl

theorem drain_alike (h : SameRead s s') (ops : List Op) (len j : Nat) :
    OutcomesAlike s s' (opOutcome ops (drain len j s)) (opOutcome ops (drain len j s')) := by
  have hr := (afterRead_twins h.sameInputs .rxflr).runsAlike h
  obtain ⟨he, hp⟩ := popBytes_twins hr.sameInputs hr.sameRead.rxRecvLen (min len (s.readValue .rxflr).toNat)
  have hpops := hr.trans (hp.runsAlike hr.sameRead)
  have hs := hpops.trans (storeRead_alike hpops.sameRead j
    (popBytes (min len (s.readValue .rxflr).toNat) (s.afterRead .rxflr)).1)
  unfold drain
  dsimp only
  rw [h.sameInputs.readValue, he]
  exact (readEnd_alike hs.sameRead ops _ _).after hs

/-- A read operation whose poll saw RX_FULL ends as its drain does (R222). -/
theorem exec_opRead_full {len : BitVec 16} {tar : Word} {ops : List Op} {s : State} (hc : s.cmd = .transfer tar ops)
    (hlt : s.rxOutstanding.toNat < s.params.rxFifoDepth)
    (hp : (readPoll 11 0 (s.regWrite .dataCmd (readCmd s.masterCfg))).1 = .full) :
    exec (.opRead len) s = opOutcome ops (drain len.toNat (rbufIndex ops s.opIdx)
      (readPoll 11 0 (s.regWrite .dataCmd (readCmd s.masterCfg))).2) := by
  have hm := readMsg_full len.toNat (rbufIndex ops s.opIdx) s hlt hp
  cases hd : drain len.toNat (rbufIndex ops s.opIdx) (readPoll 11 0 (s.regWrite .dataCmd (readCmd s.masterCfg))).2 with
  | ok t => exact exec_opRead_ok hc (hm.trans (by rw [hd]; rfl))
  | error f => exact exec_opRead_fault hc (hm.trans (by rw [hd]; rfl))

theorem raise_alike (h : SameRead s s') (e : XferError) : RunsAlike s (s.raise e) s' (s'.raise e) :=
  endCommand_alike h (.error e)

theorem exec_opRead_idle {len : BitVec 16} {s : State} (hc : s.cmd = .idle) :
    exec (.opRead len) s = .refused .opOutsideTransaction := by
  simp only [exec, execOpRead, hc]

theorem exec_opRead_alike (h : SameRead s s') (len : BitVec 16) :
    OutcomesAlike s s' (exec (.opRead len) s) (exec (.opRead len) s') := by
  have hw := (regWrite_twins h.sameInputs .dataCmd (readCmd s.masterCfg)).runsAlike h
  obtain ⟨he, hp⟩ := readPoll_twins hw.sameInputs 11 0
  have ha := hw.trans (hp.runsAlike hw.sameRead)
  have hm := ha.trans (.of_commutes (f := fun x => { x with msgErr := true }) (fun _ _ => rfl) ha.sameRead)
  obtain ⟨u, rfl⟩ := h
  cases hc : s.cmd with
  | idle =>
    rw [exec_opRead_idle hc, exec_opRead_idle (s := State.blindTo u s) hc]
    exact rfl
  | transfer tar ops =>
    by_cases hov : s.params.rxFifoDepth ≤ s.rxOutstanding.toNat
    · rw [exec_opRead_err hc (readMsg_overrun _ _ s hov),
        exec_opRead_err (s := State.blindTo u s) hc (readMsg_overrun _ _ (State.blindTo u s) hov)]
      exact raise_alike ⟨u, rfl⟩ .overrun
    · have hlt := Nat.lt_of_not_le hov
      cases hpe : (readPoll 11 0 (s.regWrite .dataCmd (readCmd s.masterCfg))).1 with
      | abort src =>
        rw [exec_opRead_err hc (readMsg_abort _ _ s src hlt hpe),
          exec_opRead_err (s := State.blindTo u s) hc (readMsg_abort _ _ (State.blindTo u s) src hlt (he.trans hpe))]
        exact hm.trans (raise_alike hm.sameRead _)
      | timeout =>
        rw [exec_opRead_err hc (readMsg_timeout _ _ s hlt hpe),
          exec_opRead_err (s := State.blindTo u s) hc (readMsg_timeout _ _ (State.blindTo u s) hlt (he.trans hpe))]
        exact ha.trans (raise_alike ha.sameRead .other)
      | full =>
        rw [exec_opRead_full hc hlt hpe, exec_opRead_full (s := State.blindTo u s) hc hlt (he.trans hpe)]
        exact (drain_alike ha.sameRead ops len.toNat (rbufIndex ops s.opIdx)).after ha

/-! ## Every instruction -/

/-- Settles O59: each instruction is a composition of updates and port operations, each of them alike. -/
theorem unreadFieldsDoNotSteer : Obligations.UnreadFieldsDoNotSteer := by
  intro i s u
  have h : SameRead s (State.blindTo u s) := ⟨u, rfl⟩
  cases i with
  | setTiming sel val =>
    exact runCommand_alike h (setTiming sel (val.setWidth 32)) (fun _ => .ok) (.of_commutes (fun _ _ => rfl) h) rfl
  | setMsgFlags a b c d =>
    exact runCommand_alike h (setMsgFlags a b c d) (fun _ => .ok) (setMsgFlags_alike h a b c d) rfl
  | configureMaster => exact runCommand_alike h configureMaster (fun _ => .ok) (configureMaster_alike h) rfl
  | configureFifoMaster =>
    exact runCommand_alike h configureFifoMaster (fun _ => .ok) (configureFifoMaster_alike h) rfl
  | initMaster => exact runCommand_alike h initMaster (fun _ => .ok) (initMaster_alike h) rfl
  | disable =>
    obtain ⟨he, hd⟩ := disableSeq_alike h
    exact runCommand_alike h (fun s => (disableSeq s).2) (fun s => (disableSeq s).1.result) hd
      (congrArg DisableOutcome.result he)
  | transfer7 a ops => exact transfer_alike h (tarOf7 a) ops
  | transfer10 a ops => exact transfer_alike h (tarOf10 a) ops
  | opWrite buf => exact exec_opWrite_alike h buf
  | opRead len => exact exec_opRead_alike h len
  | _ => exact ask_alike h _

end Sys2Proof.Machine
end

section
/-! PROOF. The read buffers (20_memory.md R86): a read operation changes at most the bytes it drains into its own buffer
(42_transfer.md R224), and no other instruction but the admission of a transaction changes a buffer. -/

namespace Sys2Proof.Machine

/-- Replacing the first bytes of one buffer by as many others keeps every byte of the other buffers, and every byte of
that buffer behind the replaced ones. -/
theorem getElem?_modify_prefix {bufs : List (List Byte)} {bytes : List Byte} {i j k : Nat}
    (h : j ≠ i ∨ bytes.length ≤ k) :
    ((bufs.modify i (fun buf => bytes ++ buf.drop bytes.length))[j]?.bind (fun buf => buf[k]?)) =
      (bufs[j]?.bind (fun buf => buf[k]?)) := by
  rw [List.getElem?_modify]
  by_cases hij : i = j
  · have hk : bytes.length ≤ k := h.resolve_left (fun hne => hne hij.symm)
    cases bufs[j]? with
    | none => rfl
    | some buf => simp [hij, List.getElem?_append_right hk, Nat.add_sub_of_le hk]
  · simp [hij]

/-- What a read operation that completes leaves in the read buffers: all of them as they were, or, where it found room
and RX_FULL, the bytes drained at the head of its own (R220, R222, R224). -/
theorem exec_opRead_rbufs {len : BitVec 16} {tar : Word} {ops : List Op} {s t : State} (hc : s.cmd = .transfer tar ops)
    (h : exec (.opRead len) s = .next t) :
    t.rbufs = s.rbufs ∨
      s.rxOutstanding.toNat < s.params.rxFifoDepth ∧ (pollOf s).1 = .full ∧
        ∃ bytes : List Byte, bytes.length = min len.toNat (occupancy s) ∧
          t.rbufs = s.rbufs.modify (rbufIndex ops s.opIdx) (fun buf => bytes ++ buf.drop bytes.length) := by
  rcases exec_opRead_cases len tar ops s hc with
    ⟨-, he⟩ | ⟨hroom, ⟨_, _, _, _, _, -, -, he⟩ | ⟨_, _, _, _, -, -, he⟩ |
      ⟨_, ws, _, _, _, hfull, -, hlen, -, ⟨-, -, -, he⟩ | ⟨-, he⟩⟩⟩ <;> cases he.symm.trans h
  · exact .inl rfl
  · exact .inl rfl
  · exact .inl rfl
  · refine .inr ⟨hroom, hfull, ws.map (storedByte s.rxFlag.recvLen), by rw [List.length_map, hlen], ?_⟩
    rw [List.length_map, readDone]

/-- An instruction that completes and is neither a read operation nor a transaction command keeps the read buffers. -/
theorem exec_keeps_rbufs {i : Instr} {s t : State} (h : exec i s = .next t) (hread : ∀ len, i ≠ .opRead len)
    (h7 : ∀ a ops, i ≠ .transfer7 a ops) (h10 : ∀ a ops, i ≠ .transfer10 a ops) : t.rbufs = s.rbufs := by
  rcases exec_next h with ⟨_, _, -, -, rfl⟩ | ⟨_, _, _, _, -, -, rfl⟩ | ⟨-, -, rfl⟩ | ⟨-, -, rfl⟩ |
    ⟨_, _, _, _, _, -, -, -, rfl⟩ | ⟨_, _, _, _, _, -, -, -, rfl⟩ | ⟨_, ops, hi, -⟩ | ⟨buf, rfl⟩ | ⟨len, hi⟩ |
    ⟨-, _, rfl⟩
  · rfl
  · rfl
  · rfl
  · rfl
  · rfl
  · rfl
  · rcases hi with ⟨a, hi, -⟩ | ⟨a, hi, -⟩
    · exact absurd hi (h7 a ops)
    · exact absurd hi (h10 a ops)
  · obtain ⟨_, _, _, -, -, -, -, rfl⟩ := exec_opWrite_next h
    rfl
  · exact absurd hi (hread len)
  · rfl

/-- Settles O33: a read that changes a buffer found room and RX_FULL, so it ended in no error, and it replaced the first
min(LEN, RXFLR) bytes of its own buffer. -/
theorem readBufferBytesAreKept : Obligations.ReadBufferBytesAreKept := by
  refine fun i s t h => ⟨?_, exec_keeps_rbufs h⟩
  rintro len tar ops rfl hc
  rcases exec_opRead_rbufs hc h with hkept | ⟨hroom, hfull, bytes, hlen, hstored⟩
  · exact ⟨fun _ => hkept, fun j k _ => by rw [hkept]⟩
  · refine ⟨fun herr => ?_, fun j k hjk => ?_⟩
    · rcases herr with hdepth | hend
      · exact absurd hroom (Nat.not_lt_of_le hdepth)
      · exact absurd hfull hend
    · rw [hstored]
      exact getElem?_modify_prefix (hlen ▸ hjk)

end Sys2Proof.Machine
end

section
/-! PROOF. The words of the transmit command stream (30_encoding.md R115, 43_fifo_commands.md R270 to R276): a word
without a bit above RESTART is the word of its three control bits and its data byte, and the control bits name its form. -/

namespace Sys2Proof

/-- The write form with the given RESTART and STOP (R270 to R273). -/
def writeForm (restart stop : Bool) (b : Byte) : Instr :=
  match restart, stop with
  | false, false => .dcWr b
  | false, true => .dcWrStop b
  | true, false => .dcWrRestart b
  | true, true => .dcWrRestartStop b

/-- The read form with the given RESTART and STOP (R274 to R276). -/
def readForm (restart stop : Bool) : Instr :=
  match restart, stop with
  | false, false => .dcRd
  | false, true => .dcRdStop
  | true, false => .dcRdRestart
  | true, true => .dcRdRestartStop

/-- The bits of a data-command word (R115). -/
theorem dataCmdWord_getLsbD (restart stop read : Bool) (b : Byte) (i : Nat) :
    (dataCmdWord restart stop read b).getLsbD i =
      if i < 8 then b.getLsbD i else if i = 8 then read else if i = 9 then stop else if i = 10 then restart
      else false := by
  show BitVec.getLsbD (w := 21 + 1 + 1 + 1 + 8)
    (0 ++ BitVec.ofBool restart ++ BitVec.ofBool stop ++ BitVec.ofBool read ++ b) i = _
  simp only [BitVec.getLsbD_append, BitVec.getLsbD_ofBool]
  by_cases h8 : i < 8
  · rw [if_pos h8, if_pos h8]
  · rw [if_neg h8, if_neg h8]
    obtain rfl | rfl | rfl | hi : i = 8 ∨ i = 9 ∨ i = 10 ∨ 10 < i := by omega
    · simp
    · simp
    · simp
    · simp [show ¬ i - 8 < 1 by omega, show ¬ i - 8 - 1 < 1 by omega, show ¬ i - 8 - 1 - 1 < 1 by omega,
        show i ≠ 8 by omega, show i ≠ 9 by omega, show i ≠ 10 by omega]

/-- What the decoder reads from a data-command word: nothing above RESTART, the control bits, the data byte. -/
theorem dataCmdWord_fields (restart stop read : Bool) (b : Byte) :
    (dataCmdWord restart stop read b).extractLsb' 11 21 = 0 ∧
    (dataCmdWord restart stop read b).extractLsb' 8 3 =
      BitVec.ofBool restart ++ BitVec.ofBool stop ++ BitVec.ofBool read ∧
    (dataCmdWord restart stop read b).extractLsb' 0 8 = b := by
  refine ⟨?_, ?_, ?_⟩ <;> apply BitVec.eq_of_getLsbD_eq <;> intro i hi <;>
    rw [BitVec.getLsbD_extractLsb', dataCmdWord_getLsbD]
  · simp [show ¬ 11 + i < 8 by omega, show 11 + i ≠ 8 by omega, show 11 + i ≠ 9 by omega, show 11 + i ≠ 10 by omega]
  · obtain rfl | rfl | rfl : i = 0 ∨ i = 1 ∨ i = 2 := by omega
    all_goals cases restart <;> cases stop <;> cases read <;> rfl
  · simp [hi]

/-- A word with no bit above RESTART is the data-command word of its own control bits and data byte (R115). -/
theorem eq_dataCmdWord {w : Word} (h : w.extractLsb' 11 21 = 0) :
    w = dataCmdWord (w.getLsbD 10) (w.getLsbD 9) (w.getLsbD 8) (w.extractLsb' 0 8) := by
  apply BitVec.eq_of_getLsbD_eq
  intro i hi
  rw [dataCmdWord_getLsbD]
  obtain h8 | rfl | rfl | rfl | hi' : i < 8 ∨ i = 8 ∨ i = 9 ∨ i = 10 ∨ 11 ≤ i := by omega
  · simp [h8]
  · rfl
  · rfl
  · rfl
  · have hbit : (w.extractLsb' 11 21).getLsbD (i - 11) = false := by simp [h]
    rw [BitVec.getLsbD_extractLsb', Nat.add_sub_of_le hi'] at hbit
    simpa [show i - 11 < 21 by omega, show ¬ i < 8 by omega, show i ≠ 8 by omega, show i ≠ 9 by omega,
      show i ≠ 10 by omega] using hbit

/-- A word with CMD_READ 0 decodes to the write form of its control bits (R270 to R273). -/
theorem decodeDataCmd_write (restart stop : Bool) (b : Byte) :
    decodeDataCmd (dataCmdWord restart stop false b) = .ok (writeForm restart stop b) := by
  obtain ⟨hhigh, hctl, hdat⟩ := dataCmdWord_fields restart stop false b
  unfold decodeDataCmd
  rw [if_pos hhigh, hctl, hdat]
  cases restart <;> cases stop <;> rfl

/-- A word with CMD_READ 1 decodes to the read form of its control bits where its data byte is 0 (R274 to R276). -/
theorem decodeDataCmd_read (restart stop : Bool) (b : Byte) :
    decodeDataCmd (dataCmdWord restart stop true b) =
      if b = 0 then .ok (readForm restart stop) else .error .notADataCommand := by
  obtain ⟨hhigh, hctl, hdat⟩ := dataCmdWord_fields restart stop true b
  unfold decodeDataCmd
  rw [if_pos hhigh, hctl, hdat]
  cases restart <;> cases stop <;> rfl

theorem encode_writeForm (restart stop : Bool) (b : Byte) :
    encode (writeForm restart stop b) = [dataCmdWord restart stop false b] := by
  cases restart <;> cases stop <;> rfl

theorem encode_readForm (restart stop : Bool) : encode (readForm restart stop) = [dataCmdWord restart stop true 0] := by
  cases restart <;> cases stop <;> rfl

theorem writeForm_isDataCmd (restart stop : Bool) (b : Byte) : (writeForm restart stop b).isDataCmd = true := by
  cases restart <;> cases stop <;> rfl

theorem readForm_isDataCmd (restart stop : Bool) : (readForm restart stop).isDataCmd = true := by
  cases restart <;> cases stop <;> rfl

/-- The data-command instructions are the four write forms and the four read forms. -/
theorem isDataCmd_cases {i : Instr} (h : i.isDataCmd = true) :
    (∃ restart stop b, i = writeForm restart stop b) ∨ ∃ restart stop, i = readForm restart stop := by
  cases i with
  | setTiming | setMsgFlags | configureMaster | configureFifoMaster | initMaster | disable | transfer7 | transfer10
  | opWrite | opRead => cases h
  | dcWr b => exact .inl ⟨false, false, b, rfl⟩
  | dcWrStop b => exact .inl ⟨false, true, b, rfl⟩
  | dcWrRestart b => exact .inl ⟨true, false, b, rfl⟩
  | dcWrRestartStop b => exact .inl ⟨true, true, b, rfl⟩
  | dcRd => exact .inr ⟨false, false, rfl⟩
  | dcRdRestart => exact .inr ⟨true, false, rfl⟩
  | dcRdStop => exact .inr ⟨false, true, rfl⟩
  | dcRdRestartStop => exact .inr ⟨true, true, rfl⟩

/-- What decodes as a data command is a write form's word or a read form's word. -/
theorem decodeDataCmd_ok {w : Word} {i : Instr} (h : decodeDataCmd w = .ok i) :
    (∃ restart stop b, w = dataCmdWord restart stop false b ∧ i = writeForm restart stop b) ∨
      ∃ restart stop, w = dataCmdWord restart stop true 0 ∧ i = readForm restart stop := by
  have hhigh : w.extractLsb' 11 21 = 0 := by
    by_contra hne
    rw [decodeDataCmd, if_neg hne] at h
    cases h
  have hw := eq_dataCmdWord hhigh
  cases hread : w.getLsbD 8 <;> rw [hread] at hw <;> rw [hw] at h
  · rw [decodeDataCmd_write] at h
    cases h
    exact .inl ⟨_, _, _, hw, rfl⟩
  · rw [decodeDataCmd_read] at h
    split at h
    · rename_i hdat
      cases h
      rw [hdat] at hw
      exact .inr ⟨_, _, hw, rfl⟩
    · cases h

/-- Settles O40: a write form and a read form each encode to the word that decodes to it, and no other word decodes. -/
theorem dataCommandsRoundTrip : Obligations.DataCommandsRoundTrip := by
  refine ⟨fun i h => ?_, fun w i h => ?_⟩
  · rcases isDataCmd_cases h with ⟨r, s, b, rfl⟩ | ⟨r, s, rfl⟩
    · exact ⟨_, encode_writeForm r s b, decodeDataCmd_write r s b⟩
    · exact ⟨_, encode_readForm r s, (decodeDataCmd_read r s 0).trans (if_pos rfl)⟩
  · rcases decodeDataCmd_ok h with ⟨r, s, b, rfl, rfl⟩ | ⟨r, s, rfl, rfl⟩
    · exact ⟨encode_writeForm r s b, writeForm_isDataCmd r s b⟩
    · exact ⟨encode_readForm r s, readForm_isDataCmd r s⟩

end Sys2Proof
end

section
/-! PROOF. The descriptors of the command port (30_encoding.md R100 to R109, R117, R119): what each form decodes to, what
decodes to it, and the words that are refused. -/

namespace Sys2Proof

/-! ## Decoding the encoding -/

/-- The word of a command without operands decodes to it (R105). -/
theorem decodePlain_zero (i : Instr) (k : BitVec 4) (rest : List Word) :
    decodePlain i (k ++ (0 : BitVec 28)) rest = .ok (i, rest) := by
  obtain ⟨-, hzero⟩ := operand_fields k 0
  rw [decodePlain, if_pos hzero]

theorem decode_encode_setTiming (sel : TimingSel) (val : BitVec 24) (rest : List Word) :
    decode (encode (.setTiming sel val) ++ rest) = .ok (.setTiming sel val, rest) := by
  obtain ⟨hopc, hoperand⟩ := operand_fields 0x1 (sel.code ++ val : BitVec 28)
  obtain ⟨hsel, hval⟩ := setTiming_fields sel.code val
  show decode (((0x1 : BitVec 4) ++ sel.code ++ val) :: rest) = _
  rw [setTiming_assoc]
  simp only [decode, hopc, extract_operand _ 24 4 (by omega), extract_operand _ 0 24 (by omega), hoperand, hsel, hval,
    timingSelOf_code]
  rfl

theorem decode_encode_setMsgFlags (a b c d : Bool) (rest : List Word) :
    decode (encode (.setMsgFlags a b c d) ++ rest) = .ok (.setMsgFlags a b c d, rest) := by
  obtain ⟨hopc, hoperand⟩ := operand_fields 0x2 (msgFlagBits a b c d)
  obtain ⟨hzero, h0, h1, h2, h3⟩ := setMsgFlags_fields a b c d
  rw [encode_setMsgFlags]
  show decode (_ :: rest) = _
  simp only [decode, hopc, extract_operand _ 4 24 (by omega), getLsbD_operand _ 0 (by omega),
    getLsbD_operand _ 1 (by omega), getLsbD_operand _ 2 (by omega), getLsbD_operand _ 3 (by omega), hoperand, hzero, h0,
    h1, h2, h3]
  rfl

/-- A number of operations that NOPS can hold is read back from it (R108). -/
theorem toNat_nops {ops : List Op} (h : opsWf ops = true) : (BitVec.ofNat 12 ops.length).toNat = ops.length := by
  have hlen : ops.length ≤ maxOps := of_decide_eq_true (Bool.and_eq_true_iff.mp h).1
  unfold maxOps at hlen
  rw [BitVec.toNat_ofNat, Nat.mod_eq_of_lt (by omega)]

/-- The operations of a well-formed list are read back from the words that follow its TRANSFER word (R108). -/
theorem decodeOps_nops {ops : List Op} (h : opsWf ops = true) (rest : List Word) :
    decodeOps (BitVec.ofNat 12 ops.length).toNat (encodeOps ops ++ rest) = .ok (ops, rest) := by
  rw [toNat_nops h]
  exact decodeOps_encodeOps ops (Bool.and_eq_true_iff.mp h).2 rest

theorem decode_encode_transfer7 (a : BitVec 7) {ops : List Op} (h : opsWf ops = true) (rest : List Word) :
    decode (encode (.transfer7 a ops) ++ rest) = .ok (.transfer7 a ops, rest) := by
  obtain ⟨hopc, hnops, hzero, haddr⟩ := transfer7_fields 0x7 (BitVec.ofNat 12 ops.length) a
  show decode (_ :: (encodeOps ops ++ rest)) = _
  simp only [decode, hopc, hnops, hzero, haddr, decodeOps_nops h]
  rfl

theorem decode_encode_transfer10 (a : BitVec 10) {ops : List Op} (h : opsWf ops = true) (rest : List Word) :
    decode (encode (.transfer10 a ops) ++ rest) = .ok (.transfer10 a ops, rest) := by
  obtain ⟨hopc, hnops, hzero, haddr⟩ := transfer10_fields 0x8 (BitVec.ofNat 12 ops.length) a
  show decode (_ :: (encodeOps ops ++ rest)) = _
  simp only [decode, hopc, hnops, hzero, haddr, decodeOps_nops h]
  rfl

/-- A word with an operation opcode decodes as the operation descriptor it is (R109, R117). -/
theorem decode_operation {w : Word} {ws rest : List Word} {op : Op} (hopc : opc w = 9 ∨ opc w = 10)
    (h : decodeOp (w :: ws) = .ok (op, rest)) : decode (w :: ws) = .ok (op.toInstr, rest) := by
  rcases hopc with hopc | hopc <;> simp only [decode, hopc, h] <;> rfl

theorem decode_encodeOp {op : Op} (h : op.wf = true) (rest : List Word) :
    decode (encodeOp op ++ rest) = .ok (op.toInstr, rest) := by
  have hop := decodeOp_encodeOp op h rest
  cases op with
  | write buf => exact decode_operation (.inl (descriptor_fields _ _ _).1) hop
  | read len => exact decode_operation (.inr (descriptor_fields _ _ _).1) hop

/-- Settles O38: one equation of the decoder for each descriptor. -/
theorem descriptorsRoundTrip : Obligations.DescriptorsRoundTrip := by
  intro i rest hwf hdata
  cases i with
  | setTiming sel val => exact decode_encode_setTiming sel val rest
  | setMsgFlags a b c d => exact decode_encode_setMsgFlags a b c d rest
  | configureMaster => exact decodePlain_zero .configureMaster 3 rest
  | configureFifoMaster => exact decodePlain_zero .configureFifoMaster 4 rest
  | initMaster => exact decodePlain_zero .initMaster 5 rest
  | disable => exact decodePlain_zero .disable 6 rest
  | transfer7 a ops => exact decode_encode_transfer7 a hwf rest
  | transfer10 a ops => exact decode_encode_transfer10 a hwf rest
  | opWrite buf => exact decode_encodeOp (op := .write buf) hwf rest
  | opRead len => exact decode_encodeOp (op := .read len) rfl rest
  | dcWr | dcWrStop | dcWrRestart | dcWrRestartStop | dcRd | dcRdRestart | dcRdStop | dcRdRestartStop => cases hdata

/-! ## What decodes is an encoding -/

/-- What a word sequence that decodes stands for: the instruction's own encoding, and a descriptor (R119). -/
def Canonical (ws : List Word) (i : Instr) (rest : List Word) : Prop := ws = encode i ++ rest ∧ i.isDataCmd = false

theorem canonical_setTiming {w : Word} {ws : List Word} {sel : TimingSel} (hopc : opc w = 1)
    (hsel : timingSelOf (w.extractLsb' 24 4) = some sel) :
    Canonical (w :: ws) (.setTiming sel (w.extractLsb' 0 24)) ws := by
  refine ⟨congrArg (· :: ws) ?_, rfl⟩
  calc w = opc w ++ fieldOperand w := operand_split w
    _ = (1 : BitVec 4) ++ ((fieldOperand w).extractLsb' 24 4 ++ (fieldOperand w).extractLsb' 0 24) := by
      rw [hopc, ← setTiming_split]
    _ = (1 : BitVec 4) ++ (sel.code ++ w.extractLsb' 0 24) := by
      rw [← extract_operand _ _ _ (by omega), ← extract_operand _ _ _ (by omega), timingSelOf_some _ _ hsel]
    _ = (1 : BitVec 4) ++ sel.code ++ w.extractLsb' 0 24 := (setTiming_assoc _ _ _).symm

theorem canonical_setMsgFlags {w : Word} {ws : List Word} (hopc : opc w = 2) (hzero : w.extractLsb' 4 24 = 0) :
    Canonical (w :: ws) (.setMsgFlags (w.getLsbD 0) (w.getLsbD 1) (w.getLsbD 2) (w.getLsbD 3)) ws := by
  refine ⟨?_, rfl⟩
  rw [extract_operand _ _ _ (by omega)] at hzero
  rw [encode_setMsgFlags, getLsbD_operand _ 0 (by omega), getLsbD_operand _ 1 (by omega),
    getLsbD_operand _ 2 (by omega), getLsbD_operand _ 3 (by omega), ← setMsgFlags_split _ hzero, ← hopc, ← operand_split]
  rfl

/-- What decodes as the command without operands `j`, whose encoding is its opcode (R105). -/
theorem canonical_plain {i j : Instr} {w : Word} {ws rest : List Word} {k : BitVec 4} (hopc : opc w = k)
    (henc : encode j = [k ++ (0 : BitVec 28)]) (hdata : j.isDataCmd = false) (h : decodePlain j w ws = .ok (i, rest)) :
    Canonical (w :: ws) i rest := by
  obtain ⟨rfl, rfl, rfl⟩ := decodePlain_ok _ _ _ _ _ _ h hopc
  exact ⟨by rw [henc]; rfl, hdata⟩

/-- The NOPS field holds the length of the operation list that decodes for it (R108). -/
theorem nops_of_decodeOps {n : BitVec 12} {ws rest : List Word} {ops : List Op}
    (h : decodeOps n.toNat ws = .ok (ops, rest)) : n = BitVec.ofNat 12 ops.length := by
  obtain ⟨hlen, -, -⟩ := decodeOps_ok _ _ _ _ h
  rw [hlen, BitVec.ofNat_toNat, BitVec.setWidth_eq]

theorem canonical_transfer7 {w : Word} {ws rest : List Word} {ops : List Op} (hopc : opc w = 7)
    (hzero : w.extractLsb' 7 9 = 0) (h : decodeOps (fieldNops w).toNat ws = .ok (ops, rest)) :
    Canonical (w :: ws) (.transfer7 (w.extractLsb' 0 7) ops) rest := by
  obtain ⟨-, hws, -⟩ := decodeOps_ok _ _ _ _ h
  have hw := transfer7_split w hzero
  rw [hopc, nops_of_decodeOps h] at hw
  exact ⟨congrArg₂ List.cons hw hws, rfl⟩

theorem canonical_transfer10 {w : Word} {ws rest : List Word} {ops : List Op} (hopc : opc w = 8)
    (hzero : w.extractLsb' 10 6 = 0) (h : decodeOps (fieldNops w).toNat ws = .ok (ops, rest)) :
    Canonical (w :: ws) (.transfer10 (w.extractLsb' 0 10) ops) rest := by
  obtain ⟨-, hws, -⟩ := decodeOps_ok _ _ _ _ h
  have hw := transfer10_split w hzero
  rw [hopc, nops_of_decodeOps h] at hw
  exact ⟨congrArg₂ List.cons hw hws, rfl⟩

theorem canonical_operation {ws rest : List Word} {op : Op} (h : decodeOp ws = .ok (op, rest)) :
    Canonical ws op.toInstr rest := by
  obtain ⟨hws, -⟩ := decodeOp_ok _ _ _ h
  cases op with
  | write buf => exact ⟨hws, rfl⟩
  | read len => exact ⟨hws, rfl⟩

/-- A case of each opcode: the words that decode are the encoding of what they decode to. -/
theorem decode_canonical {ws rest : List Word} {i : Instr} (h : decode ws = .ok (i, rest)) : Canonical ws i rest := by
  cases ws with
  | nil => cases h
  | cons w ws =>
    simp only [decode] at h
    split at h
    case h_1 hopc =>
      split at h <;> cases h
      exact canonical_setTiming (BitVec.eq_of_toNat_eq hopc) ‹_›
    case h_2 hopc =>
      split at h <;> cases h
      exact canonical_setMsgFlags (BitVec.eq_of_toNat_eq hopc) ‹_›
    case h_3 hopc => exact canonical_plain (BitVec.eq_of_toNat_eq (y := 3) hopc) rfl rfl h
    case h_4 hopc => exact canonical_plain (BitVec.eq_of_toNat_eq (y := 4) hopc) rfl rfl h
    case h_5 hopc => exact canonical_plain (BitVec.eq_of_toNat_eq (y := 5) hopc) rfl rfl h
    case h_6 hopc => exact canonical_plain (BitVec.eq_of_toNat_eq (y := 6) hopc) rfl rfl h
    case h_7 hopc =>
      split at h
      · split at h <;> cases h
        exact canonical_transfer7 (BitVec.eq_of_toNat_eq hopc) ‹_› ‹_›
      · cases h
    case h_8 hopc =>
      split at h
      · split at h <;> cases h
        exact canonical_transfer10 (BitVec.eq_of_toNat_eq hopc) ‹_› ‹_›
      · cases h
    case h_9 =>
      split at h <;> cases h
      exact canonical_operation ‹_›
    case h_10 =>
      split at h <;> cases h
      exact canonical_operation ‹_›
    case h_11 => cases h

/-- Settles O39: what decodes is canonical, and has an encoding (`decode_wf`). -/
theorem decodingIsCanonical : Obligations.DecodingIsCanonical := by
  intro ws rest i h
  obtain ⟨hws, hdata⟩ := decode_canonical h
  exact ⟨hws, Machine.decode_wf h, hdata⟩

/-! ## Refused words -/

/-- The timing selectors from 8 on name no field (R102). -/
theorem timingSelOf_reserved {sel : BitVec 4} (h : sel.getLsbD 3 = true) : timingSelOf sel = none := by
  revert sel
  decide

theorem decode_reservedOpcode {w : Word} (ws : List Word) (h : (opc w).toNat = 0 ∨ 11 ≤ (opc w).toNat) :
    decode (w :: ws) = .error .reservedOpcode := by
  simp only [decode]
  split
  case h_11 => rfl
  all_goals omega

theorem decode_reservedTiming {w : Word} (ws : List Word) (hopc : (opc w).toNat = 1) (h : w.getLsbD 27 = true) :
    decode (w :: ws) = .error .reservedTimingField := by
  have hsel : (w.extractLsb' 24 4).getLsbD 3 = true := by rw [BitVec.getLsbD_extractLsb', h]; rfl
  simp only [decode, hopc, timingSelOf_reserved hsel]

theorem decodePlain_nonzero {w : Word} (i : Instr) (ws : List Word) (h : fieldOperand w ≠ 0) :
    decodePlain i w ws = .error .nonzeroField := if_neg h

theorem decode_plain_nonzero {w : Word} (ws : List Word) (hlo : 3 ≤ (opc w).toNat) (hhi : (opc w).toNat ≤ 6)
    (h : fieldOperand w ≠ 0) : decode (w :: ws) = .error .nonzeroField := by
  interval_cases hopc : (opc w).toNat <;> simp only [decode, hopc, decodePlain_nonzero _ ws h]

theorem decodeOp_nonzero {w : Word} (ws : List Word) (hopc : (opc w).toNat = 9 ∨ (opc w).toNat = 10)
    (h : fieldNops w ≠ 0) : decodeOp (w :: ws) = .error .nonzeroField := by
  rcases hopc with hopc | hopc <;> simp only [decodeOp, hopc, if_neg h]

theorem decode_operation_nonzero {w : Word} (ws : List Word) (hopc : (opc w).toNat = 9 ∨ (opc w).toNat = 10)
    (h : fieldNops w ≠ 0) : decode (w :: ws) = .error .nonzeroField := by
  have hop := decodeOp_nonzero ws hopc h
  rcases hopc with hopc | hopc <;> simp only [decode, hopc, hop]

theorem decodeOps_error {ws : List Word} {r : Reject} (n : Nat) (h : decodeOp ws = .error r) :
    decodeOps (n + 1) ws = .error r := by
  simp only [decodeOps, h]

theorem decodeOp_command {w : Word} (ws : List Word) (hlo : 1 ≤ (opc w).toNat) (hhi : (opc w).toNat ≤ 8) :
    decodeOp (w :: ws) = .error .nonOperationInside := by
  interval_cases hopc : (opc w).toNat <;> simp only [decodeOp, hopc]

theorem decodeOp_reservedOpcode {w : Word} (ws : List Word) (h : (opc w).toNat = 0 ∨ 11 ≤ (opc w).toNat) :
    decodeOp (w :: ws) = .error .reservedOpcode := by
  simp only [decodeOp]
  split
  case h_11 => rfl
  all_goals omega

/-- Settles O42: one refusal of the decoder for each clause; among the operations of a transaction each is the first
descriptor's. -/
theorem reservedEncodingsAreRefused : Obligations.ReservedEncodingsAreRefused := by
  refine ⟨fun w ws => ⟨decode_reservedOpcode ws, decode_reservedTiming ws, fun hopc h => ?_, decode_plain_nonzero ws,
    fun hopc h => ?_, fun hopc h => ?_, decode_operation_nonzero ws⟩, fun n w ws =>
    ⟨fun hlo hhi => decodeOps_error n (decodeOp_command ws hlo hhi),
      fun h => decodeOps_error n (decodeOp_reservedOpcode ws h), rfl⟩⟩
  all_goals simp only [decode, hopc, if_neg h]

end Sys2Proof
end

section
/-! PROOF. The valid masks (30_encoding.md R101), the framing of operations and commands (R108, R119) and the result codes
(R118). -/

namespace Sys2Proof.Machine

/-- A read answered with all ones gives the register's valid mask (R101). -/
theorem readValue_allOnes {s : State} (h : s.readAnswers.head? = some 0xFFFFFFFF) (r : Reg) :
    s.readValue r = r.valid s.params := by
  obtain ⟨vs, hvs⟩ := List.head?_eq_some_iff.mp h
  rw [(afterRead_cons r hvs).1]
  exact BitVec.allOnes_and

/-- Settles O3: `readValue_allOnes` at each register; the default parameters' two masks are computed. -/
theorem allOnesGivesTheValidMask : Obligations.AllOnesGivesTheValidMask := by
  intro s h
  have hv := readValue_allOnes h
  refine ⟨hv .con, hv .tar, hv .enable, hv .rawIntrStat, hv .intrStat, hv .intrMask, hv .dataCmd, hv .txflr, hv .rxflr,
    hv .txTl, hv .rxTl, hv .sdaHold, hv .sar, hv .ssHcnt, hv .ssLcnt, hv .fsHcnt, hv .fsLcnt, hv .hsHcnt, hv .hsLcnt,
    hv .txAbrtSource, hv .enableStatus, fun hp => ?_⟩
  rw [hv, hv, hp]
  exact ⟨rfl, rfl⟩

/-- A command met while a transaction is in progress is refused (log entry 14). -/
theorem runCommand_busy (f : State → State) (r : State → Result) {s : State} {tar : Word} {ops : List Op}
    (hc : s.cmd = .transfer tar ops) : runCommand f r s = .refused .commandInsideTransaction := by
  simp only [runCommand, hc]

/-- Settles O21: the operations are refused while Idle; every command goes through `runCommand` or `transfer`, which
refuse inside a transaction. -/
theorem framingIsEnforced : Obligations.FramingIsEnforced := by
  refine ⟨fun buf len s hc => ⟨exec_opWrite_idle hc, exec_opRead_idle hc⟩, fun i tar ops s hc hdata hwrite hread => ?_⟩
  cases i with
  | setTiming | setMsgFlags | configureMaster | configureFifoMaster | initMaster | disable =>
    simp only [exec, execSetTiming, execSetMsgFlags, execConfigureMaster, execConfigureFifoMaster, execInitMaster,
      execDisable, runCommand_busy _ _ hc]
  | transfer7 | transfer10 => exact transfer_busy _ _ _ _ s hc
  | opWrite buf => exact absurd rfl (hwrite buf)
  | opRead len => exact absurd rfl (hread len)
  | dcWr | dcWrStop | dcWrRestart | dcWrRestartStop | dcRd | dcRdRestart | dcRdStop | dcRdRestartStop => cases hdata

/-- Settles O37: each code is computed. -/
theorem resultCodes : Obligations.ResultCodes := ⟨rfl, rfl, rfl, rfl, rfl, rfl, rfl, rfl, rfl, rfl⟩

end Sys2Proof.Machine
end

section
/-! PROOF. The port invariant (20_memory.md R81, R83, 30_encoding.md R118, R120, 41_recovery.md R183): each piece of port
activity is lawful by its shape, what an instruction writes is one of the forms it may write, and what a step adds to the
outputs keeps the invariant. -/

namespace Sys2Proof.Machine

/-! ## Lawful events -/

/-- Every event of a list is lawful. -/
def LawfulEvents (p : Params) (evs : List PortEvent) : Prop := ∀ e ∈ evs, lawfulEvent p e = true

variable {p : Params}

theorem LawfulEvents.nil : LawfulEvents p [] := nofun

theorem LawfulEvents.cons {e : PortEvent} {evs : List PortEvent} (h : lawfulEvent p e = true) (k : LawfulEvents p evs) :
    LawfulEvents p (e :: evs) := List.forall_mem_cons.mpr ⟨h, k⟩

theorem LawfulEvents.append {es fs : List PortEvent} (h : LawfulEvents p es) (k : LawfulEvents p fs) :
    LawfulEvents p (es ++ fs) := List.forall_mem_append.mpr ⟨h, k⟩

/-- A read of a register that the sequencer reads is lawful where its value is masked (R20, R81). -/
theorem lawful_regRead {r : Reg} {v : Word} (hr : r.readable = true) (hv : Masked p r v) :
    lawfulEvent p (.regRead r v) = true := by
  rw [lawfulEvent, hr, beq_iff_eq.mpr hv]
  rfl

/-- A write of a register that the sequencer writes, other than DATA_CMD, is lawful where its value is masked (R120). -/
theorem lawful_regWrite {r : Reg} {v : Word} (hr : r.writable = true) (hd : r ≠ .dataCmd) (hv : Masked p r v) :
    lawfulEvent p (.regWrite r v) = true := by
  rw [lawfulEvent, hr, beq_iff_eq.mpr hv, bne_iff_ne.mpr hd]
  rfl

/-- A question of the time source is lawful up to the eleventh delay where the answer is true (R183). -/
theorem lawful_expired_true {k : Nat} (hk : k ≤ 11) : lawfulEvent p (.expired k true) = true := by
  simp [lawfulEvent, hk]

/-- A question of the time source answered false is lawful before the eleventh delay (R183). -/
theorem lawful_expired_false {k : Nat} (hk : k ≤ 10) : lawfulEvent p (.expired k false) = true := by
  simp [lawfulEvent, Nat.lt_succ_of_le hk, Nat.le_succ_of_le hk]

/-- Zero has no bit outside any mask. -/
theorem masked_zero (r : Reg) : Masked p r 0 := BitVec.zero_and

/-- A write of ENABLE is lawful where it names its two bits only (R113). -/
theorem lawful_enable {v : Word} (h : v &&& 0x3 = v) : lawfulEvent p (.regWrite .enable v) = true :=
  lawful_regWrite rfl nofun h

/-- The abort request keeps the other bits of ENABLE (R173). -/
theorem masked_abortRequest {en : Word} (h : Masked p .enable en) : (en ||| enAbort) &&& 0x3 = en ||| enAbort := by
  have hen : en &&& 0x3 = en := h
  rw [BitVec.and_or_distrib_right, hen]
  rfl

/-! ## Lawful shapes -/

theorem DisableLoopShape.lawful {n : Nat} {evs : List PortEvent} {o : DisableOutcome}
    (h : DisableLoopShape p n evs o) : LawfulEvents p evs := by
  have hattempt : ∀ {es : Word} {rest : List PortEvent}, Masked p .enableStatus es → LawfulEvents p rest →
      LawfulEvents p (.regWrite .enable 0 :: .regRead .enableStatus es :: rest) := fun m hrest =>
    .cons (lawful_enable rfl) (.cons (lawful_regRead rfl m) hrest)
  induction h with
  | done _ _ m _ => exact hattempt m .nil
  | last _ m _ => exact hattempt m .nil
  | again _ _ _ _ m _ _ ih => exact hattempt m (.cons rfl ih)

theorem AbortPollShape.lawful {k : Nat} {evs : List PortEvent} {r : Bool} (h : AbortPollShape p k evs r)
    (hk : k ≤ 11) : LawfulEvents p evs := by
  induction h with
  | done _ _ m _ => exact .cons (lawful_regRead rfl m) .nil
  | timeout _ _ m _ => exact .cons (lawful_regRead rfl m) (.cons (lawful_expired_true hk) .nil)
  | again _ _ _ _ m _ hk' _ ih =>
    exact .cons (lawful_regRead rfl m) (.cons (lawful_expired_false hk') (.cons rfl (ih (Nat.succ_le_succ hk'))))

theorem DisableShape.lawful {evs : List PortEvent} {o : DisableOutcome} (h : DisableShape p evs o) :
    LawfulEvents p evs := by
  have hreads : ∀ {raw en : Word} {rest : List PortEvent}, Masked p .rawIntrStat raw → Masked p .enable en →
      LawfulEvents p rest → LawfulEvents p (.regRead .rawIntrStat raw :: .regRead .enable en :: rest) :=
    fun mr me hrest => .cons (lawful_regRead rfl mr) (.cons (lawful_regRead rfl me) hrest)
  cases h with
  | direct _ _ _ _ mr me _ loop => exact hreads mr me loop.lawful
  | aborted _ _ _ _ _ mr me _ seen loop =>
    exact hreads mr me (.cons (lawful_enable (masked_abortRequest me))
      ((seen.lawful (Nat.zero_le _)).append loop.lawful))
  | abortFailed _ _ _ mr me _ expired =>
    exact hreads mr me (.cons (lawful_enable (masked_abortRequest me)) (expired.lawful (Nat.zero_le _)))

/-- The acknowledges, with the abort source read where TX_ABRT is asserted (R170). -/
theorem lawful_ackEvents {src : Word} (st : Word) (m : Masked p .txAbrtSource src) (bs : List IntrBit) :
    LawfulEvents p (ackEvents st src bs) := by
  intro e he
  obtain ⟨b, -, hb⟩ := List.mem_flatMap.mp he
  split at hb
  · rcases List.mem_pair.mp hb with rfl | rfl
    · exact lawful_regRead rfl m
    · rfl
  · cases List.mem_singleton.mp hb
    rfl

theorem lawful_clearEvents {st src : Word} (m : Masked p .intrStat st) (ms : Masked p .txAbrtSource src) :
    LawfulEvents p (clearEvents st src) :=
  .cons (lawful_regRead rfl m) (lawful_ackEvents st ms intrBits)

theorem ReadPollShape.lawful {k : Nat} {evs : List PortEvent} {e : PollEnd} (h : ReadPollShape p k evs e)
    (hk : k ≤ 11) : LawfulEvents p evs := by
  induction h with
  | abort _ _ _ m ms _ => exact lawful_clearEvents m ms
  | full _ _ m _ _ => exact lawful_clearEvents m (masked_zero _)
  | timeout _ _ m _ _ => exact (lawful_clearEvents m (masked_zero _)).append (.cons (lawful_expired_true hk) .nil)
  | again _ _ _ _ m _ _ hk' _ ih =>
    exact (lawful_clearEvents m (masked_zero _)).append
      (.cons (lawful_expired_false hk') (.cons rfl (ih (Nat.succ_le_succ hk'))))

/-! ## Lawful writes -/

/-- Any value may be written to a writable register without reserved bits, other than DATA_CMD (R120). -/
theorem lawful_regWrite_allOnes {r : Reg} (v : Word) (hr : r.writable = true) (hd : r ≠ .dataCmd)
    (hm : r.valid p = 0xFFFFFFFF) : lawfulEvent p (.regWrite r v) = true := by
  refine lawful_regWrite hr hd ?_
  rw [Masked, hm]
  exact BitVec.and_allOnes

/-- The counts of INIT_MASTER go to registers without reserved bits (R145 to R148). -/
theorem lawful_countWrites (t : Timing) : LawfulEvents p (writeEvents (countWritesOf t)) := by
  rw [writeEvents_countWritesOf]
  refine .append (.append ?_ ?_) ?_
  · exact .cons (lawful_regWrite_allOnes _ rfl nofun rfl) (.cons (lawful_regWrite_allOnes _ rfl nofun rfl)
      (.cons (lawful_regWrite_allOnes _ rfl nofun rfl) (.cons (lawful_regWrite_allOnes _ rfl nofun rfl) .nil)))
  · split
    · exact .cons (lawful_regWrite_allOnes _ rfl nofun rfl) (.cons (lawful_regWrite_allOnes _ rfl nofun rfl) .nil)
    · exact .nil
  · split
    · exact .cons (lawful_regWrite_allOnes _ rfl nofun rfl) .nil
    · exact .nil

/-- The three writes of CONFIGURE_FIFO_MASTER, where the control-register image lies in its mask (R144). -/
theorem lawful_fifoWrites (threshold : Word) {cfg : Word} (hcfg : cfg &&& 0x7F = cfg) :
    LawfulEvents p [.regWrite .txTl threshold, .regWrite .rxTl 0, .regWrite .con cfg] := by
  exact .cons (lawful_regWrite_allOnes _ rfl nofun rfl) (.cons (lawful_regWrite_allOnes _ rfl nofun rfl)
    (.cons (lawful_regWrite rfl nofun hcfg) .nil))

/-- CONFIGURE_MASTER's image lies in the control register's mask (R142). -/
theorem masterConfig_masked (p : Params) (f : Word) : masterConfig p f &&& 0x7F = masterConfig p f := by
  rcases masterConfig_cases p f with h | h | h <;> rw [h] <;> rfl

/-- Transfer setup changes only TEN_BIT_MASTER of the control register (R211). -/
theorem masked_conForTar (tar : Word) {con : Word} (h : Masked p .con con) : Masked p .con (conForTar tar con) := by
  have hcon : con &&& 0x7F = con := h
  show conForTar tar con &&& 0x7F = conForTar tar con
  unfold conForTar
  split
  · rw [BitVec.and_or_distrib_right, hcon]
    rfl
  · rw [BitVec.and_assoc, BitVec.and_comm (~~~con10BitMaster), ← BitVec.and_assoc, hcon]

/-- The target-address value of either address form lies in TAR's mask (R112). -/
theorem masked_tarOf7 (a : BitVec 7) : Masked p .tar (tarOf7 a) := by
  show tarOf7 a &&& 0x13FF = tarOf7 a
  revert a
  decide +kernel

theorem masked_tarOf10 (a : BitVec 10) : Masked p .tar (tarOf10 a) := by
  show tarOf10 a &&& 0x13FF = tarOf10 a
  revert a
  decide +kernel

/-- A write of the interrupt mask is lawful where it names interrupt bits only (R110). -/
theorem lawful_intrMask {v : Word} (h : v &&& 0x3FFF = v) : lawfulEvent p (.regWrite .intrMask v) = true :=
  lawful_regWrite rfl nofun h

/-- The events of transfer setup after its disable sequence (R210). -/
theorem lawful_setup {tar con es st src : Word} (htar : Masked p .tar tar) (hcon : Masked p .con con)
    (hes : Masked p .enableStatus es) (hst : Masked p .intrStat st) (hsrc : Masked p .txAbrtSource src) :
    LawfulEvents p
      ([.regRead .con con, .regWrite .con (conForTar tar con), .regWrite .tar tar, .regWrite .intrMask 0,
        .regWrite .enable 1, .regRead .enableStatus es] ++ clearEvents st src ++ [.regWrite .intrMask 0x254]) := by
  refine .append (.append ?_ (lawful_clearEvents hst hsrc)) (.cons (lawful_intrMask rfl) .nil)
  exact .cons (lawful_regRead rfl hcon) (.cons (lawful_regWrite rfl nofun (masked_conForTar tar hcon))
    (.cons (lawful_regWrite rfl nofun htar) (.cons (lawful_intrMask rfl)
      (.cons (lawful_enable rfl) (.cons (lawful_regRead rfl hes) .nil)))))

/-! ## Lawful pushes -/

/-- A data-command word has no bit outside DATA_CMD's mask (R115). -/
theorem dataCmdWord_valid (restart stop read : Bool) (b : Byte) :
    dataCmdWord restart stop read b &&& 0xFFF = dataCmdWord restart stop read b := by
  show (0 : BitVec 21) ++ BitVec.ofBool restart ++ BitVec.ofBool stop ++ BitVec.ofBool read ++ b &&&
    ((1 : BitVec 21) ++ BitVec.allOnes 1 ++ BitVec.allOnes 1 ++ BitVec.allOnes 1 ++ BitVec.allOnes 8) = _
  simp only [Laws.TableRow.and_append, BitVec.and_allOnes]
  rfl

/-- A push of an emitted form, which has no bit outside DATA_CMD's mask (R120, R276). -/
theorem lawful_push {w : Word} (h : lawfulPush w = true) : lawfulEvent p (.regWrite .dataCmd w) = true := by
  have hvalid : w &&& 0xFFF = w := by
    cases hd : decodeDataCmd w with
    | error r =>
      rw [lawfulPush, hd] at h
      cases h
    | ok i => rcases decodeDataCmd_ok hd with ⟨r, s, b, rfl, -⟩ | ⟨r, s, rfl, -⟩ <;> exact dataCmdWord_valid _ _ _ _
  have hm : (w &&& Reg.valid p .dataCmd == w) = true := beq_iff_eq.mpr hvalid
  rw [lawfulEvent, hm, h]
  rfl

theorem lawful_pushes {ws : List Word} (h : ∀ w ∈ ws, lawfulPush w = true) :
    LawfulEvents p (ws.map (.regWrite .dataCmd)) := by
  intro e he
  obtain ⟨w, hw, rfl⟩ := List.mem_map.mp he
  exact lawful_push (h w hw)

/-- The write forms are emitted (R270 to R273). -/
theorem lawfulPush_write (restart stop : Bool) (b : Byte) : lawfulPush (dataCmdWord restart stop false b) = true := by
  rw [lawfulPush, decodeDataCmd_write]
  cases restart <;> cases stop <;> rfl

/-- Two data-command words or together field by field (R115). -/
theorem dataCmdWord_or (r r' s s' c c' : Bool) (b b' : Byte) :
    dataCmdWord r s c b ||| dataCmdWord r' s' c' b' = dataCmdWord (r || r') (s || s') (c || c') (b ||| b') := by
  apply BitVec.eq_of_getLsbD_eq
  intro i hi
  simp only [BitVec.getLsbD_or, dataCmdWord_getLsbD]
  split_ifs <;> rfl

/-- A byte alone is the data-command word without control bits (R115). -/
theorem setWidth_eq_dataCmdWord (b : Byte) : b.setWidth 32 = dataCmdWord false false false b := by
  apply BitVec.eq_of_getLsbD_eq
  intro i hi
  rw [BitVec.getLsbD_setWidth, dataCmdWord_getLsbD]
  by_cases h : i < 8
  · simp [h, hi]
  · simp [h, BitVec.getLsbD_of_ge b i (by omega)]

theorem ite_dcRestart (q : Prop) [Decidable q] :
    (if q then dcRestart else 0) = dataCmdWord (decide q) false false 0 := by
  by_cases h : q
  · rw [if_pos h, decide_eq_true h]
    rfl
  · rw [if_neg h, decide_eq_false h]
    rfl

theorem ite_dcStop (q : Prop) [Decidable q] : (if q then dcStop else 0) = dataCmdWord false (decide q) false 0 := by
  by_cases h : q
  · rw [if_pos h, decide_eq_true h]
    rfl
  · rw [if_neg h, decide_eq_false h]
    rfl

/-- The word pushed for a byte is a write form's (R215). -/
theorem writeCmd_eq (restart isLast recvLen : Bool) (len n i : Nat) (b : Byte) :
    writeCmd restart isLast recvLen len n i b =
      dataCmdWord (decide (i = 0 ∧ restart = true)) (stopOn isLast recvLen len n i) false b := by
  rw [writeCmd, ite_dcRestart, ite_dcStop, setWidth_eq_dataCmdWord, dataCmdWord_or, dataCmdWord_or]
  simp

theorem lawfulPush_sentWords (buf : List Byte) (s : State) : ∀ w ∈ sentWords buf s, lawfulPush w = true := by
  intro w hw
  obtain ⟨q, -, rfl⟩ := List.mem_map.mp hw
  rw [writeCmd_eq]
  exact lawfulPush_write _ _ _

theorem lawfulPush_readWord (s : State) : lawfulPush (readWord s) = true := by
  unfold readWord
  split <;> rfl

/-! ## What an instruction adds to the outputs -/

/-- Every result is one of the codes 0 to 9 (R118). -/
theorem resultWord_le (r : Result) : r.word.toNat ≤ 9 := by
  cases r with
  | ok | abortTimeout | disableTimeout => decide
  | error e =>
    cases e with
    | abort k => cases k <;> decide
    | overrun | other => decide

/-- At most one result is added (R118). -/
def AddsResult (s t : State) : Prop := t.results = s.results ∨ ∃ r : Result, t.results = s.results ++ [r.word]

/-- An operation that returned Ok adds OK where it was the last one (R228). -/
theorem addsResult_resultsAfter {ops : List Op} {s t : State} (h : t.results = resultsAfter ops s) : AddsResult s t := by
  rw [resultsAfter] at h
  split at h
  · exact .inl h
  · exact .inr ⟨.ok, h⟩

/-- What adds lawful events, pushes of emitted forms and at most one result, and leaves the control-register image in its
mask, keeps the port invariant. -/
theorem PortInv.extend {s t : State} {evs : List PortEvent} {ws : List Word} (hs : PortInv s)
    (hparams : t.params = s.params) (htrace : t.trace = s.trace ++ evs) (hevs : LawfulEvents s.params evs)
    (hdata : t.dataCmds = s.dataCmds ++ ws) (hws : ∀ w ∈ ws, lawfulPush w = true) (hresult : AddsResult s t)
    (hcfg : t.masterCfg &&& 0x7F = t.masterCfg) : PortInv t := by
  obtain ⟨strace, sdata, sresults, -⟩ := hs
  refine ⟨?_, ?_, ?_, hcfg⟩
  · rw [hparams, htrace]
    exact List.forall_mem_append.mpr ⟨strace, hevs⟩
  · rw [hdata]
    exact List.forall_mem_append.mpr ⟨sdata, hws⟩
  · rcases hresult with hr | ⟨r, hr⟩ <;> rw [hr]
    · exact sresults
    · exact List.forall_mem_append.mpr ⟨sresults, List.forall_mem_singleton.mpr (resultWord_le r)⟩

/-- As `PortInv.extend`, where nothing is pushed. -/
theorem PortInv.extend_unpushed {s t : State} {evs : List PortEvent} (hs : PortInv s) (hparams : t.params = s.params)
    (htrace : t.trace = s.trace ++ evs) (hevs : LawfulEvents s.params evs) (hdata : t.dataCmds = s.dataCmds)
    (hresult : AddsResult s t) (hcfg : t.masterCfg &&& 0x7F = t.masterCfg) : PortInv t :=
  hs.extend hparams htrace hevs (hdata.trans (List.append_nil _).symm) nofun hresult hcfg

/-- As `PortInv.extend`, where the port shows nothing. -/
theorem PortInv.extend_silent {s t : State} (hs : PortInv s) (hparams : t.params = s.params) (htrace : t.trace = s.trace)
    (hdata : t.dataCmds = s.dataCmds) (hresult : AddsResult s t) (hcfg : t.masterCfg &&& 0x7F = t.masterCfg) :
    PortInv t :=
  hs.extend_unpushed hparams (htrace.trans (List.append_nil _).symm) .nil hdata hresult hcfg

theorem PortInv.cfg_masked {s : State} (hs : PortInv s) : s.masterCfg &&& 0x7F = s.masterCfg := by
  obtain ⟨-, -, -, hcfg⟩ := hs
  exact hcfg

/-! ## Every instruction -/

theorem transfer_keeps_portInv {tar : Word} {ops : List Op} {s t : State} (hs : PortInv s)
    (htar : ∀ p, Masked p .tar tar) (h : transfer tar ops s = .next t) : PortInv t := by
  obtain ⟨-, -, dis, o, con, es, st, src, _, _, _, _, hdis, hcon, hes, hst, hsrc, rfl⟩ := transfer_next_spec h
  have hevs := hdis.lawful.append (lawful_setup (htar _) hcon hes hst hsrc)
  refine hs.extend_unpushed rfl rfl (by simpa only [List.append_assoc] using hevs) rfl ?_ hs.cfg_masked
  by_cases hops : ops = []
  · exact .inr ⟨.ok, if_pos hops⟩
  · exact .inl (if_neg hops)

theorem exec_opWrite_keeps_portInv {buf : List Byte} {s t : State} (hs : PortInv s)
    (h : exec (.opWrite buf) s = .next t) : PortInv t := by
  obtain ⟨-, ops, w, -, -, -, -, rfl⟩ := exec_opWrite_next h
  have hpush := lawfulPush_sentWords buf s
  have hlevel : lawfulEvent s.params (.regRead .txflr (s.readValue .txflr)) = true :=
    lawful_regRead rfl (readValue_valid .txflr s)
  have hmask : lawfulEvent s.params
      (.regWrite .intrMask (if s.msgErr then 0 else if s.writesLeft - 1 = 0 then 0x244 else 0x254)) = true := by
    refine lawful_intrMask ?_
    split
    · rfl
    · split <;> rfl
  have hevs := (LawfulEvents.cons hlevel (lawful_pushes hpush)).append (.cons hmask .nil)
  exact hs.extend rfl (by simp only [writeDone, List.append_assoc, List.cons_append, List.nil_append]) hevs rfl hpush
    (addsResult_resultsAfter rfl) hs.cfg_masked

/-- The read command and the poll after it (R221, R222). -/
theorem lawful_readPoll {s : State} {evs : List PortEvent} {e : PollEnd} (h : ReadPollShape s.params 0 evs e) :
    LawfulEvents s.params (.regWrite .dataCmd (readWord s) :: evs) :=
  .cons (lawful_push (lawfulPush_readWord s)) (h.lawful (Nat.zero_le _))

theorem readFailed_keeps_portInv {s : State} {evs : List PortEvent} {e : PollEnd} (hs : PortInv s)
    (h : ReadPollShape s.params 0 evs e) (err : Bool) (x : XferError) (ra : List Word) (ea : List Bool) (n : Nat) :
    PortInv (readFailed err (Result.error x).word evs ra ea n s) :=
  hs.extend rfl (by simp only [readFailed, List.append_assoc, List.cons_append, List.nil_append]) (lawful_readPoll h) rfl
    (List.forall_mem_singleton.mpr (lawfulPush_readWord s)) (.inr ⟨_, rfl⟩) hs.cfg_masked

theorem readDone_keeps_portInv {s : State} {evs : List PortEvent} {e : PollEnd} {ws : List Word} (hs : PortInv s)
    (h : ReadPollShape s.params 0 evs e) (hws : ∀ w ∈ ws, w &&& 0xFFF = w) (len : BitVec 16) (ops : List Op)
    (ra : List Word) (ea : List Bool) (n : Nat) : PortInv (readDone len ops evs ws ra ea n s) := by
  have hlevel : lawfulEvent s.params (.regRead .rxflr (BitVec.ofNat 32 (occupancy s))) = true :=
    lawful_regRead rfl BitVec.and_allOnes
  have hpops : LawfulEvents s.params (ws.map (.regRead .dataCmd)) := by
    intro e he
    obtain ⟨w, hw, rfl⟩ := List.mem_map.mp he
    exact lawful_regRead rfl (hws w hw)
  exact hs.extend rfl (by simp only [readDone, List.append_assoc, List.cons_append, List.nil_append])
    ((lawful_readPoll h).append (.cons hlevel hpops)) rfl (List.forall_mem_singleton.mpr (lawfulPush_readWord s))
    (addsResult_resultsAfter rfl) hs.cfg_masked

theorem exec_opRead_keeps_portInv {len : BitVec 16} {s t : State} (hs : PortInv s)
    (h : exec (.opRead len) s = .next t) : PortInv t := by
  obtain ⟨-, ops, -, rfl | ⟨evs, ra, ea, n, src, hpoll, rfl⟩ | ⟨evs, ra, ea, n, hpoll, rfl⟩ |
    ⟨evs, ws, ra, ea, n, hpoll, -, hws, -, -, rfl⟩⟩ := exec_opRead_next h
  · exact hs.extend_silent rfl rfl rfl (.inr ⟨.error .overrun, rfl⟩) hs.cfg_masked
  · exact readFailed_keeps_portInv hs hpoll true (.abort _) ra ea n
  · exact readFailed_keeps_portInv hs hpoll s.msgErr .other ra ea n
  · exact readDone_keeps_portInv hs hpoll hws len ops ra ea n

theorem exec_keeps_portInv {i : Instr} {s t : State} (hs : PortInv s) (h : exec i s = .next t) : PortInv t := by
  have hcfg := hs.cfg_masked
  rcases exec_next h with ⟨_, _, -, -, rfl⟩ | ⟨_, _, _, _, -, -, rfl⟩ | ⟨-, -, rfl⟩ | ⟨-, -, rfl⟩ |
    ⟨evs, _, _, _, _, -, -, hdis, rfl⟩ | ⟨evs, o, _, _, _, -, -, hdis, rfl⟩ | ⟨tar, ops, hi, ht⟩ | ⟨buf, rfl⟩ | ⟨len, rfl⟩ |
    ⟨-, rs, rfl⟩
  · exact hs.extend_silent rfl rfl rfl (.inr ⟨.ok, rfl⟩) hcfg
  · exact hs.extend_silent rfl rfl rfl (.inr ⟨.ok, rfl⟩) hcfg
  · exact hs.extend_silent rfl rfl rfl (.inr ⟨.ok, rfl⟩) (masterConfig_masked _ _)
  · exact hs.extend_unpushed rfl rfl (lawful_fifoWrites _ hcfg) rfl (.inr ⟨.ok, rfl⟩) hcfg
  · exact hs.extend_unpushed rfl rfl
      ((hdis.lawful.append (lawful_countWrites _)).append (lawful_fifoWrites _ (masterConfig_masked _ _))) rfl
      (.inr ⟨.ok, rfl⟩) (masterConfig_masked _ _)
  · exact hs.extend_unpushed rfl rfl hdis.lawful rfl (.inr ⟨o.result, rfl⟩) hcfg
  · refine transfer_keeps_portInv hs (fun p => ?_) ht
    rcases hi with ⟨a, -, rfl⟩ | ⟨a, -, rfl⟩
    · exact masked_tarOf7 a
    · exact masked_tarOf10 a
  · exact exec_opWrite_keeps_portInv hs h
  · exact exec_opRead_keeps_portInv hs h
  · exact hs.extend_silent rfl rfl rfl (.inl rfl) hcfg

/-- Taking up the oldest word of the command stream keeps the port invariant. -/
theorem PortInv.takeUp {s : State} {w : Word} {ws : List Word} (hs : PortInv s) (hd : s.dataCmds = w :: ws) :
    PortInv { s with dataCmds := ws } := by
  obtain ⟨htrace, hdata, hresults, hcfg⟩ := hs
  rw [hd] at hdata
  exact ⟨htrace, (List.forall_mem_cons.mp hdata).2, hresults, hcfg⟩

/-- Settles O49: what a step takes leaves a lawful port, and every instruction keeps it. -/
theorem stepKeepsThePortLawful : Obligations.StepKeepsThePortLawful := by
  intro s t hs h
  rcases step_next h with ⟨w, ws, i, hd, -, he⟩ | ⟨tar, ops, op, -, -, -, he⟩ | ⟨tar, ops, -, -, -, rfl⟩ |
    ⟨-, -, -, rfl⟩ | ⟨ws, i, rest, -, -, -, -, he⟩
  · exact exec_keeps_portInv (hs.takeUp hd) he
  · exact exec_keeps_portInv hs he
  · exact hs.extend_silent rfl rfl rfl (.inr ⟨.ok, rfl⟩) hs.cfg_masked
  · exact hs
  · exact exec_keeps_portInv (s := { s with port := rest }) hs he

end Sys2Proof.Machine
end

section
/-! PROOF. What the configuration commands leave while Idle (40_configuration.md R140 to R149): each runs its update and
gives the result OK, and none of them starts a transaction. -/

namespace Sys2Proof.Machine

/-- A command that leaves the machine Idle does nothing besides its update but give its result (R47). -/
theorem runCommand_ok_of_keepsIdle {f : State → State} {s : State} (hs : s.cmd = .idle) (hf : (f s).cmd = s.cmd) :
    runCommand f (fun _ => .ok) s = .next { f s with results := (f s).results ++ [0] } := by
  rw [runCommand_idle f _ s hs, State.endCommand, ← hf.trans hs]
  rfl

/-- A stored timing field reads back and the others are kept: two selectors name one field only if they are equal
(R140). -/
theorem Timing.get_put (t : Timing) (sel f : TimingSel) (v : Word) :
    (t.put sel v).get f = if f = sel then v else t.get f := by
  cases sel <;> cases f <;> rfl

/-- The functionality CONFIGURE_MASTER sets, as bits (R142). -/
theorem bits_of_bothFunctionalities : ({ i2cDefault := true, tenBitAddr := true } : Functionality).bits = 0b11 := by
  decide

/-- The control-register image with its bits as numbers (R142, R143). -/
theorem masterConfig_eq (p : Params) (f : Word) :
    masterConfig p f =
      0x01 ||| 0x40 ||| 0x20 ||| (if f = p.stdFreqHz then 0x02 else if f = p.highFreqHz then 0x06 else 0x04) := rfl

/-- The count writes behind the trace they extend (R145 to R148). -/
theorem append_countWritesOf (tr : List PortEvent) (t : Timing) :
    tr ++ writeEvents (countWritesOf t) =
      tr ++ [.regWrite .ssHcnt t.ssHcnt, .regWrite .ssLcnt t.ssLcnt, .regWrite .fsHcnt t.fsHcnt, .regWrite .fsLcnt t.fsLcnt] ++
      (if t.hsHcnt ≠ 0 ∧ t.hsLcnt ≠ 0 then [.regWrite .hsHcnt t.hsHcnt, .regWrite .hsLcnt t.hsLcnt] else []) ++
      (if t.sdaHold ≠ 0 then [.regWrite .sdaHold t.sdaHold] else []) := by
  rw [writeEvents_countWritesOf, ← List.append_assoc, ← List.append_assoc]

/-- Settles O8: `initMaster_spec` gives the update, whatever the disable sequence's outcome. -/
theorem initMasterProgramsTheController : Obligations.InitMasterProgramsTheController := by
  intro s hs
  obtain ⟨dis, hdis, hinit⟩ := initMaster_spec s
  rw [append_countWritesOf] at hinit
  have hrun := runCommand_ok_of_keepsIdle (f := initMaster) hs (by rw [hinit])
  rw [hinit] at hrun
  exact ⟨_, txThreshold s.params.txFifoDepth, dis, (disableSeq s).1, hrun, hdis, txThreshold_toNat _,
    bits_of_bothFunctionalities, masterConfig_eq s.params s.timing.busFreqHz, rfl⟩

/-- Settles O4: the field stored is the one that reads back changed. -/
theorem setTimingStoresOneField : Obligations.SetTimingStoresOneField := fun sel val s hs =>
  ⟨_, runCommand_ok_of_keepsIdle (f := setTiming sel (val.setWidth 32)) hs rfl,
    fun f => Timing.get_put s.timing sel f (val.setWidth 32), rfl⟩

/-- Settles O5: the update stores the flags alone. -/
theorem setMsgFlagsStoresTheFlags : Obligations.SetMsgFlagsStoresTheFlags := fun f0 f1 f2 f3 _ hs =>
  runCommand_ok_of_keepsIdle (f := setMsgFlags f0 f1 f2 f3) hs rfl

/-- Settles O6: the update stores the functionality and the image `masterConfig` computes. -/
theorem configureMasterComputesTheImage : Obligations.ConfigureMasterComputesTheImage := fun s hs =>
  ⟨_, runCommand_ok_of_keepsIdle (f := configureMaster) hs rfl, bits_of_bothFunctionalities,
    masterConfig_eq s.params s.timing.busFreqHz, rfl⟩

/-- Settles O7: the three writes touch the trace alone (`configureFifoMaster_eq`). -/
theorem configureFifoMasterWritesThree : Obligations.ConfigureFifoMasterWritesThree := by
  intro s hs
  have hwrites := configureFifoMaster_eq s
  have hrun := runCommand_ok_of_keepsIdle (f := configureFifoMaster) hs (by rw [hwrites])
  rw [hwrites] at hrun
  exact ⟨_, txThreshold s.params.txFifoDepth, hrun, txThreshold_toNat _, rfl⟩

end Sys2Proof.Machine
end

section
/-! PROOF. Recovery (41_recovery.md): what DISABLE leaves, the events of the disable loop and of the two polls counted by
their shapes, and the rounds that a scripted controller's answers give. -/

namespace Sys2Proof.Machine

/-! ## DISABLE as its disable sequence (R178, R180) -/

/-- DISABLE while Idle ends with the outcome of its disable sequence recorded and returned. -/
theorem exec_disable_idle {s : State} (hs : s.cmd = .idle) :
    exec .disable s = .next ((disableSeq s).2.endCommand (disableSeq s).1.result) :=
  runCommand_idle (fun s => (disableSeq s).2) (fun s => (disableSeq s).1.result) s hs

/-- Settles O9: `disableSeq_spec` gives the sequence, and the command adds its result. -/
theorem disableFollowsTheStateMachine : Obligations.DisableFollowsTheStateMachine := by
  intro s hs
  obtain ⟨dis, hshape, ht⟩ := disableSeq_spec s
  refine ⟨_, dis, (disableSeq s).1, exec_disable_idle hs, hshape, ?_⟩
  generalize (disableSeq s).1 = o at *
  generalize (disableSeq s).2 = d at *
  obtain ⟨ra, ea, n, rfl⟩ : ∃ ra ea n, d = { s with
      trace := s.trace ++ dis, lastDisable := some o, readAnswers := ra, expiredAnswers := ea, draws := n } :=
    ⟨_, _, _, ht⟩
  rw [hs]
  cases o <;> rfl

/-! ## The disable loop on scripted answers (R175, R176) -/

/-- The valid mask of ENABLE_STATUS keeps the activity bit (R114). -/
theorem activityBit_and_mask (v : Word) (l : EnableStatusLayout) :
    activityBit (v &&& enableStatusMask l) = v.getLsbD 0 := by
  simp [activityBit, enableStatusMask]

/-- One attempt of the disable loop where the input list answers (R175). -/
theorem attempt_cons {s : State} {v : Word} {vs : List Word} (h : s.readAnswers = v :: vs) :
    activityBit ((s.regWrite .enable 0).readValue .enableStatus) = v.getLsbD 0 ∧
    (s.regWrite .enable 0).afterRead .enableStatus =
      { s with
        trace := s.trace ++
          [.regWrite .enable 0, .regRead .enableStatus (v &&& enableStatusMask s.params.enableStatusLayout)]
        readAnswers := vs } := by
  obtain ⟨hv, ht⟩ := afterRead_cons (s := s.regWrite .enable 0) .enableStatus h
  rw [hv, ht]
  exact ⟨activityBit_and_mask _ _, by simp [State.regWrite, Reg.valid]⟩

/-- Attempts answered active are made and slept after, as long as one more is left. -/
theorem disableLoop_busyAttempts (n : Nat) {s : State} {busy rest : List Word} (hr : s.readAnswers = busy ++ rest)
    (hbusy : ∀ b ∈ busy, b.getLsbD 0 = true) :
    disableLoop (n + 1 + busy.length) s =
      disableLoop (n + 1) { s with trace := s.trace ++ busyAttempts s.params busy, readAnswers := rest } := by
  induction busy generalizing s with
  | nil =>
    obtain rfl : s.readAnswers = rest := hr
    simp [busyAttempts]
  | cons b busy ih =>
    obtain ⟨hb, hbusy⟩ := List.forall_mem_cons.mp hbusy
    obtain ⟨hact, ht⟩ := attempt_cons hr
    have hlen : n + 1 + (b :: busy).length = n + busy.length + 2 := by rw [List.length_cons]; omega
    rw [hlen, disableLoop_busy _ s (hact.trans hb), ht, Nat.add_right_comm, ih rfl hbusy]
    simp [busyAttempts, State.delay, State.emit]

/-- Without a hold the disable sequence is its two reads and the loop (R172). -/
theorem disableBody_noHold {s : State} {raw en : Word} {rest : List Word} (hr : s.readAnswers = raw :: en :: rest)
    (hraw : raw.getLsbD 13 = false) :
    disableBody s = disableLoop 100
      { s with
        trace := s.trace ++ [.regRead .rawIntrStat (raw &&& 0x3FFF), .regRead .enable (en &&& 0x3)]
        readAnswers := rest } := by
  obtain ⟨hv, ht⟩ := afterRead_cons .rawIntrStat hr
  have hhold : ¬ IntrBit.mstOnHold.isSet (s.readValue .rawIntrStat) = true := by
    rw [hv, IntrBit.isSet, IntrBit.index, BitVec.getLsbD_and, hraw, Bool.false_and]
    exact Bool.false_ne_true
  rw [disableBody_direct s (fun h => hhold h.1), ht, (afterRead_cons .enable rfl).2]
  simp [Reg.valid]

/-- DISABLE without a hold, where up to 99 attempts are answered active: what is left is the loop from the next
attempt on. -/
theorem exec_disable_busyAttempts {s t : State} {o : DisableOutcome} {raw en : Word} {busy rest : List Word} (n : Nat)
    (hs : s.cmd = .idle) (hr : s.readAnswers = raw :: en :: (busy ++ rest)) (hraw : raw.getLsbD 13 = false)
    (hlen : n + 1 + busy.length = 100) (hbusy : ∀ b ∈ busy, b.getLsbD 0 = true)
    (hloop : disableLoop (n + 1)
      { s with
        trace := s.trace ++ [.regRead .rawIntrStat (raw &&& 0x3FFF), .regRead .enable (en &&& 0x3)] ++
          busyAttempts s.params busy
        readAnswers := rest } = (o, t)) :
    exec .disable s = .next (State.endCommand o.result { t with lastDisable := some o }) := by
  have hbody := disableBody_noHold hr hraw
  rw [← hlen, disableLoop_busyAttempts n rfl hbusy, hloop] at hbody
  rw [exec_disable_idle hs, disableSeq, hbody]

/-- Settles O10: the attempts answered active, then one that ends the loop (`disableLoop_idle`). -/
theorem disableEndsAtTheFirstInactiveAnswer : Obligations.DisableEndsAtTheFirstInactiveAnswer := by
  intro s raw en es busy rest hs hr hraw hlen hbusy hes
  obtain ⟨n, hn⟩ : ∃ n, n + 1 + busy.length = 100 := ⟨99 - busy.length, by omega⟩
  rw [exec_disable_busyAttempts n hs hr hraw hn hbusy
    (disableLoop_idle n _ ((attempt_cons rfl).1.trans hes)), (attempt_cons rfl).2]
  simp [State.endCommand, hs, DisableOutcome.result, Result.word, Result.code]

/-- Settles O11: 99 attempts answered active, then the last one gives up (`disableLoop_last`). -/
theorem disableGivesUpAfterHundredAttempts : Obligations.DisableGivesUpAfterHundredAttempts := by
  intro s raw en es busy rest hs hr hraw hlen hbusy hes
  rw [exec_disable_busyAttempts 0 hs hr hraw (by omega) hbusy
    (disableLoop_last _ ((attempt_cons rfl).1.trans hes)), (attempt_cons rfl).2]
  simp [State.endCommand, hs, DisableOutcome.result, Result.word, Result.code]

/-! ## The abort poll on scripted answers (R171, R173, R183) -/

/-- A read of ENABLE where the input list answers (R113). -/
theorem readEnable_cons {s : State} {v : Word} {vs : List Word} (h : s.readAnswers = v :: vs) :
    abortBit (s.readValue .enable) = v.getLsbD 1 ∧
    s.afterRead .enable = { s with trace := s.trace ++ [.regRead .enable (v &&& 0x3)], readAnswers := vs } := by
  obtain ⟨hv, ht⟩ := afterRead_cons .enable h
  refine ⟨?_, ht⟩
  rw [hv]
  simp [abortBit, Reg.valid]

/-- One more round at the end of the rounds that found the abort bit set. -/
theorem heldRounds_append_singleton (held : List Word) (h : Word) :
    heldRounds (held ++ [h]) =
      heldRounds held ++ [.regRead .enable (h &&& 0x3), .expired held.length false, .delay 10] := by
  simp [heldRounds, List.zipIdx_append]

/-- Rounds that find the abort bit set and the budget left are gone through, as long as eleven delays are not passed. -/
theorem abortPoll_heldRounds (n : Nat) {s : State} {held rest : List Word} {later : List Bool}
    (hn : n + held.length = 11) (hr : s.readAnswers = held ++ rest) (hheld : ∀ h ∈ held, h.getLsbD 1 = true)
    (hx : s.expiredAnswers = List.replicate held.length false ++ later) :
    abortPoll 11 0 s = abortPoll n held.length
      { s with trace := s.trace ++ heldRounds held, readAnswers := rest, expiredAnswers := later } := by
  induction held using List.reverseRecOn generalizing n rest later with
  | nil =>
    obtain rfl : n = 11 := hn
    obtain rfl : s.readAnswers = rest := hr
    obtain rfl : s.expiredAnswers = later := hx
    simp [heldRounds]
  | append_singleton held h ih =>
    rw [List.length_append, List.length_singleton] at hn hx ⊢
    obtain ⟨hheld, hh⟩ := List.forall_mem_append.mp hheld
    rw [List.append_assoc] at hr
    rw [List.replicate_succ', List.append_assoc] at hx
    rw [ih (n + 1) (by omega) hr hheld hx]
    obtain ⟨hbit, ht⟩ := readEnable_cons
      (s := { s with
        trace := s.trace ++ heldRounds held, readAnswers := [h] ++ rest, expiredAnswers := [false] ++ later }) rfl
    rw [List.forall_mem_singleton.mp hh] at hbit
    obtain ⟨hexp, hu⟩ := afterExpired_cons (s := State.afterRead .enable _) held.length (by omega) (by rw [ht]; rfl)
    rw [abortPoll_again n held.length _ hbit hexp, hu, ht, heldRounds_append_singleton]
    simp [State.delay, State.emit]

/-- A round that finds the abort bit set and the budget expired, by an answer or by the eleventh delay (R183). -/
theorem abortPoll_expired_of_answer (n k : Nat) {s : State} {v : Word} {rest : List Word} {later : List Bool}
    (hk : k ≤ 11) (hr : s.readAnswers = v :: rest) (hv : v.getLsbD 1 = true)
    (hx : s.expiredAnswers = if k = 11 then later else true :: later) :
    abortPoll n k s =
      (false, { s with
                trace := s.trace ++ [.regRead .enable (v &&& 0x3), .expired k true]
                readAnswers := rest
                expiredAnswers := later }) := by
  obtain ⟨hbit, ht⟩ := readEnable_cons hr
  by_cases h11 : k = 11
  · rw [if_pos h11] at hx
    rw [abortPoll_expired n k s (hbit.trans hv) (isExpired_late h11.ge _), afterExpired_late h11.ge, ht, ← hx]
    simp
  · rw [if_neg h11] at hx
    obtain ⟨hexp, hu⟩ := afterExpired_cons (s := s.afterRead .enable) k (by omega) (by rw [ht]; exact hx)
    rw [abortPoll_expired n k s (hbit.trans hv) hexp, hu, ht]
    simp

/-- Settles O12: the rounds that find the bit set, then the read that decides. -/
theorem abortPollEndsAtTheFirstClearRead : Obligations.AbortPollEndsAtTheFirstClearRead := by
  intro s v held rest later hlen hr hheld hx
  obtain ⟨n, hn⟩ : ∃ n, n + held.length = 11 := ⟨11 - held.length, by omega⟩
  rw [abortPoll_heldRounds n hn hr hheld hx]
  constructor
  · intro hv
    obtain ⟨hbit, ht⟩ := readEnable_cons
      (s := { s with trace := s.trace ++ heldRounds held, readAnswers := v :: rest, expiredAnswers := later }) rfl
    rw [abortPoll_done n held.length _ (hbit.trans hv), ht]
  · intro hv later' hlater
    rw [abortPoll_expired_of_answer n held.length hlen rfl hv hlater, List.append_assoc]

/-! ## Counting events -/

theorem countEvents_nil (q : PortEvent → Bool) : countEvents q [] = 0 := rfl

theorem countEvents_cons_of_pos {q : PortEvent → Bool} {e : PortEvent} {es : List PortEvent} (h : q e = true) :
    countEvents q (e :: es) = countEvents q es + 1 := by
  rw [countEvents, List.filter_cons_of_pos h, List.length_cons, countEvents]

theorem countEvents_cons_of_neg {q : PortEvent → Bool} {e : PortEvent} {es : List PortEvent} (h : q e = false) :
    countEvents q (e :: es) = countEvents q es := by
  rw [countEvents, List.filter_cons_of_neg (Bool.eq_false_iff.mp h), countEvents]

theorem countEvents_append (q : PortEvent → Bool) (es fs : List PortEvent) :
    countEvents q (es ++ fs) = countEvents q es + countEvents q fs := by
  simp only [countEvents, List.filter_append, List.length_append]

/-- A test that no event of a list satisfies counts none. -/
theorem countEvents_eq_zero {q : PortEvent → Bool} {es : List PortEvent} (h : ∀ e ∈ es, q e = false) :
    countEvents q es = 0 := by
  rw [countEvents, List.filter_eq_nil_iff.mpr fun e he => Bool.eq_false_iff.mp (h e he), List.length_nil]

variable {p : Params}

/-- The disable loop shows nothing but its attempts and sleeps (R175). -/
theorem DisableLoopShape.countEvents_eq_zero {q : PortEvent → Bool} {n : Nat} {evs : List PortEvent} {o : DisableOutcome}
    (h : DisableLoopShape p n evs o) (hw : q (.regWrite .enable 0) = false)
    (hr : ∀ v, q (.regRead .enableStatus v) = false) (hd : q (.delay 25) = false) : countEvents q evs = 0 := by
  induction h with
  | done => rw [countEvents_cons_of_neg hw, countEvents_cons_of_neg (hr _), countEvents_nil]
  | last => rw [countEvents_cons_of_neg hw, countEvents_cons_of_neg (hr _), countEvents_nil]
  | again _ _ _ _ _ _ _ ih =>
    rw [countEvents_cons_of_neg hw, countEvents_cons_of_neg (hr _), countEvents_cons_of_neg hd, ih]

/-- The disable loop never ends with ABORT_TIMEOUT (R174, R175). -/
theorem DisableLoopShape.ne_abortTimeout {n : Nat} {evs : List PortEvent} {o : DisableOutcome}
    (h : DisableLoopShape p n evs o) : o ≠ .abortTimeout := by
  induction h with
  | done => nofun
  | last => nofun
  | again _ _ _ _ _ _ _ ih => exact ih

/-- The abort poll shows nothing but reads of ENABLE, questions of the time source and delays (R171). -/
theorem AbortPollShape.countEvents_eq_zero {q : PortEvent → Bool} {k : Nat} {evs : List PortEvent} {b : Bool}
    (h : AbortPollShape p k evs b) (hr : ∀ v, q (.regRead .enable v) = false)
    (hx : ∀ k e, q (.expired k e) = false) (hd : q (.delay 10) = false) : countEvents q evs = 0 := by
  induction h with
  | done => rw [countEvents_cons_of_neg (hr _), countEvents_nil]
  | timeout => rw [countEvents_cons_of_neg (hr _), countEvents_cons_of_neg (hx _ _), countEvents_nil]
  | again _ _ _ _ _ _ _ _ ih =>
    rw [countEvents_cons_of_neg (hr _), countEvents_cons_of_neg (hx _ _), countEvents_cons_of_neg hd, ih]

/-- An abort poll that times out ends with the expiry (R171). -/
theorem AbortPollShape.ends_expired {k : Nat} {evs : List PortEvent} (h : AbortPollShape p k evs false) :
    ∃ es j, evs = es ++ [.expired j true] := by
  generalize hb : false = b at h
  induction h with
  | done => cases hb
  | timeout k v => exact ⟨[.regRead .enable v], k, rfl⟩
  | again k v evs b m hv hk rest ih =>
    obtain ⟨es, j, rfl⟩ := ih hb
    exact ⟨.regRead .enable v :: .expired k false :: .delay 10 :: es, j, rfl⟩

/-! ## One abort request, and its timeout (R172 to R174, R179) -/

/-- The abort request sets EN_ABORT (R113, R173). -/
theorem isAbortRequest_request (en : Word) : isAbortRequest (.regWrite .enable (en ||| enAbort)) = true := by
  simp [isAbortRequest, abortBit, enAbort]

/-- A disable sequence reads the raw status once (R172). -/
theorem DisableShape.rawReads_eq_one {evs : List PortEvent} {o : DisableOutcome} (h : DisableShape p evs o) :
    countEvents (isReadOf .rawIntrStat) evs = 1 := by
  cases h with
  | direct _ _ _ _ _ _ _ loop =>
    rw [countEvents_cons_of_pos rfl, countEvents_cons_of_neg rfl, loop.countEvents_eq_zero rfl (fun _ => rfl) rfl]
  | aborted _ _ _ _ _ _ _ _ seen loop =>
    rw [countEvents_cons_of_pos rfl, countEvents_cons_of_neg rfl, countEvents_cons_of_neg rfl, countEvents_append,
      seen.countEvents_eq_zero (fun _ => rfl) (fun _ _ => rfl) rfl, loop.countEvents_eq_zero rfl (fun _ => rfl) rfl]
  | abortFailed _ _ _ _ _ _ expired =>
    rw [countEvents_cons_of_pos rfl, countEvents_cons_of_neg rfl, countEvents_cons_of_neg rfl,
      expired.countEvents_eq_zero (fun _ => rfl) (fun _ _ => rfl) rfl]

/-- A disable sequence requests at most one abort: neither the poll nor the loop requests one (R173, R179). -/
theorem DisableShape.abortRequests_le_one {evs : List PortEvent} {o : DisableOutcome} (h : DisableShape p evs o) :
    countEvents isAbortRequest evs ≤ 1 := by
  cases h with
  | direct _ _ _ _ _ _ _ loop =>
    rw [countEvents_cons_of_neg rfl, countEvents_cons_of_neg rfl, loop.countEvents_eq_zero rfl (fun _ => rfl) rfl]
    exact Nat.zero_le _
  | aborted _ _ _ _ _ _ _ _ seen loop =>
    rw [countEvents_cons_of_neg rfl, countEvents_cons_of_neg rfl, countEvents_cons_of_pos (isAbortRequest_request _),
      countEvents_append, seen.countEvents_eq_zero (fun _ => rfl) (fun _ _ => rfl) rfl,
      loop.countEvents_eq_zero rfl (fun _ => rfl) rfl]
  | abortFailed _ _ _ _ _ _ expired =>
    rw [countEvents_cons_of_neg rfl, countEvents_cons_of_neg rfl, countEvents_cons_of_pos (isAbortRequest_request _),
      expired.countEvents_eq_zero (fun _ => rfl) (fun _ _ => rfl) rfl]

/-- Settles O13: both counts are read off the shape of the sequence. -/
theorem atMostOneAbortRequest : Obligations.AtMostOneAbortRequest := by
  intro s
  obtain ⟨evs, hshape, ht⟩ := disableSeq_spec s
  exact ⟨evs, by rw [ht], hshape.rawReads_eq_one, hshape.abortRequests_le_one⟩

/-- The disable loop never answers ABORT_TIMEOUT (R174). -/
theorem disableLoop_ne_abortTimeout (n : Nat) (s : State) : (disableLoop (n + 1) s).1 ≠ .abortTimeout := by
  obtain ⟨evs, -, hshape⟩ := disableLoop_run n s
  exact hshape.ne_abortTimeout

/-- The outcome is ABORT_TIMEOUT exactly where the abort is requested and its poll times out (R174). -/
theorem disableSeq_abortTimeout_iff (s : State) : (disableSeq s).1 = .abortTimeout ↔ AbortPollTimesOut s := by
  change (disableBody s).1 = .abortTimeout ↔ _
  constructor
  · intro ho
    by_cases hhold : IntrBit.mstOnHold.isSet (s.readValue .rawIntrStat) = true ∧
        abortBit ((s.afterRead .rawIntrStat).readValue .enable) = false
    · refine ⟨hhold.1, hhold.2, Bool.eq_false_iff.mpr fun hdone => ?_⟩
      rw [disableBody_hold s hhold, abortThenDisable_done _ _ hdone] at ho
      exact disableLoop_ne_abortTimeout 99 _ ho
    · rw [disableBody_direct s hhold] at ho
      exact absurd ho (disableLoop_ne_abortTimeout 99 _)
  · rintro ⟨hraw, hen, hpoll⟩
    rw [disableBody_hold s ⟨hraw, hen⟩, abortThenDisable_timeout _ _ hpoll]

/-- A disable sequence that ends with ABORT_TIMEOUT: its one write of ENABLE is the abort request, and the expiry is its
last event (R174). -/
theorem DisableShape.abortTimeout_events {evs : List PortEvent} (h : DisableShape p evs .abortTimeout) :
    ∃ es k, evs = es ++ [.expired k true] ∧ countEvents isAbortRequest es = 1 ∧
      countEvents (isWriteOf .enable) es = 1 := by
  cases h with
  | direct _ _ _ _ _ _ _ loop => exact absurd rfl loop.ne_abortTimeout
  | aborted _ _ _ _ _ _ _ _ _ loop => exact absurd rfl loop.ne_abortTimeout
  | abortFailed raw en _ _ _ _ expired =>
    obtain ⟨es, k, rfl⟩ := expired.ends_expired
    have hpoll : ∀ {q : PortEvent → Bool}, (∀ v, q (.regRead .enable v) = false) → (∀ k e, q (.expired k e) = false) →
        q (.delay 10) = false → countEvents q es = 0 := fun hr hx hd =>
      (Nat.add_eq_zero_iff.mp ((countEvents_append ..).symm.trans (expired.countEvents_eq_zero hr hx hd))).1
    refine ⟨.regRead .rawIntrStat raw :: .regRead .enable en :: .regWrite .enable (en ||| enAbort) :: es, k, rfl, ?_, ?_⟩
    · rw [countEvents_cons_of_neg rfl, countEvents_cons_of_neg rfl, countEvents_cons_of_pos (isAbortRequest_request en),
        hpoll (fun _ => rfl) (fun _ _ => rfl) rfl]
    · rw [countEvents_cons_of_neg rfl, countEvents_cons_of_neg rfl, countEvents_cons_of_pos rfl,
        hpoll (fun _ => rfl) (fun _ _ => rfl) rfl]

/-- Settles O14: `disableSeq_abortTimeout_iff`, and the shape's events where the outcome is ABORT_TIMEOUT. -/
theorem abortTimeoutAbandonsTheSequence : Obligations.AbortTimeoutAbandonsTheSequence := by
  intro s
  refine ⟨disableSeq_abortTimeout_iff s, fun h => ?_⟩
  have ho := (disableSeq_abortTimeout_iff s).mpr h
  obtain ⟨evs, hshape, ht⟩ := disableSeq_spec s
  generalize disableSeq s = d at *
  rw [ho] at hshape ht
  obtain ⟨es, k, rfl, hreq, hwr⟩ := hshape.abortTimeout_events
  exact ⟨es, k, by rw [ht, List.append_assoc], hreq, hwr, by rw [ht]⟩

/-! ## Every poll is bounded (R183, R222) -/

/-- The abort poll after `k` delays reads once more than it still delays, and no delay comes after the eleventh. -/
theorem AbortPollShape.bounded {k : Nat} {evs : List PortEvent} {b : Bool} (h : AbortPollShape p k evs b) (hk : k ≤ 11) :
    countEvents (isReadOf .enable) evs = countEvents isDelay evs + 1 ∧ countEvents isDelay evs + k ≤ 11 := by
  induction h with
  | done => exact ⟨rfl, hk.trans' (Nat.zero_add _).le⟩
  | timeout => exact ⟨rfl, hk.trans' (Nat.zero_add _).le⟩
  | again _ _ _ _ _ _ hk' _ ih =>
    obtain ⟨hreads, hdelays⟩ := ih (Nat.succ_le_succ hk')
    rw [countEvents_cons_of_pos rfl, countEvents_cons_of_neg rfl, countEvents_cons_of_neg rfl, hreads,
      countEvents_cons_of_neg rfl, countEvents_cons_of_neg rfl, countEvents_cons_of_pos rfl]
    exact ⟨rfl, by omega⟩

/-- The acknowledges neither read the status nor delay (R170). -/
theorem countEvents_ackEvents {q : PortEvent → Bool} (st src : Word) (bs : List IntrBit)
    (hr : q (.regRead .txAbrtSource src) = false) (ha : ∀ b, q (.ack b) = false) :
    countEvents q (ackEvents st src bs) = 0 := by
  refine countEvents_eq_zero fun e he => ?_
  obtain ⟨b, -, hb⟩ := List.mem_flatMap.mp he
  split at hb
  · rcases List.mem_pair.mp hb with rfl | rfl
    · exact hr
    · exact ha _
  · cases List.mem_singleton.mp hb
    exact ha b

/-- The helper reads the masked status once, and does not delay (R170). -/
theorem countEvents_clearEvents (st src : Word) :
    countEvents (isReadOf .intrStat) (clearEvents st src) = 1 ∧ countEvents isDelay (clearEvents st src) = 0 := by
  constructor
  · rw [clearEvents, countEvents_cons_of_pos rfl, countEvents_ackEvents st src _ rfl fun _ => rfl]
  · rw [clearEvents, countEvents_cons_of_neg rfl, countEvents_ackEvents st src _ rfl fun _ => rfl]

/-- The read path's poll after `k` delays reads once more than it still delays, and no delay comes after the eleventh. -/
theorem ReadPollShape.bounded {k : Nat} {evs : List PortEvent} {e : PollEnd} (h : ReadPollShape p k evs e) (hk : k ≤ 11) :
    countEvents (isReadOf .intrStat) evs = countEvents isDelay evs + 1 ∧ countEvents isDelay evs + k ≤ 11 := by
  induction h with
  | abort _ st src =>
    obtain ⟨hread, hdelay⟩ := countEvents_clearEvents st src
    omega
  | full _ st =>
    obtain ⟨hread, hdelay⟩ := countEvents_clearEvents st 0
    omega
  | timeout k st =>
    obtain ⟨hread, hdelay⟩ := countEvents_clearEvents st 0
    rw [countEvents_append, countEvents_append, hread, hdelay]
    exact ⟨rfl, hk.trans' (Nat.zero_add _).le⟩
  | again _ st _ _ _ _ _ hk' _ ih =>
    obtain ⟨hread, hdelay⟩ := countEvents_clearEvents st 0
    obtain ⟨hreads, hdelays⟩ := ih (Nat.succ_le_succ hk')
    rw [countEvents_append, hread, countEvents_cons_of_neg rfl, countEvents_cons_of_neg rfl, hreads,
      countEvents_append, hdelay, countEvents_cons_of_neg rfl, countEvents_cons_of_pos rfl]
    omega

/-- Settles O15: both polls have their shape from the first read on. -/
theorem everyPollIsBounded : Obligations.EveryPollIsBounded := by
  intro s
  obtain ⟨aevs, harun, hashape⟩ := abortPoll_run 11 0 rfl s
  obtain ⟨revs, hrrun, hrshape⟩ := readPoll_run 11 0 rfl s
  obtain ⟨hareads, hadelays⟩ := hashape.bounded (Nat.zero_le _)
  obtain ⟨hrreads, hrdelays⟩ := hrshape.bounded (Nat.zero_le _)
  exact ⟨⟨aevs, harun, by omega, by omega, by omega⟩, ⟨revs, hrrun, by omega, by omega, by omega⟩⟩

/-! ## Interrupt read-and-clear (R170, R347) -/

/-- Settles O16: the run of the helper, with its events written out, and the source where TX_ABRT is not set. -/
theorem readClearAcknowledgesTheAssertedBits : Obligations.ReadClearAcknowledgesTheAssertedBits := fun s =>
  ⟨rfl, readClearIntr_run s, readClearIntr_src s, by decide⟩

end Sys2Proof.Machine
end


section
/-! PROOF. Every transaction ends (42_transfer.md R228, 60_exceptions.md R300, R306): a step inside one takes up a word of
the command stream, or performs the operation at the position, which ends the transaction or moves the walk by one. The
operations left, then the words waiting, decrease. -/

namespace Sys2Proof.Machine

/-- From `s` to `t` the command in progress has ended, with one result more and the command port untouched. -/
def EndedOnce (s t : State) : Prop := t.cmd = .idle ∧ t.port = s.port ∧ ∃ r, t.results = s.results ++ [r]

/-- From `s` to `t` the transaction has gone on, with no result and the command port untouched. -/
def GoesOn (s t : State) : Prop := t.cmd = s.cmd ∧ t.port = s.port ∧ t.results = s.results

/-- A run from `s` comes to a state where the command has ended, or to a model fault (R306). -/
def Ends (s : State) : Prop :=
  ∃ k, (∃ t, core.run k s = .next t ∧ EndedOnce s t) ∨ ∃ f, core.run k s = .fault f

theorem EndedOnce.after {s t u : State} (hst : GoesOn s t) (htu : EndedOnce t u) : EndedOnce s u := by
  obtain ⟨-, hport, hres⟩ := hst
  obtain ⟨hidle, hport', r, hr⟩ := htu
  exact ⟨hidle, hport'.trans hport, r, hr.trans (by rw [hres])⟩

theorem run_succ_of_next (k : Nat) {s t : State} (h : step s = .next t) :
    core.run (k + 1) s = core.run k t := by
  simp only [Host.Core.run, core, h]

theorem run_succ_of_fault (k : Nat) {s : State} {f : Fault} (h : step s = .fault f) :
    core.run (k + 1) s = .fault f := by
  simp only [Host.Core.run, core, h]

theorem Ends.of_fault {s : State} {f : Fault} (h : step s = .fault f) : Ends s :=
  ⟨1, .inr ⟨f, run_succ_of_fault 0 h⟩⟩

theorem Ends.of_ended {s t : State} (h : step s = .next t) (he : EndedOnce s t) : Ends s :=
  ⟨1, .inl ⟨t, run_succ_of_next 0 h, he⟩⟩

theorem Ends.of_goesOn {s t : State} (h : step s = .next t) (hg : GoesOn s t) (ht : Ends t) : Ends s := by
  obtain ⟨k, ⟨u, hu, he⟩ | ⟨f, hf⟩⟩ := ht
  · exact ⟨k + 1, .inl ⟨u, (run_succ_of_next k h).trans hu, he.after hg⟩⟩
  · exact ⟨k + 1, .inr ⟨f, (run_succ_of_next k h).trans hf⟩⟩

/-- A word of the command stream completes in every state (R270 to R276). -/
theorem exec_dataCmd_completes {i : Instr} (hd : i.isDataCmd = true) (s : State) :
    ∃ rs, exec i s = .next { s with asked := s.asked ++ rs } := by
  cases i with
  | setTiming | setMsgFlags | configureMaster | configureFifoMaster | initMaster | disable | transfer7 | transfer10
  | opWrite | opRead => cases hd
  | dcWr | dcWrStop | dcWrRestart | dcWrRestartStop | dcRd | dcRdRestart | dcRdStop | dcRdRestartStop => exact ⟨_, rfl⟩

/-- A word that the sequencer may push decodes (R276). -/
theorem decodeDataCmd_of_lawfulPush {w : Word} (h : lawfulPush w = true) : ∃ i, decodeDataCmd w = .ok i := by
  cases hi : decodeDataCmd w with
  | ok i => exact ⟨i, rfl⟩
  | error r =>
    rw [lawfulPush, hi] at h
    cases h

/-- Where words wait in the command stream a step takes up the oldest one, and completes. -/
theorem step_takesUp {s : State} {w : Word} {ws : List Word} (hs : PortInv s) (hd : s.dataCmds = w :: ws) :
    ∃ rs, step s = .next { s with dataCmds := ws, asked := s.asked ++ rs } := by
  obtain ⟨-, hdata, -, -⟩ := hs
  obtain ⟨i, hi⟩ := decodeDataCmd_of_lawfulPush (hdata w (hd ▸ List.mem_cons_self))
  obtain ⟨rs, hrs⟩ := exec_dataCmd_completes (decodeDataCmd_isDataCmd hi) { s with dataCmds := ws }
  exact ⟨rs, (step_of_dataCmd hd hi).trans hrs⟩

/-- An operation that returned Ok was the last one, or the walk stands at the next operation (R228). -/
theorem opDone_ends_or_goesOn {ops : List Op} {s t : State} (hcmd : t.cmd = cmdAfter ops s)
    (hres : t.results = resultsAfter ops s) (hport : t.port = s.port) (hidx : t.opIdx = s.opIdx + 1) :
    EndedOnce s t ∨ GoesOn s t ∧ t.opIdx = s.opIdx + 1 := by
  unfold cmdAfter at hcmd
  unfold resultsAfter at hres
  by_cases hlt : s.opIdx + 1 < ops.length
  · rw [if_pos hlt] at hcmd hres
    exact .inr ⟨⟨hcmd, hport, hres⟩, hidx⟩
  · rw [if_neg hlt] at hcmd hres
    exact .inl ⟨hcmd, hport, 0, hres⟩

/-- An operation of a transaction faults, ends the transaction, or moves the walk by one; it is never refused. -/
theorem exec_op_progress (op : Op) {s : State} {tar : Word} {ops : List Op} (hc : s.cmd = .transfer tar ops) :
    (∃ f, exec op.toInstr s = .fault f) ∨
      ∃ t, exec op.toInstr s = .next t ∧ (EndedOnce s t ∨ GoesOn s t ∧ t.opIdx = s.opIdx + 1) := by
  cases op with
  | write buf =>
    rcases exec_opWrite_cases buf tar ops s hc with ⟨-, u, he⟩ | ⟨-, -, -, u, he⟩ | ⟨-, -, -, he⟩ | ⟨-, -, he⟩
    · exact .inl ⟨_, he⟩
    · exact .inl ⟨_, he⟩
    · exact .inr ⟨_, he, opDone_ends_or_goesOn (ops := ops) rfl rfl rfl rfl⟩
    · exact .inr ⟨_, he, opDone_ends_or_goesOn (ops := ops) rfl rfl rfl rfl⟩
  | read len =>
    rcases exec_opRead_cases len tar ops s hc with
      ⟨-, he⟩ | ⟨-, ⟨_, _, _, _, _, -, -, he⟩ | ⟨_, _, _, _, -, -, he⟩ |
        ⟨_, _, _, _, _, -, -, -, -, ⟨-, -, -, he⟩ | ⟨-, he⟩⟩⟩
    · exact .inr ⟨_, he, .inl ⟨rfl, rfl, _, rfl⟩⟩
    · exact .inr ⟨_, he, .inl ⟨rfl, rfl, _, rfl⟩⟩
    · exact .inr ⟨_, he, .inl ⟨rfl, rfl, _, rfl⟩⟩
    · exact .inl ⟨_, he⟩
    · exact .inr ⟨_, he, opDone_ends_or_goesOn (ops := ops) rfl rfl rfl rfl⟩

/-- A transaction in progress ends: what is left of it, counted in operations and then in words waiting, decreases with
every step. -/
theorem transaction_ends {s : State} {tar : Word} {ops : List Op} (hp : PortInv s) (hw : WalkInv s)
    (hc : s.cmd = .transfer tar ops) : Ends s := by
  cases hd : s.dataCmds with
  | cons w ws =>
    obtain ⟨rs, hstep⟩ := step_takesUp hp hd
    exact .of_goesOn hstep ⟨rfl, rfl, rfl⟩
      (transaction_ends (stepKeepsThePortLawful _ _ hp hstep) (stepKeepsTheWalk _ _ hw hstep) hc)
  | nil =>
    obtain ⟨-, -, hidx, -⟩ := (walkInv_transfer hc).mp hw
    have hstep := step_of_op hd hc (List.getElem?_eq_getElem hidx)
    rcases exec_op_progress ops[s.opIdx] hc with ⟨f, hf⟩ | ⟨t, ht, hended | ⟨hgoes, hnext⟩⟩
    · exact .of_fault (hstep.trans hf)
    · exact .of_ended (hstep.trans ht) hended
    · have hcmd : t.cmd = s.cmd := hgoes.1
      exact .of_goesOn (hstep.trans ht) hgoes
        (transaction_ends (stepKeepsThePortLawful _ _ hp (hstep.trans ht)) (stepKeepsTheWalk _ _ hw (hstep.trans ht))
          (hcmd.trans hc))
termination_by (ops.length - s.opIdx, s.dataCmds.length)
decreasing_by
  · exact Prod.Lex.left _ _ (by omega)
  · exact Prod.Lex.right _ (by simp [hd])

/-- Settles O58: `transaction_ends`, read off the outcome of the run. -/
theorem everyTransactionEnds : Obligations.EveryTransactionEnds := by
  intro s tar ops hp hw hc
  obtain ⟨k, ⟨t, hrun, hended⟩ | ⟨f, hrun⟩⟩ := transaction_ends hp hw hc
  · refine ⟨k, ?_⟩
    rw [hrun]
    exact hended
  · refine ⟨k, ?_⟩
    rw [hrun]
    trivial

end Sys2Proof.Machine
end

section
/-! PROOF. The admission of a transaction (42_transfer.md R210 to R212, R227 to R229): transfer setup, then the start of the
walk with the read buffers the host supplied; before INIT_MASTER a refusal. -/

namespace Sys2Proof.Machine

/-- Settles O17: `xferInit_spec`, with the bit the setup changes as a number. -/
theorem transferSetupEvents : Obligations.TransferSetupEvents := xferInit_spec

/-- Transfer setup leaves the read buffers' supply and the results as they were (R210). -/
theorem xferInit_keeps_supply_results (tar : Word) (s : State) :
    (xferInit tar s).rbufSupply = s.rbufSupply ∧ (xferInit tar s).results = s.results := by
  obtain ⟨_, _, _, _, _, _, -, -, -, -, -, -, hx⟩ := xferInit_spec tar s
  rw [hx]
  exact ⟨rfl, rfl⟩

/-- A transaction met while Idle and initialised is admitted (R227 to R229). -/
theorem transfer_admits (tar : Word) (ops : List Op) {s : State} (hc : s.cmd = .idle) (hi : s.initialized = true) :
    ∃ t, transfer tar ops s = .next t ∧ Admitted tar ops s t := by
  obtain ⟨hsupply, hresults⟩ := xferInit_keeps_supply_results tar s
  have hnext := transfer_admitted tar ops s hc hi
  rw [takeBuffers_rest, hsupply, hresults] at hnext
  exact ⟨_, hnext, rfl, takeBuffers_length _ _ _, fun i len => takeBuffers_buffer ops _ _ i len⟩

/-- Settles O18: the target value of a 7-bit address is the address (R112). -/
theorem transferSevenIsAdmitted : Obligations.TransferSevenIsAdmitted := fun a ops _ hc hi =>
  transfer_admits (tarOf7 a) ops hc hi

/-- The target value of a 10-bit address has the 10-bit-mode flag (R112). -/
theorem tarOf10_getLsbD_twelve (a : BitVec 10) : (tarOf10 a).getLsbD 12 = true := by
  simp [tarOf10, tar10Bit]

/-- Settles O19: the target value of a 10-bit address is the address with the 10-bit-mode flag (R112). -/
theorem transferTenIsAdmitted : Obligations.TransferTenIsAdmitted := by
  intro a ops s hc hi
  obtain ⟨t, ht, hadmitted⟩ := transfer_admits (tarOf10 a) ops hc hi
  exact ⟨t, ht, hadmitted, tarOf10_getLsbD_twelve a⟩

/-- Settles O20: both transaction commands go through `transfer`. -/
theorem transferBeforeInitIsRefused : Obligations.TransferBeforeInitIsRefused := fun a b ops s hc hi =>
  ⟨transfer_uninitialised (tarOf7 a) ops s hc hi, transfer_uninitialised (tarOf10 b) ops s hc hi⟩

end Sys2Proof.Machine
end

section
/-! PROOF. The write path (42_transfer.md R213 to R219): its two faults, what it leaves where it reaches its end, and the
bits of the words it pushes. -/

namespace Sys2Proof.Machine

/-- Settles O22: the write operation reaches its end, with a write in progress exactly where one is left. -/
theorem opWriteRunsTheWritePath : Obligations.OpWriteRunsTheWritePath := by
  intro buf tar ops s hc hlevel hcount
  obtain ⟨w, hw⟩ : ∃ w : Bool, w = true ↔ leavesWip buf s := by
    by_cases h : leavesWip buf s
    · exact ⟨true, by simp [h]⟩
    · exact ⟨false, by simp [h]⟩
  exact ⟨_, w, exec_opWrite_completes hc hlevel hw (fun hwip => hcount (hw.mp hwip)), hw, rfl⟩

/-- Settles O23: the level fault carries the state right after the level read. -/
theorem levelAboveDepthFaults : Obligations.LevelAboveDepthFaults := by
  intro buf tar ops s hc hlevel
  refine ⟨_, exec_opWrite_fault hc (writeMsg_level buf _ { s with writesLeft := s.writesLeft - 1 } hlevel), ?_⟩
  rw [afterRead_eq]
  exact ⟨rfl, rfl, rfl⟩

/-- Settles O24: the overflow fault carries the state after the pushes, with the write in progress. -/
theorem writeCountOverflowFaults : Obligations.WriteCountOverflowFaults := by
  intro buf tar ops s hc hlevel hwip hmax
  have hpushes := writeMsg_pushes buf (s.writesLeft - 1 == 0) { s with writesLeft := s.writesLeft - 1 } hlevel
  exact ⟨_, exec_opWrite_fault hc (hpushes.trans (writeEnd_overflow _ _ _ _ hwip hmax)), rfl, rfl, rfl⟩

/-- Settles O57: in a transaction no message error is recorded (R219), so the mask depends on the writes left alone. -/
theorem writePathNeverMasksEverything : Obligations.WritePathNeverMasksEverything := by
  intro buf tar ops s t hs hc h
  obtain ⟨-, herr, -⟩ := (walkInv_transfer hc).mp hs
  obtain ⟨-, ops', w, -, -, -, -, rfl⟩ := exec_opWrite_next h
  refine ⟨_, _, by rw [writeDone, List.append_assoc s.trace], ?_⟩
  rw [herr, if_neg Bool.false_ne_true]
  split
  · exact .inl rfl
  · exact .inr rfl

/-- The word at an index of the words pushed (R87, R215). -/
theorem writeCmds_getElem? (restart isLast recvLen : Bool) {n i : Nat} {buf : List Byte} {b : Byte} (hi : i < n)
    (hb : buf[i]? = some b) :
    (writeCmds restart isLast recvLen n buf)[i]? = some (writeCmd restart isLast recvLen buf.length n i b) := by
  simp [writeCmds, List.getElem?_take_of_lt hi, hb]

/-- The stop condition falls on the last byte of the whole buffer, where all of it is pushed (R215). -/
theorem stopOn_iff {isLast recvLen : Bool} {len n i : Nat} (hn : n ≤ len) (hi : i < n) :
    stopOn isLast recvLen len n i = true ↔ isLast = true ∧ i + 1 = len ∧ recvLen = false := by
  simp only [stopOn, Bool.and_eq_true, beq_iff_eq, Bool.not_eq_true']
  constructor
  · rintro ⟨⟨⟨hlast, -⟩, hlen⟩, hflag⟩
    exact ⟨hlast, hlen, hflag⟩
  · rintro ⟨hlast, hlen, hflag⟩
    exact ⟨⟨⟨hlast, by omega⟩, hlen⟩, hflag⟩

/-- Settles O25: a pushed word is a data-command word (`writeCmd_eq`), whose bits are known. -/
theorem writeWordBits : Obligations.WriteWordBits := by
  refine fun restart isLast recvLen n buf hn => ⟨by simp [writeCmds, hn], fun i b hi hb => ?_⟩
  refine ⟨_, writeCmds_getElem? restart isLast recvLen hi hb, ?_⟩
  rw [writeCmd_eq]
  obtain ⟨hhigh, -, hdat⟩ := dataCmdWord_fields (decide (i = 0 ∧ restart = true))
    (stopOn isLast recvLen buf.length n i) false b
  refine ⟨hdat, ?_, ?_, ?_, hhigh⟩ <;> rw [dataCmdWord_getLsbD]
  · rfl
  · exact stopOn_iff hn hi
  · exact decide_eq_true_iff

end Sys2Proof.Machine
end

section
/-! PROOF. The read path (42_transfer.md R220 to R225): the ends of its poll on scripted answers, and what a read operation
leaves for each way it can go. -/

namespace Sys2Proof.Machine

/-! ## The read operation, by how its poll ends -/

/-- Settles O27: at the depth the read path returns before its first port access (R220). -/
theorem readOverrunTouchesNothing : Obligations.ReadOverrunTouchesNothing := by
  intro len tar ops s hc hdepth
  exact exec_opRead_err hc (readMsg_overrun _ _ s hdepth)

/-- Settles O28: with the count below the depth, the end of the poll selects the case of the read operation. -/
theorem readAbortEndsTheTransaction : Obligations.ReadAbortEndsTheTransaction := by
  intro len tar src ops s hc hroom hpoll
  rcases exec_opRead_cases len tar ops s hc with
    ⟨hdepth, -⟩ | ⟨-, ⟨_, evs, _, _, _, hend, hshape, he⟩ | ⟨_, _, _, _, hend, -⟩ | ⟨_, _, _, _, _, hend, -⟩⟩
  · exact absurd hroom (Nat.not_lt_of_le hdepth)
  · cases hpoll.symm.trans hend
    exact ⟨_, evs, he, hshape, rfl⟩
  · cases hpoll.symm.trans hend
  · cases hpoll.symm.trans hend

/-- Settles O29: as for the abort, with the poll's timeout; no message error is recorded. -/
theorem readTimeoutEndsTheTransaction : Obligations.ReadTimeoutEndsTheTransaction := by
  intro len tar ops s hc hroom hpoll
  rcases exec_opRead_cases len tar ops s hc with
    ⟨hdepth, -⟩ | ⟨-, ⟨_, _, _, _, _, hend, -⟩ | ⟨evs, _, _, _, hend, hshape, he⟩ | ⟨_, _, _, _, _, hend, -⟩⟩
  · exact absurd hroom (Nat.not_lt_of_le hdepth)
  · cases hpoll.symm.trans hend
  · exact ⟨_, evs, he, hshape, rfl⟩
  · cases hpoll.symm.trans hend

/-- A read operation that comes to its drain, in both its ends: the overflow fault, or the bookkeeping (R223 to R225). -/
theorem exec_opRead_of_drains (len : BitVec 16) {tar : Word} {ops : List Op} {s : State} (hc : s.cmd = .transfer tar ops)
    (hd : ReadDrains s) :
    ∃ evs ws ra ea n, ReadPollShape s.params 0 evs .full ∧ ws.length = min len.toNat (occupancy s) ∧
      (∀ w ∈ ws, Masked s.params .dataCmd w) ∧
      ((ReadOverflows len s ∧ exec (.opRead len) s = .fault (.counterOverflow (readStopped len ops evs ws ra ea n s))) ∨
        (¬ ReadOverflows len s ∧ exec (.opRead len) s = .next (readDone len ops evs ws ra ea n s))) := by
  obtain ⟨hroom, hfull⟩ := hd
  rcases exec_opRead_cases len tar ops s hc with
    ⟨hdepth, -⟩ | ⟨-, ⟨_, _, _, _, _, hend, -⟩ | ⟨_, _, _, _, hend, -⟩ |
      ⟨evs, ws, ra, ea, n, -, hshape, hlen, hws, ⟨hleft, hinc, hmax, he⟩ | ⟨hno, he⟩⟩⟩
  · exact absurd hroom (Nat.not_lt_of_le hdepth)
  · cases hfull.symm.trans hend
  · cases hfull.symm.trans hend
  · exact ⟨evs, ws, ra, ea, n, hshape, hlen, hws, .inl ⟨⟨hleft, hinc, hmax⟩, he⟩⟩
  · exact ⟨evs, ws, ra, ea, n, hshape, hlen, hws, .inr ⟨fun ⟨hleft, hinc, hmax⟩ => hno hleft hinc hmax, he⟩⟩

/-- Settles O30: the drain without an overflow. -/
theorem opReadRunsTheReadPath : Obligations.OpReadRunsTheReadPath := by
  intro len tar ops s hc hroom hfull hcount
  obtain ⟨evs, ws, _, _, _, hshape, hlen, hws, ⟨⟨hleft, hinc, hmax⟩, -⟩ | ⟨-, he⟩⟩ :=
    exec_opRead_of_drains len hc ⟨hroom, hfull⟩
  · exact absurd hmax (hcount hleft hinc)
  · exact ⟨_, evs, ws, he, hshape, hlen, hws, rfl⟩

/-- Settles O31: the drain with the overflow; more is there than was asked, so LEN bytes are popped. -/
theorem readCountOverflowFaults : Obligations.ReadCountOverflowFaults := by
  intro len tar ops s hc hroom hfull hleft hinc hmax
  obtain ⟨evs, ws, _, _, _, hshape, hlen, hws, ⟨-, he⟩ | ⟨hno, -⟩⟩ := exec_opRead_of_drains len hc ⟨hroom, hfull⟩
  · exact ⟨_, evs, ws, he, hshape, hlen.trans (Nat.min_eq_left hleft.le), hws, rfl⟩
  · exact absurd ⟨hleft, hinc, hmax⟩ hno

/-! ## The byte stored for a popped word (R224) -/

/-- With RECV_LEN set, the substitution spares exactly the bytes from 1 to 32. -/
theorem storedByte_recvLen (w : Word) :
    storedByte true w = if 1 ≤ (popByte w).toNat ∧ (popByte w).toNat ≤ 32 then popByte w else 1 := by
  have hzero : popByte w = 0 ↔ (popByte w).toNat = 0 := BitVec.toNat_eq
  unfold storedByte Config.blockMax
  by_cases hrange : 1 ≤ (popByte w).toNat ∧ (popByte w).toNat ≤ 32
  · rw [if_pos hrange, if_neg (by rw [hzero]; omega)]
  · rw [if_neg hrange, if_pos ⟨rfl, by rw [hzero]; omega⟩]

/-- Settles O32: `storedByte_recvLen`; without RECV_LEN nothing is substituted. -/
theorem lengthPrefixIsNormalised : Obligations.LengthPrefixIsNormalised := by
  refine fun w => ⟨rfl, ?_⟩
  rw [storedByte_recvLen, apply_ite BitVec.toNat]
  rfl

/-! ## The read path's poll on scripted answers (R222) -/

/-- The interrupt bits of a status lie in INTR_STAT's mask (R101, R110). -/
theorem isSet_and_mask (b : IntrBit) (v : Word) : b.isSet (v &&& 0x3FFF) = b.isSet v := by
  cases b <;> simp [IntrBit.isSet, IntrBit.index]

/-- One more round at the end of the rounds that found neither TX_ABRT nor RX_FULL. -/
theorem idleRounds_append_singleton (idle : List Word) (v : Word) :
    idleRounds (idle ++ [v]) =
      idleRounds idle ++ clearEvents (v &&& 0x3FFF) 0 ++ [.expired idle.length false, .delay 10] := by
  simp [idleRounds, List.zipIdx_append]

/-- Reading and clearing the pending interrupts, where the input list answers a status without TX_ABRT (R170). -/
theorem readClearIntr_noAbort {s : State} {v : Word} {vs : List Word} (hr : s.readAnswers = v :: vs)
    (hv : v.getLsbD 6 = false) :
    IntrBit.txAbrt.isSet (readClearIntr s).st = false ∧ IntrBit.rxFull.isSet (readClearIntr s).st = v.getLsbD 2 ∧
      (readClearIntr s).after =
        { s with trace := s.trace ++ clearEvents (v &&& 0x3FFF) 0, readAnswers := vs } := by
  have hclear : IntrBit.txAbrt.isSet (v &&& 0x3FFF) = false := (isSet_and_mask .txAbrt v).trans hv
  rw [readClearIntr_plain hr hclear]
  exact ⟨hclear, isSet_and_mask .rxFull v, rfl⟩

/-- Rounds that find neither TX_ABRT nor RX_FULL and the budget left are gone through, as long as eleven delays are not
passed. -/
theorem readPoll_idleRounds (n : Nat) {s : State} {idle rest : List Word} {later : List Bool}
    (hn : n + idle.length = 11) (hr : s.readAnswers = idle ++ rest)
    (hidle : ∀ h ∈ idle, h.getLsbD 6 = false ∧ h.getLsbD 2 = false)
    (hx : s.expiredAnswers = List.replicate idle.length false ++ later) :
    readPoll 11 0 s = readPoll n idle.length
      { s with trace := s.trace ++ idleRounds idle, readAnswers := rest, expiredAnswers := later } := by
  induction idle using List.reverseRecOn generalizing n rest later with
  | nil =>
    obtain rfl : n = 11 := hn
    obtain rfl : s.readAnswers = rest := hr
    obtain rfl : s.expiredAnswers = later := hx
    simp [idleRounds]
  | append_singleton idle v ih =>
    rw [List.length_append, List.length_singleton] at hn hx ⊢
    obtain ⟨hidle, hv⟩ := List.forall_mem_append.mp hidle
    obtain ⟨hvabort, hvfull⟩ := List.forall_mem_singleton.mp hv
    rw [List.append_assoc] at hr
    rw [List.replicate_succ', List.append_assoc] at hx
    rw [ih (n + 1) (by omega) hr hidle hx]
    obtain ⟨habort, hfull, ht⟩ := readClearIntr_noAbort
      (s := { s with
        trace := s.trace ++ idleRounds idle, readAnswers := [v] ++ rest, expiredAnswers := [false] ++ later }) rfl hvabort
    obtain ⟨hexp, hu⟩ := afterExpired_cons (s := (readClearIntr _).after) idle.length (by omega) (by rw [ht]; rfl)
    rw [readPoll_again n idle.length _ habort (hfull.trans hvfull) hexp, hu, ht, idleRounds_append_singleton]
    simp [State.delay, State.emit]

/-- A round that finds neither TX_ABRT nor RX_FULL and the budget expired, by an answer or by the eleventh delay (R183). -/
theorem readPoll_expired_of_answer (n k : Nat) {s : State} {v : Word} {rest : List Word} {later : List Bool}
    (hk : k ≤ 11) (hr : s.readAnswers = v :: rest) (hvabort : v.getLsbD 6 = false) (hvfull : v.getLsbD 2 = false)
    (hx : s.expiredAnswers = if k = 11 then later else true :: later) :
    readPoll n k s =
      (.timeout, { s with
                   trace := s.trace ++ clearEvents (v &&& 0x3FFF) 0 ++ [.expired k true]
                   readAnswers := rest
                   expiredAnswers := later }) := by
  obtain ⟨habort, hfull, ht⟩ := readClearIntr_noAbort hr hvabort
  by_cases h11 : k = 11
  · rw [if_pos h11] at hx
    rw [readPoll_expired n k s habort (hfull.trans hvfull) (isExpired_late h11.ge _), afterExpired_late h11.ge, ht, ← hx]
  · rw [if_neg h11] at hx
    obtain ⟨hexp, hu⟩ := afterExpired_cons (s := (readClearIntr s).after) k (by omega) (by rw [ht]; exact hx)
    rw [readPoll_expired n k s habort (hfull.trans hvfull) hexp, hu, ht]

/-- Settles O60: the rounds that find neither bit, then the status that decides. -/
theorem readPollEndsAtTheFirstDecisiveStatus : Obligations.ReadPollEndsAtTheFirstDecisiveStatus := by
  intro s v idle rest later hlen hidle hx
  obtain ⟨n, hn⟩ : ∃ n, n + idle.length = 11 := ⟨11 - idle.length, by omega⟩
  refine ⟨fun hr hvabort hvfull => ?_, fun src hr hvabort => ?_, fun hr hvabort hvfull later' hlater => ?_⟩ <;>
    rw [readPoll_idleRounds n hn hr hidle hx]
  · obtain ⟨habort, hfull, ht⟩ := readClearIntr_noAbort
      (s := { s with trace := s.trace ++ idleRounds idle, readAnswers := v :: rest, expiredAnswers := later }) rfl hvabort
    rw [readPoll_full n idle.length _ habort (hfull.trans hvfull), ht]
  · have habort : IntrBit.txAbrt.isSet (v &&& 0x3FFF) = true := (isSet_and_mask .txAbrt v).trans hvabort
    have hclear := readClearIntr_abort
      (s := { s with trace := s.trace ++ idleRounds idle, readAnswers := v :: src :: rest, expiredAnswers := later })
      rfl habort
    rw [readPoll_abort n idle.length _ (by rw [hclear]; exact habort), hclear]
  · exact readPoll_expired_of_answer n idle.length hlen rfl hvabort hvfull hlater

end Sys2Proof.Machine
end

section
/-! PROOF. The forms of the command stream (43_fifo_commands.md R270 to R276): RESTART and STOP name the form, which asks
for its transfer with a restart before it and a stop after it where they are set; the words pushed are such forms' words. -/

namespace Sys2Proof.Machine

/-- The transfer `r` with what RESTART asks before it and STOP after it. -/
def withControls (restart stop : Bool) (r : BusRequest) : List BusRequest :=
  (if restart then [.restart] else []) ++ [r] ++ (if stop then [.stop] else [])

/-- A write form asks to transmit its byte (R270 to R273). -/
theorem exec_writeForm (restart stop : Bool) (b : Byte) (s : State) :
    exec (writeForm restart stop b) s = .next (s.ask (withControls restart stop (.transmit b))) := by
  cases restart <;> cases stop <;> rfl

/-- A read form asks to read one byte (R274 to R276). -/
theorem exec_readForm (restart stop : Bool) (s : State) :
    exec (readForm restart stop) s = .next (s.ask (withControls restart stop .readByte)) := by
  cases restart <;> cases stop <;> rfl

/-- Settles O34: `exec_writeForm` at each RESTART and STOP. -/
theorem writeFormsAsk : Obligations.WriteFormsAsk := fun b s =>
  ⟨exec_writeForm false false b s, exec_writeForm false true b s, exec_writeForm true false b s,
    exec_writeForm true true b s⟩

/-- Settles O35: `exec_readForm` at each RESTART and STOP. -/
theorem readFormsAsk : Obligations.ReadFormsAsk := fun s =>
  ⟨exec_readForm false false s, exec_readForm true false s, exec_readForm false true s, exec_readForm true true s⟩

/-- The word pushed for a read is the read form's, with RESTART where the configuration enables it (R221). -/
theorem readCmd_eq_dataCmdWord (cfg : Word) : readCmd cfg = dataCmdWord (cfg.getLsbD 5) false true 0 := by
  rw [readCmd, restartEn]
  cases cfg.getLsbD 5 <;> rfl

/-- Settles O26: a pushed word is a data-command word (`writeCmd_eq`, `readCmd_eq_dataCmdWord`), which decodes to the form
its control bits name. -/
theorem pushedWordsAreTheForms : Obligations.PushedWordsAreTheForms := by
  refine ⟨fun restart isLast recvLen len n i b => ?_, fun cfg => ?_⟩
  · rw [writeCmd_eq, decodeDataCmd_write]
    by_cases hrestart : i = 0 ∧ restart = true <;> cases stopOn isLast recvLen len n i <;> simp [hrestart, writeForm]
  · rw [readCmd_eq_dataCmdWord, decodeDataCmd_read, if_pos rfl]
    cases cfg.getLsbD 5 <;> rfl

/-- Settles O41: the words are the encodings of the instructions, which decode to them again. -/
theorem sampleWordsDecode : Obligations.SampleWordsDecode :=
  ⟨descriptorsRoundTrip (.setTiming .busFreqHz 400000) [] rfl rfl,
    descriptorsRoundTrip (.setMsgFlags true false true false) [] rfl rfl,
    descriptorsRoundTrip .disable [] rfl rfl,
    descriptorsRoundTrip (.transfer7 0x50 [.write [0x10], .read 1]) [] rfl rfl,
    descriptorsRoundTrip (.transfer10 0x123 [.write []]) [] rfl rfl,
    decodeDataCmd_write true true 0xA5, decodeDataCmd_read true false 0⟩

end Sys2Proof.Machine
end

section
/-! PROOF. Exceptions (60_exceptions.md): the default ABORT_ERROR picks the first kind that matches (R302), and a step that
completes rolls nothing back (R303). -/

namespace Sys2Proof.Machine

/-! ## The default ABORT_ERROR (R302) -/

theorem abortErrorOf_specDefault {p : Params} (h : p.abortError = .specDefault) (src : Word) :
    abortErrorOf p src = defaultAbortError src := by
  rw [abortErrorOf, h]

/-- The address bits of an abort source, as a field and one by one. -/
theorem addressBits_eq_zero_iff (src : Word) :
    src.extractLsb' 0 3 = 0 ↔ (src.getLsbD 0 || src.getLsbD 1 || src.getLsbD 2) = false := by
  simp only [Bool.or_eq_false_iff]
  constructor
  · intro h
    have hbit (i : Nat) (hi : i < 3) : src.getLsbD i = false := by
      simpa [BitVec.getLsbD_extractLsb', hi] using congrArg (BitVec.getLsbD · i) h
    exact ⟨⟨hbit 0 (by decide), hbit 1 (by decide)⟩, hbit 2 (by decide)⟩
  · rintro ⟨⟨h0, h1⟩, h2⟩
    apply BitVec.eq_of_getLsbD_eq
    intro i hi
    rw [BitVec.getLsbD_extractLsb']
    interval_cases i
    exacts [h0, h1, h2]

/-- Settles O36: a source bit of each kind decides one condition of the default mapping, with those before it false. -/
theorem defaultAbortMapping : Obligations.DefaultAbortMapping := by
  intro p src hp
  rw [abortErrorOf_specDefault hp, defaultAbortError]
  refine ⟨fun hlost => if_pos (Bool.or_eq_true_iff.mpr hlost), fun h12 h14 => ?_⟩
  rw [if_neg (Bool.eq_false_iff.mp (Bool.or_eq_false_iff.mpr ⟨h12, h14⟩)), Ne, addressBits_eq_zero_iff]
  refine ⟨fun haddr => if_pos (Bool.of_not_eq_false haddr), fun haddr => ?_⟩
  rw [if_neg (Bool.eq_false_iff.mp haddr)]
  exact ⟨fun h3 => if_pos h3, fun h3 h4 => by rw [h3, h4]; rfl, fun h3 h4 => by rw [h3, h4]; rfl⟩

/-! ## Outputs (R303) -/

/-- Nothing is taken back: the trace and what is asked are extended at their end, the results by at most one. -/
def OutputsGrow (s t : State) : Prop := s.trace <+: t.trace ∧ AddsResult s t ∧ s.asked <+: t.asked

variable {s t : State}

theorem AddsResult.atMostOne (h : AddsResult s t) : ∃ rs, t.results = s.results ++ rs ∧ rs.length ≤ 1 := by
  rcases h with h | ⟨r, h⟩
  · exact ⟨[], h.trans (List.append_nil _).symm, Nat.zero_le 1⟩
  · exact ⟨[r.word], h, Nat.le_refl 1⟩

/-- What shows port events and adds at most one result, and asks nothing. -/
theorem OutputsGrow.of_trace (htrace : s.trace <+: t.trace) (hresult : AddsResult s t) (hasked : t.asked = s.asked) :
    OutputsGrow s t :=
  ⟨htrace, hresult, hasked ▸ List.prefix_rfl⟩

/-- What adds at most one result, and shows and asks nothing. -/
theorem OutputsGrow.of_results (htrace : t.trace = s.trace) (hresult : AddsResult s t) (hasked : t.asked = s.asked) :
    OutputsGrow s t :=
  .of_trace (htrace ▸ List.prefix_rfl) hresult hasked

theorem transfer_outputsGrow {tar : Word} {ops : List Op} (h : transfer tar ops s = .next t) : OutputsGrow s t := by
  obtain ⟨-, -, _, _, _, _, _, _, _, _, _, _, -, -, -, -, -, rfl⟩ := transfer_next_spec h
  refine .of_trace (List.prefix_append _ _) ?_ rfl
  by_cases hops : ops = []
  · exact .inr ⟨.ok, if_pos hops⟩
  · exact .inl (if_neg hops)

theorem exec_opWrite_outputsGrow {buf : List Byte} (h : exec (.opWrite buf) s = .next t) : OutputsGrow s t := by
  obtain ⟨-, ops, w, -, -, -, -, rfl⟩ := exec_opWrite_next h
  refine .of_trace ?_ (addsResult_resultsAfter rfl) rfl
  simp only [writeDone, List.append_assoc, List.prefix_append]

/-- A read that fails at its poll ends with its error (R222). -/
theorem readFailed_outputsGrow (err : Bool) (x : XferError) (evs : List PortEvent) (ra : List Word) (ea : List Bool)
    (n : Nat) (s : State) : OutputsGrow s (readFailed err (Result.error x).word evs ra ea n s) :=
  .of_trace (by simp only [readFailed, List.append_assoc, List.prefix_append]) (.inr ⟨.error x, rfl⟩) rfl

theorem exec_opRead_outputsGrow {len : BitVec 16} (h : exec (.opRead len) s = .next t) : OutputsGrow s t := by
  obtain ⟨-, ops, -, rfl | ⟨_, _, _, _, _, -, rfl⟩ | ⟨_, _, _, _, -, rfl⟩ | ⟨_, _, _, _, _, -, -, -, -, -, rfl⟩⟩ :=
    exec_opRead_next h
  · exact .of_results rfl (.inr ⟨.error .overrun, rfl⟩) rfl
  · exact readFailed_outputsGrow true (.abort _) _ _ _ _ s
  · exact readFailed_outputsGrow s.msgErr .other _ _ _ _ s
  · refine .of_trace ?_ (addsResult_resultsAfter rfl) rfl
    simp only [readDone, List.append_assoc, List.prefix_append]

theorem exec_outputsGrow {i : Instr} (h : exec i s = .next t) : OutputsGrow s t := by
  rcases exec_next h with ⟨_, _, -, -, rfl⟩ | ⟨_, _, _, _, -, -, rfl⟩ | ⟨-, -, rfl⟩ | ⟨-, -, rfl⟩ |
    ⟨_, _, _, _, _, -, -, -, rfl⟩ | ⟨_, o, _, _, _, -, -, -, rfl⟩ | ⟨_, _, -, ht⟩ | ⟨buf, rfl⟩ | ⟨len, rfl⟩ | ⟨-, rs, rfl⟩
  · exact .of_results rfl (.inr ⟨.ok, rfl⟩) rfl
  · exact .of_results rfl (.inr ⟨.ok, rfl⟩) rfl
  · exact .of_results rfl (.inr ⟨.ok, rfl⟩) rfl
  · exact .of_trace (List.prefix_append _ _) (.inr ⟨.ok, rfl⟩) rfl
  · exact .of_trace (List.prefix_append _ _) (.inr ⟨.ok, rfl⟩) rfl
  · exact .of_trace (List.prefix_append _ _) (.inr ⟨o.result, rfl⟩) rfl
  · exact transfer_outputsGrow ht
  · exact exec_opWrite_outputsGrow h
  · exact exec_opRead_outputsGrow h
  · exact ⟨List.prefix_rfl, .inl rfl, List.prefix_append _ rs⟩

theorem step_outputsGrow (h : step s = .next t) : OutputsGrow s t :=
  step_lift (P := OutputsGrow) (fun _ _ _ he => exec_outputsGrow he) (fun _ _ _ k => k) (fun _ _ _ k => k)
    (fun _ => .of_results rfl (.inl rfl) rfl) (fun _ => .of_results rfl (.inr ⟨.ok, rfl⟩) rfl) h

/-- Settles O51: every instruction adds to the outputs, and so do waiting and the end of a transaction. -/
theorem outputsOnlyGrow : Obligations.OutputsOnlyGrow := by
  intro s t h
  obtain ⟨⟨es, htrace⟩, hresult, qs, hasked⟩ := step_outputsGrow h
  obtain ⟨rs, hresults, hone⟩ := hresult.atMostOne
  exact ⟨es, rs, qs, htrace.symm, hresults, hone, hasked.symm⟩

end Sys2Proof.Machine
end

section
/-! PROOF. Waiting, and the hazards that steps carry along (70_reset_and_hazards.md R343, R354, R355): the outstanding
counts, and the write in progress. -/

namespace Sys2Proof.Machine

/-- Settles O44: fetch finds nothing to take. -/
theorem idleWaits : Obligations.IdleWaits := fun _ hd hc hp => step_of_nothing hd hc hp

/-! ## The outstanding counts (R355) -/

/-- Below its largest value a count goes up without wrapping round. -/
theorem toNat_le_toNat_add_one {c : Word} (h : c ≠ 0xFFFFFFFF) : c.toNat ≤ (c + 1).toNat := by bv_omega

/-- The outstanding-write count has one writer, the write operation, which counts up below the maximum (R216). -/
theorem exec_txOutstanding_le {i : Instr} {s t : State} (h : exec i s = .next t) :
    s.txOutstanding.toNat ≤ t.txOutstanding.toNat := by
  obtain ⟨-, -, -, -, wtx, -⟩ := fieldsChangeOnlyByTheirWriters i s t h
  by_cases hkept : t.txOutstanding = s.txOutstanding
  · rw [hkept]
  · obtain ⟨buf, rfl⟩ := wtx (.inr (.inl hkept))
    obtain ⟨-, ops, w, -, -, -, hmax, rfl⟩ := exec_opWrite_next h
    cases w with
    | false => exact Nat.le_refl _
    | true => exact toNat_le_toNat_add_one (hmax rfl)

/-- The outstanding-read count has one writer, the read operation, which counts up below the maximum where it drains
only part of the bytes received (R225). -/
theorem exec_rxOutstanding_le {i : Instr} {s t : State} (h : exec i s = .next t) :
    s.rxOutstanding.toNat ≤ t.rxOutstanding.toNat := by
  obtain ⟨-, -, -, -, -, wrx, -⟩ := fieldsChangeOnlyByTheirWriters i s t h
  by_cases hkept : t.rxOutstanding = s.rxOutstanding
  · rw [hkept]
  · obtain ⟨len, rfl⟩ := wrx (.inr (.inl hkept))
    obtain ⟨-, ops, -, rfl | ⟨_, _, _, _, _, -, rfl⟩ | ⟨_, _, _, _, -, rfl⟩ | ⟨_, _, _, _, _, -, -, -, -, hmax, rfl⟩⟩ :=
      exec_opRead_next h
    · exact Nat.le_refl _
    · exact Nat.le_refl _
    · exact Nat.le_refl _
    · rw [readDone]
      split
      next hpart => exact toNat_le_toNat_add_one (hmax hpart.1 hpart.2)
      next => exact Nat.le_refl _

/-- Settles O52: no instruction lowers a count, and neither does waiting or the end of a transaction. -/
theorem outstandingCountsNeverFall : Obligations.OutstandingCountsNeverFall := fun _ _ h =>
  step_lift (P := fun s t => s.txOutstanding.toNat ≤ t.txOutstanding.toNat ∧ s.rxOutstanding.toNat ≤ t.rxOutstanding.toNat)
    (fun _ _ _ he => ⟨exec_txOutstanding_le he, exec_rxOutstanding_le he⟩) (fun _ _ _ k => k) (fun _ _ _ k => k)
    (fun _ => ⟨Nat.le_refl _, Nat.le_refl _⟩) (fun _ => ⟨Nat.le_refl _, Nat.le_refl _⟩) h

/-- No instruction writes the parameters (R54). -/
theorem exec_keeps_params {i : Instr} {s t : State} (h : exec i s = .next t) : t.params = s.params := by
  obtain ⟨-, -, -, -, -, -, -, -, -, -, -, hparams⟩ := fieldsChangeOnlyByTheirWriters i s t h
  exact hparams

theorem step_keeps_params {s t : State} (h : step s = .next t) : t.params = s.params :=
  step_lift (P := fun s t => t.params = s.params) (fun _ _ _ he => exec_keeps_params he) (fun _ _ _ k => k)
    (fun _ _ _ k => k) (fun _ => rfl) (fun _ => rfl) h

/-- Settles O53: the depth stays and the count does not fall, so the next read operation overruns again (R220). -/
theorem overrunIsForever : Obligations.OverrunIsForever := by
  intro s t h hdepth
  have hdepth' : t.params.rxFifoDepth ≤ t.rxOutstanding.toNat := by
    rw [step_keeps_params h]
    exact hdepth.trans (outstandingCountsNeverFall s t h).2
  exact ⟨hdepth', fun len tar ops hc => readOverrunTouchesNothing len tar ops t hc hdepth'⟩

/-! ## The write in progress (R354) -/

/-- A write operation leaves no write in progress exactly where its whole buffer fits and RECV_LEN is 0 (R216). -/
theorem not_leavesWip_iff (buf : List Byte) (s : State) :
    ¬ leavesWip buf s ↔ sendable buf s = buf.length ∧ s.txFlag.recvLen = false := by
  have hle : sendable buf s ≤ buf.length := Nat.min_le_left _ _
  rw [leavesWip, not_or, Nat.not_lt, hle.ge_iff_eq, Bool.not_eq_true]

/-- While a write is in progress the words of a write carry no restart (R213, R215). -/
theorem sentWords_noRestart {s : State} (hwip : s.status.wip = true) (buf : List Byte) :
    ∀ w ∈ sentWords buf s, w.getLsbD 10 = false := by
  intro w hw
  obtain ⟨q, -, rfl⟩ := List.mem_map.mp hw
  rw [writeCmd_eq, dataCmdWord_getLsbD, hwip]
  simp

/-- Settles O56: the flag's one writer is the write operation, which clears it where it leaves no write in progress. -/
theorem restartCarriesOver : Obligations.RestartCarriesOver := by
  refine fun i s t h hwip => ⟨fun hclear => ?_, sentWords_noRestart hwip⟩
  obtain ⟨-, -, -, -, wwip, -⟩ := fieldsChangeOnlyByTheirWriters i s t h
  obtain ⟨buf, rfl⟩ := wwip (.inl (by rw [hclear, hwip]; exact Bool.false_ne_true))
  obtain ⟨-, ops, w, -, -, hleaves, -, rfl⟩ := exec_opWrite_next h
  have hwhole : ¬ leavesWip buf s := fun hl => Bool.false_ne_true (hclear.symm.trans (hleaves.mpr hl))
  exact ⟨buf, rfl, (not_leavesWip_iff buf s).mp hwhole⟩

end Sys2Proof.Machine
end
